-- ==== Sys2Proof/Word.lean ====
section
/-! DEFINITION. The word types of HUFF (00_scope.md R8, R10): every register is 32 bits, every symbol and every node,
table or buffer index in a command word is 16 bits, and nothing is signed. -/

namespace Sys2Proof

/-- A host-visible register, a frequency, a command word: `REG_W = FREQ_W = 32` bits (00_scope.md R8). -/
abbrev Word := BitVec 32

/-- A symbol, a character, a node index, an index operand: `SYM_W = IDX_W = 16` bits (00_scope.md R8). -/
abbrev Half := BitVec 16

/-- One byte lane of a word on a byte-addressed platform bus (20_memory.md R68), and the width of `ERRCODE`. -/
abbrev Byte := BitVec 8

/-- The largest frequency and the largest table total, 0xFFFFFFFF (41_freq_table.md R122). -/
def maxFreq : Nat := 0xFFFFFFFF

/-- `NIL`, the node index that means "no child" (00_scope.md R8). -/
def NIL : Half := 0xFFFF

end Sys2Proof
end

