-- ==== Sys2Proof/Config.lean ====
section
/-! DEFINITION. What an implementation of HUFF fixes: the two size parameters, the hardwired identity words, the
platform's placement, and the values the spec leaves free. -/

namespace Sys2Proof.Config

/-- The two size parameters of 00_scope.md R9, each held as its legal range so that no illegal configuration can be
written (93_implementation_defined.md F3): `sizeN` is N_MAX − 1 and `sizeL` is L_MAX − 1. -/
structure Params where
  sizeN : Fin 32767
  sizeL : Fin 65535
  deriving DecidableEq, Repr

/-- `N_MAX`, the most distinct symbols the frequency table holds, 1 to 32767 (00_scope.md R9). -/
def Params.nMax (p : Params) : Nat := p.sizeN.val + 1

/-- `L_MAX`, the most characters the decoder input buffer holds, 1 to 65535 (00_scope.md R9). -/
def Params.lMax (p : Params) : Nat := p.sizeL.val + 1

/-- The number of nodes the node memory holds, 2·N_MAX − 1 (00_scope.md R9, 20_memory.md R63). -/
def Params.nodeMax (p : Params) : Nat := 2 * p.nMax - 1

/-- The spec's default sizes, N_MAX = 256 and L_MAX = 4096 (00_scope.md R9). -/
def Params.default : Params := { sizeN := 255, sizeL := 4095 }

/-- The configuration with the given sizes, or none where a size is outside its legal range: such a configuration is
refused (00_scope.md R9, 93_implementation_defined.md F3). -/
def Params.ofSizes? (nMax lMax : Nat) : Option Params :=
  if h : (1 ≤ nMax ∧ nMax ≤ 32767) ∧ (1 ≤ lMax ∧ lMax ≤ 65535) then
    some { sizeN := ⟨nMax - 1, by omega⟩, sizeL := ⟨lMax - 1, by omega⟩ }
  else none

/-- `ID`, the identity word (10_state.md R22). -/
def idWord : Word := 0x48554601

/-- `PARAM_S`, the fixed widths (10_state.md R25). -/
def paramSWord : Word := 0x00102010

/-- `PARAM_N = zext_32(N_MAX)` (10_state.md R23). -/
def Params.paramNWord (p : Params) : Word := BitVec.ofNat 32 p.nMax

/-- `PARAM_L = zext_32(L_MAX)` (10_state.md R24). -/
def Params.paramLWord (p : Params) : Word := BitVec.ofNat 32 p.lMax

/-- Where the platform puts the register window, in 256-byte units: OPEN, so a constant without a value
(20_memory.md R70, 92_eei_decisions.md D2). -/
opaque huffPage : Nat

/-- `HUFF_BASE`, 256-byte aligned and otherwise OPEN (20_memory.md R70, 92_eei_decisions.md "Open parameters"). -/
def huffBase : Nat := 256 * huffPage

/-- `HUFF_IRQ_LINE`, the platform's routing of `IRQ`: OPEN (60_exceptions.md R210). -/
opaque irqLine : Nat

/-- The k-th free draw: what a read of a volatile register returns while `BUSY = 1` (20_memory.md R73,
93_implementation_defined.md U1). No value of it is known to any proof. -/
opaque busyRead : Nat → Word

/-- The increment of a FREQ_ADD performed with no command pending: no rule gives one and no step of the machine takes
it (40_control.md R101), so it is a constant without a value. -/
opaque unlatchedArg : Word

end Sys2Proof.Config
end

