-- ==== Sys2Proof/HostSyntax.lean ====
section
/-! DEFINITION. The host's statements (30_encoding.md R90): actions of the host agent, not of HUFF. An access names its
size so that the accesses HUFF's port does not have (20_memory.md R61) can be written down and refused. -/

namespace Sys2Proof

/-- The host's variables h0–h7 (30_encoding.md R90). -/
inductive HVar where
  | h0 | h1 | h2 | h3 | h4 | h5 | h6 | h7
  deriving DecidableEq, Repr

/-- The size of a host access. Only `word` is an access of HUFF (20_memory.md R60, R61). -/
inductive AccessSize where
  | byte | half | word
  deriving DecidableEq, Repr

/-- A host statement (30_encoding.md R90). A label is a number. -/
inductive HostStmt where
  /-- `wr REG, v`: a host write of v at a byte offset of the window. -/
  | wr (size : AccessSize) (offset : Nat) (value : Word)
  /-- `rd hN, REG`: a host read at a byte offset of the window into hN. -/
  | rd (size : AccessSize) (dst : HVar) (offset : Nat)
  /-- `andi hN, hM, imm`: hN <- hM AND imm. -/
  | andi (dst src : HVar) (imm : Word)
  /-- `bnez hN, label`: the host jumps to label when hN ≠ 0. -/
  | bnez (src : HVar) (target : Nat)
  /-- `beqz hN, label`: the host jumps to label when hN = 0. -/
  | beqz (src : HVar) (target : Nat)
  /-- `label:`: a branch target. -/
  | label (name : Nat)
  /-- `halt`: the host program ends (00_scope.md R17). -/
  | halt
  deriving DecidableEq, Repr

end Sys2Proof
end

