-- ==== Sys2Proof/Machine/State.lean ====
section
/-! DEFINITION. The state of HUFF (10_state.md, 20_memory.md) as plain data, the host agent beside it, why a step can
stop, and the state after reset (70_reset_and_hazards.md R230, R231). -/

namespace Sys2Proof.Machine

/-- One entry of the frequency-table memory (20_memory.md R62). -/
structure FtEntry where
  sym  : Half
  freq : Word
  deriving DecidableEq, Repr

/-- One node of the node memory (20_memory.md R63). -/
structure Node where
  freq   : Word
  isLeaf : Bool
  sym    : Half
  left   : Half
  right  : Half
  deriving DecidableEq, Repr

/-- A memory addressed by index (20_memory.md R62–R66): the listed (index, entry) pairs. The one canonical form is
`Memory.wf`: indexes strictly rising, no entry equal to the blank that an unlisted index reads as. -/
abbrev Memory (α : Type) := List (Nat × α)

/-- The four internal memories (20_memory.md R62–R65; 00_scope.md R11). -/
inductive Space where
  | ft | node | bin | sout
  deriving DecidableEq, Repr

/-- The error codes that have a name (60_exceptions.md R201). `unknownSymbol` and `emptyInput` are reserved: no rule
raises them. The unnamed codes are unreachable and cannot be written here. -/
inductive ErrCode where
  | ok
  | emptyAlphabet
  | unknownSymbol
  | malformedBitstring
  | undecodableSequence
  | emptyInput
  | illegalCmd
  | tableFull
  | freqOverflow
  | tableLocked
  | badIndex
  | noTree
  | bufferFull
  deriving DecidableEq, Repr

/-- The pending-command latch's contents: the command word and the value `ARG0` held when the command was accepted
(10_state.md R44). -/
structure Pending where
  word : Word
  arg  : Word
  deriving DecidableEq, Repr

/-- The host's variables (30_encoding.md R90). -/
structure HostVars where
  h0 : Word
  h1 : Word
  h2 : Word
  h3 : Word
  h4 : Word
  h5 : Word
  h6 : Word
  h7 : Word
  deriving DecidableEq, Repr

/-- The host agent (00_scope.md R15, 30_encoding.md R90): its program, its place in it, its variables. No state of
HUFF: the environment, written down beside it. -/
structure HostAgent where
  program : List HostStmt
  place   : Nat
  vars    : HostVars
  deriving DecidableEq, Repr

/-- Whose turn it is: one of the two agents of 00_scope.md R15, or the reset input of 70_reset_and_hazards.md R230. -/
inductive Turn where
  | host | engine | reset
  deriving DecidableEq, Repr

/-- The state. `cfg` is the model's argument (00_scope.md R9, R16) and never changes; `host`, `schedule` and `draws`
are the model's own; every other field is HUFF's. -/
structure State where
  /-- N_MAX and L_MAX (00_scope.md R9). -/
  cfg       : Config.Params
  /-- `CTRL.IRQ_EN` (10_state.md R28). -/
  irqEn     : Bool
  /-- `STATUS.BUSY` (10_state.md R26). -/
  busy      : Bool
  /-- `STATUS.DONE` (10_state.md R26). -/
  done      : Bool
  /-- `STATUS.OVERRUN` (10_state.md R26). -/
  overrun   : Bool
  /-- `STATUS.TREE_VALID` (10_state.md R26). -/
  treeValid : Bool
  /-- `STATUS.ERRCODE` (10_state.md R26). -/
  errCode   : ErrCode
  /-- `ARG0` (10_state.md R30). -/
  arg0      : Word
  /-- `RES0` (10_state.md R32). -/
  res0      : Word
  /-- `RES1` (10_state.md R33). -/
  res1      : Word
  /-- `RES2` (10_state.md R34). -/
  res2      : Word
  /-- `ERRINFO` (10_state.md R35). -/
  errInfo   : Word
  /-- `FT_COUNT` (10_state.md R36). -/
  ftCount   : Word
  /-- `FT_TOTAL` (10_state.md R37). -/
  ftTotal   : Word
  /-- `ROOT` (10_state.md R38). -/
  root      : Word
  /-- `NODE_COUNT` (10_state.md R39). -/
  nodeCount : Word
  /-- `BIN_LEN` (10_state.md R40). -/
  binLen    : Word
  /-- `SOUT_LEN` (10_state.md R41). -/
  soutLen   : Word
  /-- `DEC_TRAIL` (10_state.md R42). -/
  decTrail  : Word
  /-- `PENDING` (10_state.md R44): `none` here is the spec's own `none`. -/
  pending   : Option Pending
  /-- `FT` (20_memory.md R62). -/
  ft        : Memory FtEntry
  /-- `NODE` (20_memory.md R63). -/
  node      : Memory Node
  /-- `BIN` (20_memory.md R64). -/
  bin       : Memory Half
  /-- `SOUT` (20_memory.md R65). -/
  sout      : Memory Half
  /-- The host agent. -/
  host      : HostAgent
  /-- The turns still to be taken, the next one first. -/
  schedule  : List Turn
  /-- How many free draws reads of volatile registers have used (20_memory.md R73). -/
  draws     : Nat
  deriving DecidableEq, Repr

/-- Why the machine stops with a fault. HUFF itself never does (60_exceptions.md R200). -/
inductive Fault where
  /-- A command reached an index past the last entry of a memory (20_memory.md R62–R65 give each its size). Raised by
  the memory accesses of Machine/Ops.lean, in states no run reaches. Safe: the model stops. -/
  | noSuchEntry (space : Space) (index : Nat)
  deriving DecidableEq, Repr

/-- Why the model has no meaning for what it is asked to do. -/
inductive Refusal where
  /-- An instruction without a meaning. Raised by exec alone. Safe: the model stops. -/
  | notModelled (mnemonic : String)
  /-- The host made an access narrower than 32 bits (20_memory.md R61, 93_implementation_defined.md F1). Raised by the
  host step. Safe: the spec refuses such a program. -/
  | subWordAccess (offset : Nat)
  /-- The host made an access at an offset that is not a multiple of 4 (20_memory.md R61, 93_implementation_defined.md
  F1). Raised by the host step. Safe: the spec refuses such a program. -/
  | misalignedAccess (offset : Nat)
  /-- The host's access lies outside the 256-byte window (20_memory.md R60), so it is none of HUFF's. Raised by the host
  step. Safe: the model stops. -/
  | outsideWindow (offset : Nat)
  /-- The host jumps to a label its program does not hold (30_encoding.md R90 gives such a jump no meaning). Raised by
  the host step. Safe: the model stops. -/
  | undefinedLabel (name : Nat)
  deriving DecidableEq, Repr

/-- The host's variables all zero: no rule gives them start values (30_encoding.md R90). DESIGN CHOICE, log 9. -/
def HostVars.zero : HostVars :=
  { h0 := 0, h1 := 0, h2 := 0, h3 := 0, h4 := 0, h5 := 0, h6 := 0, h7 := 0 }

/-- A host without a program. DESIGN CHOICE, log 9. -/
def HostAgent.idle : HostAgent := { program := [], place := 0, vars := HostVars.zero }

/-- HUFF right after reset, with given sizes (70_reset_and_hazards.md R230). The memories are unspecified (R231):
nothing is listed, so every entry reads as its blank. DESIGN CHOICE, log 5. -/
def State.resetWith (cfg : Config.Params) : State :=
  { cfg := cfg
    irqEn := false, busy := false, done := false, overrun := false, treeValid := false, errCode := .ok
    arg0 := 0, res0 := 0, res1 := 0, res2 := 0, errInfo := 0
    ftCount := 0, ftTotal := 0, root := 0, nodeCount := 0, binLen := 0, soutLen := 0, decTrail := 0
    pending := none
    ft := [], node := [], bin := [], sout := []
    host := HostAgent.idle, schedule := [], draws := 0 }

/-- The machine right after reset, at the spec's default sizes N_MAX = 256 and L_MAX = 4096 (00_scope.md R9;
DESIGN CHOICE, log 2). -/
def State.reset : State := State.resetWith Config.Params.default

end Sys2Proof.Machine
end

