-- ==== Sys2Proof/Machine/Memory.lean ====
section
/-! DEFINITION. Index-addressed memories in one canonical form (20_memory.md R62–R66). `blank` is what an index that is
not listed reads as; every operation takes it. -/

namespace Sys2Proof.Machine

/-- What an entry of `FT` that nothing has written reads as: unspecified by 70_reset_and_hazards.md R231, which lets a
model take any value. DESIGN CHOICE all zero, log 5. -/
def FtEntry.blank : FtEntry := { sym := 0, freq := 0 }

/-- What a node that nothing has written reads as. DESIGN CHOICE all zero, log 5. -/
def Node.blank : Node := { freq := 0, isLeaf := false, sym := 0, left := 0, right := 0 }

/-- What a character or symbol that nothing has written reads as. DESIGN CHOICE zero, log 5. -/
def blankHalf : Half := 0

variable {α : Type}

/-- The entry at an index. -/
def Memory.get (blank : α) : Memory α → Nat → α
  | [], _ => blank
  | (k, x) :: m, i => if i = k then x else Memory.get blank m i

/-- The memory with an entry written: the list stays sorted, and a blank is not listed. -/
def Memory.set [DecidableEq α] (blank : α) : Memory α → Nat → α → Memory α
  | [], i, v => if v = blank then [] else [(i, v)]
  | (k, x) :: m, i, v =>
    if i < k then (if v = blank then (k, x) :: m else (i, v) :: (k, x) :: m)
    else if i = k then (if v = blank then m else (i, v) :: m)
    else (k, x) :: Memory.set blank m i v

/-- The entries at indexes 0 to n − 1, in order. -/
def Memory.slice (blank : α) (m : Memory α) (n : Nat) : List α :=
  (List.range n).map (Memory.get blank m)

/-- The memory with a list of entries written at consecutive indexes from i on. -/
def Memory.setAll [DecidableEq α] (blank : α) : Memory α → Nat → List α → Memory α
  | m, _, [] => m
  | m, i, v :: vs => Memory.setAll blank (Memory.set blank m i v) (i + 1) vs

/-- Every listed index is above a bound, and they strictly rise. -/
def Memory.risingFrom : Nat → Memory α → Bool
  | _, [] => true
  | b, (k, _) :: m => b ≤ k && Memory.risingFrom (k + 1) m

/-- The canonical form: indexes strictly rising, no listed entry blank. -/
def Memory.wf [DecidableEq α] (blank : α) (m : Memory α) : Bool :=
  Memory.risingFrom 0 m && m.all (fun e => !decide (e.2 = blank))

/-- No listed index lies past the memory's last entry. -/
def Memory.within (size : Nat) (m : Memory α) : Bool := m.all (fun e => decide (e.1 < size))

end Sys2Proof.Machine
end

