-- ==== Sys2Proof/Machine/Flags.lean ====
section
/-! DEFINITION. The fields of `STATUS` and `CTRL` (10_state.md R26–R28), the numbers of the error codes (60_exceptions.md
R201) and the interrupt output (10_state.md R43). -/

namespace Sys2Proof.Machine

/-- The number of an error code (60_exceptions.md R201). -/
def ErrCode.number : ErrCode → Byte
  | .ok => 0x00
  | .emptyAlphabet => 0x01
  | .unknownSymbol => 0x02
  | .malformedBitstring => 0x03
  | .undecodableSequence => 0x04
  | .emptyInput => 0x05
  | .illegalCmd => 0x10
  | .tableFull => 0x11
  | .freqOverflow => 0x12
  | .tableLocked => 0x13
  | .badIndex => 0x14
  | .noTree => 0x15
  | .bufferFull => 0x16

/-- `STATUS.ERR`, never stored: `ERRCODE ≠ 0x00` (10_state.md R26). -/
def State.errFlag (s : State) : Bool := s.errCode.number != 0x00

/-- The word a read of `STATUS` returns (10_state.md R26): ERRCODE in bits 15:8, TREE_VALID, OVERRUN, ERR, DONE and BUSY
in bits 4 to 0, every reserved bit 0. -/
def State.statusWord (s : State) : Word :=
  (0 : BitVec 16) ++ s.errCode.number ++ (0 : BitVec 3) ++ BitVec.ofBool s.treeValid ++ BitVec.ofBool s.overrun
    ++ BitVec.ofBool s.errFlag ++ BitVec.ofBool s.done ++ BitVec.ofBool s.busy

/-- A host write of w to `STATUS`: bit 1 clears `DONE`, bit 3 clears `OVERRUN`, every other bit is ignored (10_state.md
R27). -/
def State.writeStatus (s : State) (w : Word) : State :=
  { s with
    done := if w.getLsbD 1 then false else s.done
    overrun := if w.getLsbD 3 then false else s.overrun }

/-- The word a read of `CTRL` returns: `IRQ_EN` in bit 0, the reserved bits 0 (10_state.md R28). -/
def State.ctrlWord (s : State) : Word := (0 : BitVec 31) ++ BitVec.ofBool s.irqEn

/-- A host write of w to `CTRL`: `IRQ_EN <- w[0]` (10_state.md R28). -/
def State.writeCtrl (s : State) (w : Word) : State := { s with irqEn := w.getLsbD 0 }

/-- The interrupt output, a wire: `CTRL.IRQ_EN AND STATUS.DONE` (10_state.md R43, 60_exceptions.md R210). -/
def State.irq (s : State) : Bool := s.irqEn && s.done

end Sys2Proof.Machine
end

