-- ==== Sys2Proof/Syntax.lean ====
section
/-! DEFINITION. The ten commands of HUFF (30_encoding.md R80–R85), one constructor per row of the opcode table. The
increment of FREQ_ADD is no part of the word: it is the latched argument (30_encoding.md R84). -/

namespace Sys2Proof

/-- A command (30_encoding.md R87). -/
inductive Instr where
  /-- NOP, format N, 0x00 (40_control.md R110). -/
  | nop
  /-- CLEAR, format N, 0x01 (40_control.md R111). -/
  | clear
  /-- FREQ_ADD sym, format S, 0x02 (41_freq_table.md R120). -/
  | freqAdd (sym : Half)
  /-- FREQ_READ idx, format I, 0x03 (41_freq_table.md R125). -/
  | freqRead (idx : Half)
  /-- BUILD, format N, 0x10 (42_builder.md R144). -/
  | build
  /-- NODE_READ idx, format I, 0x11 (42_builder.md R152). -/
  | nodeRead (idx : Half)
  /-- DEC_CLEAR, format N, 0x20 (43_decoder.md R171). -/
  | decClear
  /-- DEC_PUSH ch, format S, 0x21 (43_decoder.md R172). -/
  | decPush (ch : Half)
  /-- DECODE, format N, 0x22 (43_decoder.md R174). -/
  | decode
  /-- DEC_READ idx, format I, 0x23 (43_decoder.md R178). -/
  | decRead (idx : Half)
  deriving DecidableEq, Repr

end Sys2Proof
end

