-- ==== Sys2Proof/WellFormed.lean ====
section
/-! DEFINITION. What is well formed: a command word (30_encoding.md R85, R86), written from the opcode map's match and
mask columns; a command, whose 16-bit operand admits every value (R82, R83); a host access and a host program
(20_memory.md R60, R61). -/

namespace Sys2Proof

/-- One row of the opcode map (30_encoding.md R85): a word selects it when `word AND mask = match`. -/
structure OpcodeRow where
  mnemonic : String
  pattern  : Word
  mask     : Word
  deriving DecidableEq, Repr

/-- The opcode map (30_encoding.md R85), row for row. -/
def opcodeRows : List OpcodeRow :=
  [ { mnemonic := "NOP",       pattern := 0x00000000, mask := 0xFFFFFFFF },
    { mnemonic := "CLEAR",     pattern := 0x01000000, mask := 0xFFFFFFFF },
    { mnemonic := "FREQ_ADD",  pattern := 0x02000000, mask := 0xFFFF0000 },
    { mnemonic := "FREQ_READ", pattern := 0x03000000, mask := 0xFFFF0000 },
    { mnemonic := "BUILD",     pattern := 0x10000000, mask := 0xFFFFFFFF },
    { mnemonic := "NODE_READ", pattern := 0x11000000, mask := 0xFFFF0000 },
    { mnemonic := "DEC_CLEAR", pattern := 0x20000000, mask := 0xFFFFFFFF },
    { mnemonic := "DEC_PUSH",  pattern := 0x21000000, mask := 0xFFFF0000 },
    { mnemonic := "DECODE",    pattern := 0x22000000, mask := 0xFFFFFFFF },
    { mnemonic := "DEC_READ",  pattern := 0x23000000, mask := 0xFFFF0000 } ]

/-- Whether a word selects a row: `(w AND mask) = match` (30_encoding.md R85). -/
def OpcodeRow.selects (r : OpcodeRow) (w : Word) : Bool := w &&& r.mask == r.pattern

/-- Whether a word is legal: it selects a row. "The illegal words are exactly the words that match no row"
(30_encoding.md R85). -/
def legalWord (w : Word) : Bool := opcodeRows.any (·.selects w)

/-- The mnemonic of a command, as the opcode map spells it (30_encoding.md R85). -/
def Instr.mnemonic : Instr → String
  | .nop => "NOP"
  | .clear => "CLEAR"
  | .freqAdd _ => "FREQ_ADD"
  | .freqRead _ => "FREQ_READ"
  | .build => "BUILD"
  | .nodeRead _ => "NODE_READ"
  | .decClear => "DEC_CLEAR"
  | .decPush _ => "DEC_PUSH"
  | .decode => "DECODE"
  | .decRead _ => "DEC_READ"

/-- A command is well formed when its operand fits the 16-bit IMM field. All 65536 values are legal (30_encoding.md
R82, R83), and the operand's type holds no other, so this check refuses nothing. -/
def Instr.wellFormed : Instr → Bool
  | .nop | .clear | .build | .decClear | .decode => true
  | .freqAdd x | .freqRead x | .nodeRead x | .decPush x | .decRead x => x.toNat < 65536

/-- A host access HUFF's port has: one 32-bit word at a multiple of 4 from 0x00 to 0xFC (20_memory.md R60, R61). -/
def accessWellFormed (size : AccessSize) (offset : Nat) : Bool :=
  size == .word && offset % 4 == 0 && offset < 256

/-- A host statement is well formed inside a program when its access is one HUFF has and its branch target is a label
of the program (20_memory.md R61, 30_encoding.md R90). -/
def HostStmt.wellFormed (program : List HostStmt) : HostStmt → Bool
  | .wr size offset _ => accessWellFormed size offset
  | .rd size _ offset => accessWellFormed size offset
  | .andi .. => true
  | .bnez _ target => program.contains (.label target)
  | .beqz _ target => program.contains (.label target)
  | .label _ => true
  | .halt => true

/-- A host program a model admits: every statement is well formed (20_memory.md R61). -/
def hostProgramWellFormed (program : List HostStmt) : Bool :=
  program.all (·.wellFormed program)

end Sys2Proof
end

