-- ==== Sys2Proof/Decode.lean ====
section
/-! DEFINITION. The command decoder, total on 32-bit words (30_encoding.md R87), its rejections by name (R86), and the
encoder, its inverse. -/

namespace Sys2Proof

/-- Why a word is illegal (30_encoding.md R86, its three cases). -/
inductive IllegalReason where
  /-- `w[23:16] ≠ 0x00` (R86 case 2). -/
  | reservedBits
  /-- `w[31:24]` is none of the ten opcodes (R86 case 1). -/
  | unlistedOpcode
  /-- Format N with `w[15:0] ≠ 0x0000` (R86 case 3). -/
  | operandOnFormatN
  deriving DecidableEq, Repr

/-- What the decoder answers: a command, or `Illegal` (30_encoding.md R87). -/
inductive Decoded where
  | command (i : Instr)
  | illegal (why : IllegalReason)
  deriving DecidableEq, Repr

/-- The command, where there is one. -/
def Decoded.command? : Decoded → Option Instr
  | .command i => some i
  | .illegal _ => none

/-- `OPC`, bits 31:24 (30_encoding.md R80). -/
def opcField (w : Word) : Byte := w.extractLsb' 24 8

/-- `RSV`, bits 23:16 (30_encoding.md R80). -/
def rsvField (w : Word) : Byte := w.extractLsb' 16 8

/-- `IMM`, bits 15:0 (30_encoding.md R80). -/
def immField (w : Word) : Half := w.extractLsb' 0 16

/-- A format-N command: legal only with `IMM = 0x0000` (30_encoding.md R81, R86 case 3). -/
def formatN (imm : Half) (i : Instr) : Decoded :=
  if imm = 0 then .command i else .illegal .operandOnFormatN

/-- The row of the opcode map that `OPC` names (30_encoding.md R87, the case table). -/
def decodeOpcode (opc : Byte) (imm : Half) : Decoded :=
  if opc = 0x00 then formatN imm .nop
  else if opc = 0x01 then formatN imm .clear
  else if opc = 0x02 then .command (.freqAdd imm)
  else if opc = 0x03 then .command (.freqRead imm)
  else if opc = 0x10 then formatN imm .build
  else if opc = 0x11 then .command (.nodeRead imm)
  else if opc = 0x20 then formatN imm .decClear
  else if opc = 0x21 then .command (.decPush imm)
  else if opc = 0x22 then formatN imm .decode
  else if opc = 0x23 then .command (.decRead imm)
  else .illegal .unlistedOpcode

/-- `decode_cmd` (30_encoding.md R87). -/
def decodeCmd (w : Word) : Decoded :=
  if rsvField w = 0 then decodeOpcode (opcField w) (immField w) else .illegal .reservedBits

/-- The opcode of a command (30_encoding.md R85). -/
def opcodeOf : Instr → Byte
  | .nop => 0x00
  | .clear => 0x01
  | .freqAdd _ => 0x02
  | .freqRead _ => 0x03
  | .build => 0x10
  | .nodeRead _ => 0x11
  | .decClear => 0x20
  | .decPush _ => 0x21
  | .decode => 0x22
  | .decRead _ => 0x23

/-- The operand of a command, or 0x0000 in format N (30_encoding.md R81–R83). -/
def operandOf : Instr → Half
  | .nop | .clear | .build | .decClear | .decode => 0x0000
  | .freqAdd x | .freqRead x | .nodeRead x | .decPush x | .decRead x => x

/-- `encode_cmd`: the opcode in bits 31:24, 0x00 in bits 23:16, the operand or 0x0000 in bits 15:0
(30_encoding.md R87). -/
def encodeCmd (i : Instr) : Word := opcodeOf i ++ (0x00 : Byte) ++ operandOf i

/-- The command the decoder reads from the word whose bits are `w`, every bit above `nbits` zero; none where the word
is illegal, or wider than a command word (30_encoding.md R80: every command is one 32-bit word). -/
def decodeTableWord (nbits w : Nat) : Option Instr :=
  let bits := w % 2 ^ nbits
  if bits < 2 ^ 32 then (decodeCmd (BitVec.ofNat 32 bits)).command? else none

end Sys2Proof
end

