-- ==== Sys2Proof/Machine/Operands.lean ====
section
/-! DEFINITION. Operand assembly (30_encoding.md R84), the decoder's bit characters (43_decoder.md R173) and the result
words of NODE_READ (42_builder.md R152). -/

namespace Sys2Proof.Machine

/-- `idx = zext_32(w[15:0])`, the index operand of FREQ_READ, NODE_READ and DEC_READ (30_encoding.md R84). -/
def idxOperand (imm : Half) : Word := imm.zeroExtend 32

/-- `zext_32` of a symbol or character: the `ERRINFO` of TABLE_FULL, FREQ_OVERFLOW and BUFFER_FULL (60_exceptions.md
R201) and the `RES0` of FREQ_READ and DEC_READ (41_freq_table.md R125, 43_decoder.md R178). -/
def zextHalf (x : Half) : Word := x.zeroExtend 32

/-- `inc = PENDING.arg` (30_encoding.md R84, 41_freq_table.md R120). With nothing pending there is no increment and no
step performs a command; the free value stands there (log 7). -/
def State.incOperand (s : State) : Word :=
  match s.pending with
  | some p => p.arg
  | none => Config.unlatchedArg

/-- '0', 0x0030 (00_scope.md R12). -/
def charZero : Half := 0x0030

/-- '1', 0x0031 (00_scope.md R12). -/
def charOne : Half := 0x0031

/-- `bitval` (43_decoder.md R173): false is 0, true is 1, none is a malformed character. -/
def bitval (c : Half) : Option Bool :=
  if c = charZero then some false else if c = charOne then some true else none

/-- The kind and symbol word of NODE_READ: `is_leaf` in bit 31, zeros, `sym` in bits 15:0 (42_builder.md R152). -/
def Node.kindWord (n : Node) : Word := BitVec.ofBool n.isLeaf ++ (0 : BitVec 15) ++ n.sym

/-- The children word of NODE_READ: `right` in bits 31:16, `left` in bits 15:0 (42_builder.md R152). -/
def Node.childrenWord (n : Node) : Word := n.right ++ n.left

end Sys2Proof.Machine
end

