-- ==== Sys2Proof/Machine/Ops.lean ====
section
/-! DEFINITION. The operations the commands share: the bounded memory accesses, completion, raising an error (the one
place where an error is entered, 60_exceptions.md R206), acceptance, and the reset input. -/

namespace Sys2Proof.Machine

/-- How a command's pseudocode stops before its end: `raise Error(code, info)` (00_scope.md R11), or an access to an
entry that does not exist. -/
inductive Stop where
  | error (code : ErrCode) (info : Word)
  | fault (f : Fault)
  deriving DecidableEq, Repr

/-- The outcome of a piece of a command's pseudocode. -/
abbrev Cmd (α : Type) := Except Stop α

/-- `raise Error(code, info)` inside a command (00_scope.md R11). -/
def Cmd.raise {α : Type} (code : ErrCode) (info : Word) : Cmd α := .error (.error code info)

/-- The command goes on only where an index exists: below the memory's size (20_memory.md R62–R65). -/
def Cmd.needEntry (space : Space) (size index : Nat) : Cmd Unit :=
  if index < size then .ok () else .error (.fault (.noSuchEntry space index))

/-- The command goes on only where the first n entries exist. -/
def Cmd.needPrefix (space : Space) (size n : Nat) : Cmd Unit :=
  if n ≤ size then .ok () else .error (.fault (.noSuchEntry space size))

/-- `FT[i]` (20_memory.md R62). -/
def State.ftAt (s : State) (i : Nat) : FtEntry := Memory.get FtEntry.blank s.ft i

/-- `NODE[i]` (20_memory.md R63). -/
def State.nodeAt (s : State) (i : Nat) : Node := Memory.get Node.blank s.node i

/-- `BIN[j]` (20_memory.md R64). -/
def State.binAt (s : State) (j : Nat) : Half := Memory.get blankHalf s.bin j

/-- `SOUT[j]` (20_memory.md R65). -/
def State.soutAt (s : State) (j : Nat) : Half := Memory.get blankHalf s.sout j

/-- `FT[0..FT_COUNT−1]`, the valid entries, oldest first (20_memory.md R62). -/
def State.ftEntries (s : State) : List FtEntry := Memory.slice FtEntry.blank s.ft s.ftCount.toNat

/-- `NODE[0..NODE_COUNT−1]`, the valid nodes (20_memory.md R63). -/
def State.nodes (s : State) : List Node := Memory.slice Node.blank s.node s.nodeCount.toNat

/-- `BIN[0..BIN_LEN−1]`, the bit-string (20_memory.md R64). -/
def State.binChars (s : State) : List Half := Memory.slice blankHalf s.bin s.binLen.toNat

/-- `SOUT[0..SOUT_LEN−1]`, the decoded symbols (20_memory.md R65). -/
def State.soutSyms (s : State) : List Half := Memory.slice blankHalf s.sout s.soutLen.toNat

/-- Read `FT[i]`. -/
def readFt (s : State) (i : Nat) : Cmd FtEntry := do
  Cmd.needEntry .ft s.cfg.nMax i
  return s.ftAt i

/-- Write `FT[i]`. DESIGN CHOICE: every other entry stays, also those at `FT_COUNT` or above, which 20_memory.md R62
calls unspecified (log 24). -/
def writeFt (s : State) (i : Nat) (e : FtEntry) : Cmd State := do
  Cmd.needEntry .ft s.cfg.nMax i
  return { s with ft := Memory.set FtEntry.blank s.ft i e }

/-- Read `FT[0..FT_COUNT−1]`. -/
def readFtEntries (s : State) : Cmd (List FtEntry) := do
  Cmd.needPrefix .ft s.cfg.nMax s.ftCount.toNat
  return s.ftEntries

/-- Read `NODE[i]`. -/
def readNode (s : State) (i : Nat) : Cmd Node := do
  Cmd.needEntry .node s.cfg.nodeMax i
  return s.nodeAt i

/-- Write `NODE[0..]` from a list of nodes. -/
def writeNodes (s : State) (nodes : List Node) : Cmd State := do
  Cmd.needPrefix .node s.cfg.nodeMax nodes.length
  return { s with node := Memory.setAll Node.blank s.node 0 nodes }

/-- Write `BIN[j]`. -/
def writeBin (s : State) (j : Nat) (c : Half) : Cmd State := do
  Cmd.needEntry .bin s.cfg.lMax j
  return { s with bin := Memory.set blankHalf s.bin j c }

/-- Read `BIN[0..BIN_LEN−1]`. -/
def readBinChars (s : State) : Cmd (List Half) := do
  Cmd.needPrefix .bin s.cfg.lMax s.binLen.toNat
  return s.binChars

/-- Read `SOUT[j]`. -/
def readSout (s : State) (j : Nat) : Cmd Half := do
  Cmd.needEntry .sout s.cfg.lMax j
  return s.soutAt j

/-- Write `SOUT[0..]` from a list of symbols. DESIGN CHOICE: the entries above them, which 20_memory.md R65 calls
unspecified, stay (log 24). -/
def writeSout (s : State) (syms : List Half) : Cmd State := do
  Cmd.needPrefix .sout s.cfg.lMax syms.length
  return { s with sout := Memory.setAll blankHalf s.sout 0 syms }

/-- Completion with a code and a detail word (40_control.md R102). -/
def State.completeWith (s : State) (code : ErrCode) (info : Word) : State :=
  { s with errCode := code, errInfo := info, busy := false, done := true, pending := none }

/-- Successful completion: `complete()` (40_control.md R102). -/
def State.complete (s : State) : State := s.completeWith .ok 0

/-- Taking an error, HUFF's counterpart of taking an exception (60_exceptions.md R206): the kind goes to `ERRCODE`, the
detail to `ERRINFO`, the fact of completion to `DONE`, and the engine goes idle. Nothing else is saved and control goes
nowhere. There is no return from it (R207): the host acknowledges with a write to `STATUS`, or issues a command. -/
def State.raiseError (s : State) (code : ErrCode) (info : Word) : State := s.completeWith code info

/-- The end of a command (40_control.md R101, R102): success completes the state the pseudocode made; a raise completes
the state the command started in, so that a failure is atomic (60_exceptions.md R205). -/
def finish (s : State) (r : Cmd State) : Host.Outcome State Fault Refusal :=
  match r with
  | .ok t => .next t.complete
  | .error (.error code info) => .next (s.raiseError code info)
  | .error (.fault f) => .fault f

/-- Acceptance of a command word (40_control.md R100). -/
def State.accept (s : State) (w : Word) : State :=
  { s with pending := some { word := w, arg := s.arg0 }, busy := true, done := false }

/-- A dropped command word (40_control.md R103). -/
def State.markOverrun (s : State) : State := { s with overrun := true }

/-- A host write of w to `CMD` (10_state.md R31): acceptance where `BUSY = 0`, otherwise an overrun. -/
def State.issue (s : State) (w : Word) : State := if s.busy then s.markOverrun else s.accept w

/-- The registers CLEAR zeroes (40_control.md R111). DESIGN CHOICE: the memories keep the contents that 20_memory.md R67
does not erase and 93_implementation_defined.md U3 leaves open (log 23). -/
def State.clearSession (s : State) : State :=
  { s with
    ftCount := 0, ftTotal := 0, treeValid := false, root := 0, nodeCount := 0, binLen := 0, soutLen := 0, decTrail := 0 }

/-- The reset input (70_reset_and_hazards.md R230, R232): every register takes its reset value, a pending command is
abandoned, `DONE` is not set. The memories' contents are unspecified and unobservable (R231): they stay (log 12). The
host is not HUFF's and goes on. -/
def State.hardReset (s : State) : State :=
  { State.resetWith s.cfg with
    ft := s.ft, node := s.node, bin := s.bin, sout := s.sout
    host := s.host, schedule := s.schedule, draws := s.draws }

/-- Whose turn is next: the schedule says it; past its end the engine moves while it has a step, else the host
(40_control.md R101, R106; log 10). -/
def State.nextTurn (s : State) : Turn :=
  match s.schedule with
  | t :: _ => t
  | [] => if s.pending.isSome then .engine else .host

/-- The state with the turn taken off the schedule. -/
def State.takeTurn (s : State) : State := { s with schedule := s.schedule.tail }

/-- The state in which a command word has been accepted and the next turn is the engine's: where the next step performs
it (40_control.md R100, R101; log 11). -/
def State.placeCommand (s : State) (w : Word) : State :=
  { s.accept w with schedule := .engine :: s.schedule }

end Sys2Proof.Machine
end

