-- ==== Sys2Proof/Machine/Builder.lean ====
section
/-! DEFINITION. The tree builder, BUILD and NODE_READ (42_builder.md R140–R152). The merge engine works on the arena as
a list of nodes, a local of the step (10_state.md R45); the step writes it to `NODE` at its end. -/

namespace Sys2Proof.Machine

/-- The leaf of a table entry (42_builder.md R141). -/
def leafOf (e : FtEntry) : Node := { freq := e.freq, isLeaf := true, sym := e.sym, left := NIL, right := NIL }

/-- Node n of the arena. -/
def arenaAt (arena : List Node) (n : Nat) : Node := arena.getD n Node.blank

/-- The priority key of a node (42_builder.md R143): its frequency, 1 for a leaf and 0 for an internal node, its index. -/
def keyOf (arena : List Node) (n : Nat) : Nat × Nat × Nat :=
  ((arenaAt arena n).freq.toNat, (if (arenaAt arena n).isLeaf then 1 else 0), n)

/-- Keys compare lexicographically (42_builder.md R143). -/
def keyLt (a b : Nat × Nat × Nat) : Bool :=
  decide (a.1 < b.1) || (a.1 == b.1 && (decide (a.2.1 < b.2.1) || (a.2.1 == b.2.1 && decide (a.2.2 < b.2.2))))

/-- `argmin_key(Q)`, the element of Q with the least key (42_builder.md R143); none where Q is empty. -/
def argminKey (arena : List Node) : List Nat → Option Nat
  | [] => none
  | n :: q =>
    match argminKey arena q with
    | none => some n
    | some m => if keyLt (keyOf arena m) (keyOf arena n) then some m else some n

/-- `e <- argmin_key(Q); Q <- Q \ {e}` (42_builder.md R144). -/
def extractMin (arena : List Node) (q : List Nat) : Option (Nat × List Nat) :=
  match argminKey arena q with
  | none => none
  | some e => some (e, q.erase e)

/-- The parent of two extracted nodes: the frequencies' sum, no symbol, the second extracted on the left and the first
extracted on the right (42_builder.md R144, R146). -/
def mergeNode (arena : List Node) (e1 e2 : Nat) : Node :=
  { freq := BitVec.ofNat 32 ((arenaAt arena e1).freq.toNat + (arenaAt arena e2).freq.toNat)
    isLeaf := false, sym := 0x0000
    left := BitVec.ofNat 16 e2, right := BitVec.ofNat 16 e1 }

/-- One merge: extract two, append their parent to the arena and to Q (42_builder.md R145). None where Q holds fewer
than two nodes. -/
def mergeStep (arena : List Node) (q : List Nat) : Option (List Node × List Nat) :=
  match extractMin arena q with
  | none => none
  | some (e1, q1) =>
    match extractMin arena q1 with
    | none => none
    | some (e2, q2) => some (arena ++ [mergeNode arena e1 e2], q2 ++ [arena.length])

/-- A number of merges (42_builder.md R144, the loop over k; R145). -/
def mergeLoop : Nat → List Node → List Nat → List Node
  | 0, arena, _ => arena
  | k + 1, arena, q =>
    match mergeStep arena q with
    | none => arena
    | some (arena', q') => mergeLoop k arena' q'

/-- The nodes BUILD writes, a function of the table's entries alone (42_builder.md R144, R163): the N leaves, then the
N − 1 merges. -/
def buildArena (entries : List FtEntry) : List Node :=
  mergeLoop (entries.length - 1) (entries.map leafOf) (List.range entries.length)

/-- The pseudocode of BUILD (42_builder.md R144). DESIGN CHOICE: nodes at or above the new `NODE_COUNT`, which
93_implementation_defined.md U3 leaves open, stay (log 23). -/
def buildBody (s : State) : Cmd State :=
  if s.ftCount.toNat = 0 then Cmd.raise .emptyAlphabet 0
  else do
    let entries ← readFtEntries s
    let t ← writeNodes s (buildArena entries)
    return { t with
      root := BitVec.ofNat 32 (2 * s.ftCount.toNat - 2)
      nodeCount := BitVec.ofNat 32 (2 * s.ftCount.toNat - 1)
      treeValid := true }

/-- BUILD (42_builder.md R144). -/
def execBuild (s : State) : Host.Outcome State Fault Refusal := finish s (buildBody s)

/-- The pseudocode of NODE_READ (42_builder.md R152). -/
def nodeReadBody (idx : Word) (s : State) : Cmd State :=
  if s.treeValid = false then Cmd.raise .noTree 0
  else if s.nodeCount.toNat ≤ idx.toNat then Cmd.raise .badIndex idx
  else do
    let n ← readNode s idx.toNat
    return { s with res0 := n.freq, res1 := n.kindWord, res2 := n.childrenWord }

/-- NODE_READ idx (42_builder.md R152). -/
def execNodeRead (idx : Half) (s : State) : Host.Outcome State Fault Refusal :=
  finish s (nodeReadBody (idxOperand idx) s)

end Sys2Proof.Machine
end

