-- ==== Sys2Proof/Machine/Control.lean ====
section
/-! DEFINITION. The housekeeping commands NOP and CLEAR (40_control.md R110, R111). -/

namespace Sys2Proof.Machine

/-- NOP (40_control.md R110): `complete()`. -/
def execNop (s : State) : Host.Outcome State Fault Refusal := finish s (.ok s)

/-- CLEAR (40_control.md R111): the eight session registers become 0, then `complete()`. -/
def execClear (s : State) : Host.Outcome State Fault Refusal := finish s (.ok s.clearSession)

end Sys2Proof.Machine
end

