-- ==== Sys2Proof/Machine/Decoder.lean ====
section
/-! DEFINITION. The decoder, DEC_CLEAR, DEC_PUSH, DECODE and DEC_READ (43_decoder.md R170–R181). -/

namespace Sys2Proof.Machine

/-- The decoder's registers at 0: what DEC_CLEAR does (43_decoder.md R171). DESIGN CHOICE: `BIN` and `SOUT` keep the
contents that 20_memory.md R67 does not erase and 93_implementation_defined.md U3 leaves open (log 23). -/
def State.clearDecoder (s : State) : State := { s with binLen := 0, soutLen := 0, decTrail := 0 }

/-- DEC_CLEAR (43_decoder.md R171). -/
def execDecClear (s : State) : Host.Outcome State Fault Refusal := finish s (.ok s.clearDecoder)

/-- The pseudocode of DEC_PUSH (43_decoder.md R172). -/
def decPushBody (ch : Half) (s : State) : Cmd State :=
  if s.binLen.toNat = s.cfg.lMax then Cmd.raise .bufferFull (zextHalf ch)
  else do
    let t ← writeBin s s.binLen.toNat ch
    return { t with binLen := t.binLen + 1 }

/-- DEC_PUSH ch (43_decoder.md R172). -/
def execDecPush (ch : Half) (s : State) : Host.Outcome State Fault Refusal := finish s (decPushBody ch s)

/-- The validation pass of DECODE over the characters from index j on: the bits, or the index of the first malformed
character (43_decoder.md R173, R174). -/
def validateFrom : Nat → List Half → Cmd (List Bool)
  | _, [] => .ok []
  | j, c :: cs =>
    match bitval c with
    | none => Cmd.raise .malformedBitstring (BitVec.ofNat 32 j)
    | some b => do
      let bs ← validateFrom (j + 1) cs
      return b :: bs

/-- The walk's locals between two bits (43_decoder.md R174): the walk pointer, the symbols emitted so far, and how many
characters had been consumed when the last one was emitted. -/
structure Walk where
  cur  : Nat
  out  : List Half
  last : Nat
  deriving DecidableEq, Repr

/-- One bit of the walk pass, bit j (43_decoder.md R174, R175, R180): in the one-leaf tree a '0' emits and a '1' has no
child; otherwise the pointer moves to a child and, where that is a leaf, its symbol is emitted and the pointer returns
to the root. -/
def walkBit (s : State) (j : Nat) (b : Bool) (w : Walk) : Cmd Walk := do
  let here ← readNode s w.cur
  if here.isLeaf then
    if b then Cmd.raise .undecodableSequence (BitVec.ofNat 32 j)
    else return { w with out := w.out ++ [here.sym], last := j + 1 }
  else
    let nxt := if b then here.right else here.left
    if nxt = NIL then Cmd.raise .undecodableSequence (BitVec.ofNat 32 j)
    else
      let there ← readNode s nxt.toNat
      if there.isLeaf then
        return { cur := s.root.toNat, out := w.out ++ [there.sym], last := j + 1 }
      else return { w with cur := nxt.toNat }

/-- The walk pass over the bits from index j on (43_decoder.md R174). -/
def walkFrom (s : State) : Nat → List Bool → Walk → Cmd Walk
  | _, [], w => .ok w
  | j, b :: bs, w => do
    let w' ← walkBit s j b w
    walkFrom s (j + 1) bs w'

/-- The walk's start: at the root, nothing emitted (43_decoder.md R174). -/
def State.walkStart (s : State) : Walk := { cur := s.root.toNat, out := [], last := 0 }

/-- The pseudocode of DECODE (43_decoder.md R174). DESIGN CHOICE: where it succeeds, the entries of `SOUT` at or above the
new `SOUT_LEN`, which 20_memory.md R65 calls unspecified, stay (log 24). -/
def decodeBody (s : State) : Cmd State :=
  if s.treeValid = false then Cmd.raise .noTree 0
  else do
    let chars ← readBinChars s
    let bits ← validateFrom 0 chars
    let w ← walkFrom s 0 bits s.walkStart
    if 0 < bits.length ∧ w.out.length = 0 then Cmd.raise .undecodableSequence (BitVec.ofNat 32 bits.length)
    else
      let t ← writeSout s w.out
      return { t with
        soutLen := BitVec.ofNat 32 w.out.length
        decTrail := BitVec.ofNat 32 (bits.length - w.last) }

/-- What a failed DECODE leaves: no text (43_decoder.md R177). The contents of `SOUT` are unspecified and unreachable
there; they stay (log 14). -/
def State.withoutText (s : State) : State := { s with soutLen := 0, decTrail := 0 }

/-- DECODE (43_decoder.md R174): on any error `SOUT_LEN` and `DEC_TRAIL` become 0 (R177). -/
def execDecode (s : State) : Host.Outcome State Fault Refusal := finish s.withoutText (decodeBody s)

/-- The pseudocode of DEC_READ (43_decoder.md R178). -/
def decReadBody (idx : Word) (s : State) : Cmd State :=
  if s.soutLen.toNat ≤ idx.toNat then Cmd.raise .badIndex idx
  else do
    let sym ← readSout s idx.toNat
    return { s with res0 := zextHalf sym }

/-- DEC_READ idx (43_decoder.md R178). -/
def execDecRead (idx : Half) (s : State) : Host.Outcome State Fault Refusal :=
  finish s (decReadBody (idxOperand idx) s)

end Sys2Proof.Machine
end

