-- ==== Sys2Proof/Machine/FreqTable.lean ====
section
/-! DEFINITION. The frequency-table port, FREQ_ADD and FREQ_READ (41_freq_table.md R120–R125). -/

namespace Sys2Proof.Machine

/-- The index of the entry that holds a symbol; at most one does (41_freq_table.md R120, 10_state.md R46). -/
def findSym (entries : List FtEntry) (sym : Half) : Option Nat :=
  entries.findIdx? (fun e => e.sym == sym)

/-- The three checks of FREQ_ADD, in the order of 60_exceptions.md R203, and then the index of the symbol's entry, where
it has one (41_freq_table.md R120). The sum is taken on naturals (R122). -/
def freqAddChecks (sym : Half) (inc : Word) (s : State) : Cmd (Option Nat) :=
  if s.treeValid then Cmd.raise .tableLocked 0
  else do
    let entries ← readFtEntries s
    if findSym entries sym = none ∧ s.ftCount.toNat = s.cfg.nMax then Cmd.raise .tableFull (zextHalf sym)
    else if maxFreq < s.ftTotal.toNat + inc.toNat then Cmd.raise .freqOverflow (zextHalf sym)
    else return findSym entries sym

/-- The table with an increment added: to the symbol's entry where there is one, otherwise to a new entry at FT_COUNT
(41_freq_table.md R120). -/
def freqAddEntry (sym : Half) (inc : Word) (found : Option Nat) (s : State) : Cmd State :=
  match found with
  | some i => do
    let e ← readFt s i
    writeFt s i { e with freq := e.freq + inc }
  | none => do
    let t ← writeFt s s.ftCount.toNat { sym := sym, freq := inc }
    return { t with ftCount := t.ftCount + 1 }

/-- The pseudocode of FREQ_ADD (41_freq_table.md R120). -/
def freqAddBody (sym : Half) (inc : Word) (s : State) : Cmd State := do
  let found ← freqAddChecks sym inc s
  let t ← freqAddEntry sym inc found s
  return { t with ftTotal := t.ftTotal + inc }

/-- FREQ_ADD sym (41_freq_table.md R120), with `inc = PENDING.arg` (30_encoding.md R84). -/
def execFreqAdd (sym : Half) (s : State) : Host.Outcome State Fault Refusal :=
  finish s (freqAddBody sym s.incOperand s)

/-- The pseudocode of FREQ_READ (41_freq_table.md R125). -/
def freqReadBody (idx : Word) (s : State) : Cmd State :=
  if s.ftCount.toNat ≤ idx.toNat then Cmd.raise .badIndex idx
  else do
    let e ← readFt s idx.toNat
    return { s with res0 := zextHalf e.sym, res1 := e.freq }

/-- FREQ_READ idx (41_freq_table.md R125). -/
def execFreqRead (idx : Half) (s : State) : Host.Outcome State Fault Refusal :=
  finish s (freqReadBody (idxOperand idx) s)

end Sys2Proof.Machine
end

