-- ==== Sys2Proof/Machine/Dispatch.lean ====
section
/-! DEFINITION. Which meaning each command has: the engine's "perform c" (40_control.md R101). -/

namespace Sys2Proof.Machine

def exec (i : Instr) (s : State) : Host.Outcome State Fault Refusal :=
  match i with
  | .nop => Sys2Proof.Machine.execNop s
  | .clear => Sys2Proof.Machine.execClear s
  | .freqAdd sym => Sys2Proof.Machine.execFreqAdd sym s
  | .freqRead idx => Sys2Proof.Machine.execFreqRead idx s
  | .build => Sys2Proof.Machine.execBuild s
  | .nodeRead idx => Sys2Proof.Machine.execNodeRead idx s
  | .decClear => Sys2Proof.Machine.execDecClear s
  | .decPush ch => Sys2Proof.Machine.execDecPush ch s
  | .decode => Sys2Proof.Machine.execDecode s
  | .decRead idx => Sys2Proof.Machine.execDecRead idx s

end Sys2Proof.Machine
end

