-- ==== Sys2Proof/Machine/Engine.lean ====
section
/-! DEFINITION. The engine's step (40_control.md R101). -/

namespace Sys2Proof.Machine

/-- Perform a command word: decode it, then raise ILLEGAL_CMD with the word as detail, or perform the command
(40_control.md R101, 30_encoding.md R86). -/
def performWord (w : Word) (s : State) : Host.Outcome State Fault Refusal :=
  match decodeCmd w with
  | .illegal _ => .next (s.raiseError .illegalCmd w)
  | .command i => exec i s

/-- The engine's step. "The engine has a step exactly when `PENDING ≠ none`" (40_control.md R101): without one its turn
changes nothing (log 18). -/
def engineStep (s : State) : Host.Outcome State Fault Refusal :=
  match s.pending with
  | none => .next s
  | some p => performWord p.word s

end Sys2Proof.Machine
end

