-- ==== Sys2Proof/Machine/Window.lean ====
section
/-! DEFINITION. The register window (10_state.md R21, 20_memory.md R60–R61, R68–R70, R73): its registers, a host read, a
host write, and the byte lanes of a word. -/

namespace Sys2Proof.Machine

/-- The registers of the window (10_state.md R21). -/
inductive Reg where
  | id | paramN | paramL | paramS | ctrl | status | arg0 | cmd | res0 | res1 | res2 | errInfo | ftCount | ftTotal | root
  | nodeCount | binLen | soutLen | decTrail
  deriving DecidableEq, Repr

/-- Every register, in the order of the map (10_state.md R21). -/
def Reg.all : List Reg :=
  [.id, .paramN, .paramL, .paramS, .ctrl, .status, .arg0, .cmd, .res0, .res1, .res2, .errInfo, .ftCount, .ftTotal, .root,
   .nodeCount, .binLen, .soutLen, .decTrail]

/-- A register's byte offset in the window (10_state.md R21). -/
def Reg.offset : Reg → Nat
  | .id => 0x00
  | .paramN => 0x04
  | .paramL => 0x08
  | .paramS => 0x0C
  | .ctrl => 0x10
  | .status => 0x14
  | .arg0 => 0x18
  | .cmd => 0x1C
  | .res0 => 0x20
  | .res1 => 0x24
  | .res2 => 0x28
  | .errInfo => 0x2C
  | .ftCount => 0x30
  | .ftTotal => 0x34
  | .root => 0x38
  | .nodeCount => 0x3C
  | .binLen => 0x40
  | .soutLen => 0x44
  | .decTrail => 0x48

/-- The register at an offset; none where the offset is unmapped (20_memory.md R61). -/
def Reg.at? (offset : Nat) : Option Reg := Reg.all.find? (fun r => r.offset == offset)

/-- What a register holds (10_state.md R22–R42). `CMD` stores nothing and reads 0 (R31). -/
def State.regValue (s : State) : Reg → Word
  | .id => Config.idWord
  | .paramN => s.cfg.paramNWord
  | .paramL => s.cfg.paramLWord
  | .paramS => Config.paramSWord
  | .ctrl => s.ctrlWord
  | .status => s.statusWord
  | .arg0 => s.arg0
  | .cmd => 0
  | .res0 => s.res0
  | .res1 => s.res1
  | .res2 => s.res2
  | .errInfo => s.errInfo
  | .ftCount => s.ftCount
  | .ftTotal => s.ftTotal
  | .root => s.root
  | .nodeCount => s.nodeCount
  | .binLen => s.binLen
  | .soutLen => s.soutLen
  | .decTrail => s.decTrail

/-- The registers whose reads are unspecified while `BUSY = 1` (20_memory.md R73). -/
def Reg.volatile : Reg → Bool
  | .res0 | .res1 | .res2 | .errInfo | .ftCount | .ftTotal | .root | .nodeCount | .binLen | .soutLen | .decTrail => true
  | .id | .paramN | .paramL | .paramS | .ctrl | .status | .arg0 | .cmd => false

/-- Whether a host read at an offset is a free draw: a volatile register while `BUSY = 1` (20_memory.md R73). -/
def State.readIsDraw (s : State) (offset : Nat) : Bool :=
  match Reg.at? offset with
  | some r => s.busy && r.volatile
  | none => false

/-- The word a host read at an offset returns (40_control.md R104): the register's value, 0 at an unmapped offset
(20_memory.md R61), and a free draw where the value is unspecified (R73). -/
def State.readWord (s : State) (offset : Nat) : Word :=
  if s.readIsDraw offset then Config.busyRead s.draws
  else
    match Reg.at? offset with
    | some r => s.regValue r
    | none => 0

/-- The draws counted, so that the next draw is a fresh one (93_implementation_defined.md U1). A read changes nothing of
HUFF's (20_memory.md R69, 40_control.md R104). -/
def State.countDraw (s : State) (offset : Nat) : State :=
  if s.readIsDraw offset then { s with draws := s.draws + 1 } else s

/-- A host write of v at an offset (40_control.md R104): `CTRL`, `STATUS`, `ARG0` and `CMD` act, every other register and
every unmapped offset ignores it (10_state.md R21, 20_memory.md R61). -/
def State.writeWord (s : State) (offset : Nat) (v : Word) : State :=
  match Reg.at? offset with
  | some .ctrl => s.writeCtrl v
  | some .status => s.writeStatus v
  | some .arg0 => { s with arg0 := v }
  | some .cmd => s.issue v
  | some .id | some .paramN | some .paramL | some .paramS => s
  | some .res0 | some .res1 | some .res2 | some .errInfo => s
  | some .ftCount | some .ftTotal | some .root | some .nodeCount => s
  | some .binLen | some .soutLen | some .decTrail => s
  | none => s

/-- Why a model refuses an access, in this order: narrower than a word, not word-aligned, outside the window
(20_memory.md R60, R61; 93_implementation_defined.md F1); none where the access is one HUFF has. -/
def accessRefusal (size : AccessSize) (offset : Nat) : Option Refusal :=
  if size ≠ .word then some (.subWordAccess offset)
  else if offset % 4 ≠ 0 then some (.misalignedAccess offset)
  else if 256 ≤ offset then some (.outsideWindow offset)
  else none

/-- Byte lane k of a word, 0 to 3: bits 8k+7 to 8k (20_memory.md R68, little-endian lane order). -/
def byteLane (w : Word) (k : Nat) : Byte := w.extractLsb' (8 * k) 8

/-- The byte address of lane k of the word at an offset (20_memory.md R68). -/
def laneAddress (offset k : Nat) : Nat := Config.huffBase + offset + k

/-- The word whose four lanes are given, lane 0 first (20_memory.md R68). -/
def wordOfLanes (b0 b1 b2 b3 : Byte) : Word := b3 ++ b2 ++ b1 ++ b0

end Sys2Proof.Machine
end

