-- ==== Sys2Proof/Machine/HostAgent.lean ====
section
/-! DEFINITION. The host's step (00_scope.md R15, 40_control.md R104, 30_encoding.md R90): one statement of its program,
so at most one access of the window. -/

namespace Sys2Proof.Machine

/-- A host variable's value (30_encoding.md R90). -/
def HostVars.get (v : HostVars) : HVar → Word
  | .h0 => v.h0
  | .h1 => v.h1
  | .h2 => v.h2
  | .h3 => v.h3
  | .h4 => v.h4
  | .h5 => v.h5
  | .h6 => v.h6
  | .h7 => v.h7

/-- A host variable written (30_encoding.md R90). -/
def HostVars.set (v : HostVars) (h : HVar) (x : Word) : HostVars :=
  match h with
  | .h0 => { v with h0 := x }
  | .h1 => { v with h1 := x }
  | .h2 => { v with h2 := x }
  | .h3 => { v with h3 := x }
  | .h4 => { v with h4 := x }
  | .h5 => { v with h5 := x }
  | .h6 => { v with h6 := x }
  | .h7 => { v with h7 := x }

/-- The host's next statement; none past the program's end. -/
def HostAgent.current (h : HostAgent) : Option HostStmt := h.program[h.place]?

/-- Whether the host's program has ended: at `halt`, or past its end (00_scope.md R17). -/
def HostAgent.ended (h : HostAgent) : Bool :=
  match h.current with
  | none => true
  | some .halt => true
  | some _ => false

/-- The host past its current statement. -/
def HostAgent.advance (h : HostAgent) : HostAgent := { h with place := h.place + 1 }

/-- The place of a label in the host's program; none where the program does not hold it. -/
def HostAgent.labelPlace (h : HostAgent) (name : Nat) : Option Nat :=
  h.program.findIdx? (fun st => st == .label name)

/-- The state with another host. -/
def State.withHost (s : State) (h : HostAgent) : State := { s with host := h }

/-- A host write statement: one write access, or its refusal. -/
def hostWrite (size : AccessSize) (offset : Nat) (v : Word) (s : State) : Host.Outcome State Fault Refusal :=
  match accessRefusal size offset with
  | some r => .refused r
  | none => .next ((s.writeWord offset v).withHost s.host.advance)

/-- A host read statement: one read access into a variable, or its refusal. -/
def hostRead (size : AccessSize) (dst : HVar) (offset : Nat) (s : State) : Host.Outcome State Fault Refusal :=
  match accessRefusal size offset with
  | some r => .refused r
  | none =>
    .next ((s.countDraw offset).withHost
      { s.host.advance with vars := s.host.vars.set dst (s.readWord offset) })

/-- A host jump, taken or not (30_encoding.md R90). -/
def hostBranch (taken : Bool) (target : Nat) (s : State) : Host.Outcome State Fault Refusal :=
  if taken then
    match s.host.labelPlace target with
    | none => .refused (.undefinedLabel target)
    | some place => .next (s.withHost { s.host with place := place })
  else .next (s.withHost s.host.advance)

/-- The host's step: its current statement (30_encoding.md R90). A host whose program has ended changes nothing (log
18). -/
def hostStep (s : State) : Host.Outcome State Fault Refusal :=
  match s.host.current with
  | none => .next s
  | some (.wr size offset v) => hostWrite size offset v s
  | some (.rd size dst offset) => hostRead size dst offset s
  | some (.andi dst src imm) =>
    .next (s.withHost { s.host.advance with vars := s.host.vars.set dst (s.host.vars.get src &&& imm) })
  | some (.bnez src target) => hostBranch (s.host.vars.get src != 0) target s
  | some (.beqz src target) => hostBranch (s.host.vars.get src == 0) target s
  | some (.label _) => .next (s.withHost s.host.advance)
  | some .halt => .next s

end Sys2Proof.Machine
end

