-- ==== Sys2Proof/Machine/Step.lean ====
section
/-! DEFINITION. One step of the machine: the turn the state says is next (00_scope.md R15, 40_control.md R101, R104). -/

namespace Sys2Proof.Machine

/-- One step: the next turn is taken off the schedule, then the host, the engine or the reset input acts. -/
def step (s : State) : Host.Outcome State Fault Refusal :=
  match s.nextTurn with
  | .host => hostStep s.takeTurn
  | .engine => engineStep s.takeTurn
  | .reset => .next s.takeTurn.hardReset

/-- The state whose very next step performs the command word with bits `w` (bits above `nbits` zero): the word has been
accepted (40_control.md R100) and the turn is the engine's (log 11). -/
def State.withFetchWord (s : State) (nbits w : Nat) : State :=
  s.placeCommand (BitVec.ofNat 32 (w % 2 ^ nbits))

end Sys2Proof.Machine
end

