-- ==== Sys2Proof/Machine/HostProgram.lean ====
section
/-! DEFINITION. The host's notation for programs (30_encoding.md R89–R97): command lines and pseudo-commands, and what
they expand to. -/

namespace Sys2Proof.Machine

/-- One line of a host program (30_encoding.md R89–R97). -/
inductive HostLine where
  /-- A host statement (R90). -/
  | stmt (st : HostStmt)
  /-- `wr REG, v` on a register by its name (R90). -/
  | wr (r : Reg) (v : Word)
  /-- `rd hN, REG` on a register by its name (R90). -/
  | rd (dst : HVar) (r : Reg)
  /-- `C x`, a command line (R89). -/
  | command (i : Instr)
  /-- `WAIT` (R91). -/
  | wait
  /-- `DO C x` (R92). -/
  | doCommand (i : Instr)
  /-- `ADD sym, inc` (R93). -/
  | add (sym : Half) (inc : Word)
  /-- `ERRCHK hN` (R94). -/
  | errchk (dst : HVar)
  /-- `COUNT "s"` (R95). -/
  | count (text : List Half)
  /-- `PUSHBITS "s"` (R96). -/
  | pushbits (text : List Half)
  /-- `ACK` (R97). -/
  | ack
  deriving DecidableEq, Repr

/-- `wr REG, v` (30_encoding.md R90). -/
def wrStmt (r : Reg) (v : Word) : HostStmt := .wr .word r.offset v

/-- `rd hN, REG` (30_encoding.md R90). -/
def rdStmt (dst : HVar) (r : Reg) : HostStmt := .rd .word dst r.offset

/-- `C x` stands for the single host write `wr CMD, encode_cmd(C x)` (30_encoding.md R89). -/
def commandStmt (i : Instr) : HostStmt := wrStmt .cmd (encodeCmd i)

/-- `WAIT` with its fresh label (30_encoding.md R91). -/
def waitStmts (fresh : Nat) : List HostStmt :=
  [.label fresh, rdStmt .h7 .status, .andi .h7 .h7 0x1, .bnez .h7 fresh]

/-- `DO C x` (30_encoding.md R92). -/
def doStmts (fresh : Nat) (i : Instr) : List HostStmt := commandStmt i :: waitStmts fresh

/-- `DO` for a list of commands, each with a fresh label of its own. -/
def doAllStmts : Nat → List Instr → List HostStmt
  | _, [] => []
  | fresh, i :: is => doStmts fresh i ++ doAllStmts (fresh + 1) is

/-- How many fresh labels a line uses. -/
def HostLine.labelsUsed : HostLine → Nat
  | .stmt _ | .wr _ _ | .rd _ _ | .command _ | .errchk _ | .ack => 0
  | .wait | .doCommand _ | .add _ _ => 1
  | .count text | .pushbits text => text.length

/-- A line expanded, its fresh labels numbered from `fresh` on (30_encoding.md R89–R97). -/
def HostLine.expand (fresh : Nat) : HostLine → List HostStmt
  | .stmt st => [st]
  | .wr r v => [wrStmt r v]
  | .rd dst r => [rdStmt dst r]
  | .command i => [commandStmt i]
  | .wait => waitStmts fresh
  | .doCommand i => doStmts fresh i
  | .add sym inc => wrStmt .arg0 inc :: doStmts fresh (.freqAdd sym)
  | .errchk dst => [rdStmt dst .status, .andi dst dst 0xFF00]
  | .count text => wrStmt .arg0 1 :: doAllStmts fresh (text.map .freqAdd)
  | .pushbits text => doAllStmts fresh (text.map .decPush)
  | .ack => [wrStmt .status 0x0000000A]

/-- The lines of a program expanded in order, fresh labels numbered from `fresh` on. -/
def expandLines : Nat → List HostLine → List HostStmt
  | _, [] => []
  | fresh, l :: ls => l.expand fresh ++ expandLines (fresh + l.labelsUsed) ls

/-- The number of the label a line holds or names, one past it, so that a fresh label lies above it. -/
def HostLine.labelBound : HostLine → Nat
  | .stmt (.label name) | .stmt (.bnez _ name) | .stmt (.beqz _ name) => name + 1
  | _ => 0

/-- A host program's statements (30_encoding.md R89–R97): every pseudo-command's label is fresh. -/
def assemble (lines : List HostLine) : List HostStmt :=
  expandLines (lines.foldr (fun l b => max l.labelBound b) 0) lines

/-- The state with a host about to run a program from its first statement. -/
def State.withProgram (s : State) (program : List HostStmt) : State :=
  s.withHost { program := program, place := 0, vars := HostVars.zero }

end Sys2Proof.Machine
end

