-- ==== Sys2Proof/Machine/Reference.lean ====
section
/-! DEFINITION. Reference functions of the spec, not hardware (42_builder.md R155, R157–R161; 41_freq_table.md R124): the
code of a leaf, the encoding of a text, depths and the weighted path length. They state the laws of the tree and of the
decoder; no step uses them. A tree is its nodes as a list and its root's index; a bit is a Bool, false for '0'. -/

namespace Sys2Proof.Machine

/-- The child a bit leads to: left on '0', right on '1' (42_builder.md R146, R160). -/
def childOf (arena : List Node) (n : Nat) (b : Bool) : Nat :=
  if b then (arenaAt arena n).right.toNat else (arenaAt arena n).left.toNat

/-- The node a path leads to; none where it goes past a leaf (42_builder.md R160). -/
def follow (arena : List Node) : Nat → List Bool → Option Nat
  | n, [] => some n
  | n, b :: bs => if (arenaAt arena n).isLeaf then none else follow arena (childOf arena n b) bs

/-- The path from a node down to a target, found depth first with at most `fuel` nodes on it; none where there is no
such path. -/
def pathTo (arena : List Node) (target : Nat) : Nat → Nat → Option (List Bool)
  | 0, _ => none
  | fuel + 1, n =>
    if n = target then some []
    else if (arenaAt arena n).isLeaf then none
    else
      match pathTo arena target fuel (childOf arena n false) with
      | some path => some (false :: path)
      | none =>
        match pathTo arena target fuel (childOf arena n true) with
        | some path => some (true :: path)
        | none => none

/-- `code(ℓ)` (42_builder.md R160): "0" in the one-node tree, otherwise the path from the root to the leaf. -/
def codeOfLeaf (arena : List Node) (root leaf : Nat) : Option (List Bool) :=
  if arena.length = 1 then some [false] else pathTo arena leaf arena.length root

/-- The leaf that holds a symbol. -/
def leafOfSym (arena : List Node) (sym : Half) : Option Nat :=
  arena.findIdx? (fun n => n.isLeaf && n.sym == sym)

/-- `codeOf(s)`; none where no leaf holds s (42_builder.md R160). -/
def codeOfSym (arena : List Node) (root : Nat) (sym : Half) : Option (List Bool) :=
  match leafOfSym arena sym with
  | some leaf => codeOfLeaf arena root leaf
  | none => none

/-- `enc(S)`; none where some symbol is in no leaf (42_builder.md R161). -/
def encodeSyms (arena : List Node) (root : Nat) : List Half → Option (List Bool)
  | [] => some []
  | x :: xs =>
    match codeOfSym arena root x, encodeSyms arena root xs with
    | some c, some r => some (c ++ r)
    | _, _ => none

/-- The character of a bit (00_scope.md R12, 43_decoder.md R173). -/
def charOfBit (b : Bool) : Half := if b then 0x0031 else 0x0030

/-- `depth(i)`, the number of edges from the root to node i (42_builder.md R157). -/
def depthOf (arena : List Node) (root i : Nat) : Nat :=
  match pathTo arena i arena.length root with
  | some path => path.length
  | none => 0

/-- WPL, the sum of frequency times depth over the first n nodes, the leaves (42_builder.md R157). -/
def weightedPathLength (arena : List Node) (root n : Nat) : Nat :=
  ((List.range n).map (fun i => (arenaAt arena i).freq.toNat * depthOf arena root i)).sum

/-- The sum of the leaf frequencies in a node's subtree, at most `fuel` levels deep (42_builder.md R155). -/
def subtreeFreq (arena : List Node) : Nat → Nat → Nat
  | 0, _ => 0
  | fuel + 1, n =>
    if (arenaAt arena n).isLeaf then (arenaAt arena n).freq.toNat
    else subtreeFreq arena fuel (childOf arena n false) + subtreeFreq arena fuel (childOf arena n true)

/-- A strictly binary tree whose leaves carry frequencies: what BUILD's tree is compared with (42_builder.md R157). -/
inductive FreqTree where
  | leaf (freq : Nat)
  | node (left right : FreqTree)
  deriving DecidableEq, Repr

/-- The leaves' frequencies, left to right. -/
def FreqTree.leaves : FreqTree → List Nat
  | .leaf f => [f]
  | .node l r => l.leaves ++ r.leaves

/-- The weighted path length of a tree whose root lies at a depth: frequency times depth over all leaves (42_builder.md
R157). -/
def FreqTree.costAt (d : Nat) : FreqTree → Nat
  | .leaf f => f * d
  | .node l r => l.costAt (d + 1) + r.costAt (d + 1)

/-- The distinct symbols of a list in the order of their first appearance (41_freq_table.md R124). -/
def firstSeen (syms : List Half) : List Half :=
  syms.foldl (fun seen x => if x ∈ seen then seen else seen ++ [x]) []

/-- The sum of the increments a list of (symbol, increment) pairs gives a symbol (41_freq_table.md R124). -/
def countIn (pairs : List (Half × Word)) (sym : Half) : Nat :=
  ((pairs.filter (fun p => p.1 == sym)).map (fun p => p.2.toNat)).sum

end Sys2Proof.Machine
end

