-- ==== Sys2Proof/Safety.lean ====
section
/-! DEFINITION. What claims are stated in terms of: the invariants of 10_state.md R46, the canonical form of the
memories, the agreement of tree and table, what the host can see, and when a run is over (00_scope.md R17). -/

namespace Sys2Proof.Machine

/-- The ten invariants every reachable state satisfies (10_state.md R46). `FT_TOTAL ≤ 0xFFFFFFFF` is the width of the
register. -/
structure State.SpecInv (s : State) : Prop where
  /-- R46.1 -/
  ftCount_le : s.ftCount.toNat ≤ s.cfg.nMax
  /-- R46.2 -/
  binLen_le : s.binLen.toNat ≤ s.cfg.lMax
  /-- R46.3 -/
  ftTotal_eq : s.ftTotal.toNat = (s.ftEntries.map (fun e => e.freq.toNat)).sum
  /-- R46.4 -/
  syms_distinct : (s.ftEntries.map (fun e => e.sym)).Nodup
  /-- R46.5 -/
  tree_counts : s.treeValid = true →
    1 ≤ s.ftCount.toNat ∧ s.nodeCount.toNat = 2 * s.ftCount.toNat - 1 ∧ s.root.toNat = 2 * s.ftCount.toNat - 2
  /-- R46.6 -/
  no_tree_counts : s.treeValid = false → s.nodeCount = 0 ∧ s.root = 0
  /-- R46.7 -/
  soutLen_le : s.soutLen.toNat ≤ s.cfg.lMax
  /-- R46.8 -/
  busy_iff : s.busy = true ↔ s.pending ≠ none
  /-- R46.9 -/
  trail_le : s.soutLen.toNat + s.decTrail.toNat ≤ s.binLen.toNat
  /-- R46.10 -/
  text_needs_tree : 0 < s.soutLen.toNat → s.treeValid = true

/-- The four memories are in the canonical form and list no index past their last entry (20_memory.md R62–R65). -/
structure State.MemoriesWf (s : State) : Prop where
  ft_wf : Memory.wf FtEntry.blank s.ft = true
  node_wf : Memory.wf Node.blank s.node = true
  bin_wf : Memory.wf blankHalf s.bin = true
  sout_wf : Memory.wf blankHalf s.sout = true
  ft_within : Memory.within s.cfg.nMax s.ft = true
  node_within : Memory.within s.cfg.nodeMax s.node = true
  bin_within : Memory.within s.cfg.lMax s.bin = true
  sout_within : Memory.within s.cfg.lMax s.sout = true

/-- While a tree exists it is the one BUILD makes of the table: the table is locked and nothing else writes a node
(41_freq_table.md R121, 42_builder.md R149, R150). -/
def State.TreeOfTable (s : State) : Prop := s.treeValid = true → s.nodes = buildArena s.ftEntries

/-- The codes no rule raises (60_exceptions.md R201) are not in `ERRCODE`. -/
def State.CodeRaised (s : State) : Prop := s.errCode ≠ .unknownSymbol ∧ s.errCode ≠ .emptyInput

/-- The invariant of the machine. -/
structure State.Inv (s : State) : Prop where
  spec : s.SpecInv
  memories : s.MemoriesWf
  tree : s.TreeOfTable
  code : s.CodeRaised

/-- Two states that differ at most in what the memories hold at or above the counts (20_memory.md R62–R65, R67): every
other field is the same, and the valid entries agree. -/
def State.SameVisible (s t : State) : Prop :=
  t = { s with ft := t.ft, node := t.node, bin := t.bin, sout := t.sout } ∧
  (∀ i, i < s.ftCount.toNat → t.ftAt i = s.ftAt i) ∧
  (∀ i, i < s.nodeCount.toNat → t.nodeAt i = s.nodeAt i) ∧
  (∀ j, j < s.binLen.toNat → t.binAt j = s.binAt j) ∧
  (∀ j, j < s.soutLen.toNat → t.soutAt j = s.soutAt j)

/-- Node m comes out of the priority collection before node n (42_builder.md R143): a smaller frequency, or the same
frequency and an internal node before a leaf, or the same frequency and kind and a smaller index. -/
def State.precedes (s : State) (m n : Nat) : Prop :=
  (s.nodeAt m).freq.toNat < (s.nodeAt n).freq.toNat ∨
  ((s.nodeAt m).freq = (s.nodeAt n).freq ∧
    (((s.nodeAt m).isLeaf = false ∧ (s.nodeAt n).isLeaf = true) ∨
      ((s.nodeAt m).isLeaf = (s.nodeAt n).isLeaf ∧ m < n)))

/-- A sequence of FREQ_ADD commands performed from a state, each with its increment latched: the pairs whose command
succeeded, and the state after the last (41_freq_table.md R124). -/
def runAdds : List (Half × Word) → State → List (Half × Word) × State
  | [], s => ([], s)
  | (sym, inc) :: rest, s =>
    match exec (.freqAdd sym) { s with pending := some { word := encodeCmd (.freqAdd sym), arg := inc } } with
    | .next t =>
      if t.errCode = .ok then ((sym, inc) :: (runAdds rest t).1, (runAdds rest t).2) else runAdds rest t
    | .fault _ => runAdds rest s
    | .refused _ => runAdds rest s

/-- The node that has a node among its two children (42_builder.md R153). -/
def Node.isParentOf (n : Node) (c : Nat) : Prop := n.isLeaf = false ∧ (n.left.toNat = c ∨ n.right.toNat = c)

/-- A command's completion fields (40_control.md R102). -/
def State.Completed (s : State) : Prop := s.busy = false ∧ s.done = true ∧ s.pending = none

/-- The end of a host program's run (00_scope.md R17): the program has ended and no command is pending. -/
def State.runOver (s : State) : Bool := s.host.ended && !s.busy

end Sys2Proof.Machine
end

