-- ==== Sys2Proof/Certificates/Slice0/Obligations.lean ====
section
/-! DEFINITION. The statements about HUFF, for the provers. Each cites the rule of spec/ it formalises. -/

open Sys2Proof Sys2Proof.Machine

/-! ### Encoding -/

/-- 30_encoding.md R88: the example words, both ways, and the illegal ones. -/
def Obligations.ExampleWordsDecode : Prop :=
  (∀ p ∈ [((0x00000000 : Word), Instr.nop), (0x01000000, .clear), (0x02000061, .freqAdd 0x0061),
      (0x03000002, .freqRead 2), (0x10000000, .build), (0x11000004, .nodeRead 4), (0x20000000, .decClear),
      (0x21000030, .decPush 0x0030), (0x21000031, .decPush 0x0031), (0x22000000, .decode), (0x23000005, .decRead 5)],
    decodeCmd p.1 = .command p.2 ∧ encodeCmd p.2 = p.1) ∧
  (∀ w ∈ [(0x00000001 : Word), 0x02010061, 0x7F000000, 0xFFFFFFFF], ∃ why, decodeCmd w = .illegal why)

/-- 30_encoding.md R85: a word decodes to a row's command, with the operand in bits 15:0, exactly when
`(w AND mask) = match` for that row; it is illegal exactly when it matches no row; no word matches two rows. -/
def Obligations.OpcodeMapIsDecodedRowByRow : Prop :=
  ∀ w : Word,
    (decodeCmd w = .command .nop ↔ w &&& 0xFFFFFFFF = 0x00000000) ∧
    (decodeCmd w = .command .clear ↔ w &&& 0xFFFFFFFF = 0x01000000) ∧
    (∀ x, decodeCmd w = .command (.freqAdd x) ↔ w &&& 0xFFFF0000 = 0x02000000 ∧ x = w.extractLsb' 0 16) ∧
    (∀ x, decodeCmd w = .command (.freqRead x) ↔ w &&& 0xFFFF0000 = 0x03000000 ∧ x = w.extractLsb' 0 16) ∧
    (decodeCmd w = .command .build ↔ w &&& 0xFFFFFFFF = 0x10000000) ∧
    (∀ x, decodeCmd w = .command (.nodeRead x) ↔ w &&& 0xFFFF0000 = 0x11000000 ∧ x = w.extractLsb' 0 16) ∧
    (decodeCmd w = .command .decClear ↔ w &&& 0xFFFFFFFF = 0x20000000) ∧
    (∀ x, decodeCmd w = .command (.decPush x) ↔ w &&& 0xFFFF0000 = 0x21000000 ∧ x = w.extractLsb' 0 16) ∧
    (decodeCmd w = .command .decode ↔ w &&& 0xFFFFFFFF = 0x22000000) ∧
    (∀ x, decodeCmd w = .command (.decRead x) ↔ w &&& 0xFFFF0000 = 0x23000000 ∧ x = w.extractLsb' 0 16) ∧
    ((∃ why, decodeCmd w = .illegal why) ↔ legalWord w = false) ∧
    (opcodeRows.filter (fun r => r.selects w)).length ≤ 1

/-- 30_encoding.md R87, its last sentence: decoding inverts encoding for every command, and encoding inverts decoding
for every legal word. -/
def Obligations.DecodeAndEncodeAreInverse : Prop :=
  (∀ i : Instr, i.wellFormed = true → decodeCmd (encodeCmd i) = .command i) ∧
  (∀ w : Word, legalWord w = true → ∃ i, decodeCmd w = .command i ∧ encodeCmd i = w)

/-- 30_encoding.md R86: which words are illegal, that an illegal word is accepted like any other, and how it completes.
That this holds of an illegal word with DECODE's opcode too, such as 0x22000001, is the model's reading of R86 against
43_decoder.md R174 (log 13). -/
def Obligations.IllegalWordIsAcceptedAndCompletes : Prop :=
  ∀ w : Word,
    ((∃ why, decodeCmd w = .illegal why) ↔
      (w.extractLsb' 24 8 ∉ [(0x00 : Byte), 0x01, 0x02, 0x03, 0x10, 0x11, 0x20, 0x21, 0x22, 0x23] ∨
        w.extractLsb' 16 8 ≠ 0x00 ∨
        (w.extractLsb' 24 8 ∈ [(0x00 : Byte), 0x01, 0x10, 0x20, 0x22] ∧ w.extractLsb' 0 16 ≠ 0x0000))) ∧
    ∀ s : State, (∃ why, decodeCmd w = .illegal why) →
      (s.busy = false →
        s.writeWord 0x1C w = { s with pending := some { word := w, arg := s.arg0 }, busy := true, done := false }) ∧
      performWord w s =
        .next { s with errCode := .illegalCmd, errInfo := w, busy := false, done := true, pending := none }

/-! ### The life cycle of a command -/

/-- 40_control.md R101: on its turn the engine decodes the pending word and performs the command, or raises ILLEGAL_CMD;
with nothing pending it has no step. The turn comes off the schedule, and a turn without a step is idle: the
model's own (log 10, log 18). -/
def Obligations.StepPerformsThePendingCommand : Prop :=
  ∀ s : State, s.nextTurn = .engine →
    (∀ p, s.pending = some p →
      (∀ i, decodeCmd p.word = .command i → step s = exec i { s with schedule := s.schedule.tail }) ∧
      (∀ why, decodeCmd p.word = .illegal why →
        step s = .next (State.raiseError { s with schedule := s.schedule.tail } .illegalCmd p.word))) ∧
    (s.pending = none → step s = .next { s with schedule := s.schedule.tail })

/-- 40_control.md R100: acceptance latches the word and ARG0, sets BUSY, clears DONE and changes nothing else, whatever
the word is. -/
def Obligations.AcceptanceLatchesWordAndArgument : Prop :=
  ∀ (s : State) (w : Word), s.busy = false →
    s.writeWord 0x1C w = { s with pending := some { word := w, arg := s.arg0 }, busy := true, done := false }

/-- 40_control.md R103: a CMD write while BUSY = 1 sets OVERRUN and changes nothing else, and OVERRUN stays 1 until a
host write to STATUS with bit 3 set, or reset. -/
def Obligations.BusyCommandWriteIsDropped : Prop :=
  (∀ (s : State) (w : Word), s.busy = true → s.writeWord 0x1C w = { s with overrun := true }) ∧
  (∀ s t : State, s.overrun = true → step s = .next t → t.overrun = false →
    s.nextTurn = .reset ∨
    (s.nextTurn = .host ∧ ∃ v : Word, s.host.current = some (.wr .word 0x14 v) ∧ v.getLsbD 3 = true))

/-- 40_control.md R102 and 60_exceptions.md R205: every word that completes clears BUSY, sets DONE and empties PENDING;
a success has detail 0; a failure changes nothing but the completion fields, and for DECODE the two text registers.
The model's own are two clauses of it: that SOUT stays after a failing DECODE, which 43_decoder.md R177 leaves
unspecified (log 14), and that an illegal word with DECODE's opcode keeps the text registers (log 13). -/
def Obligations.CompletionFieldsAndAtomicFailure : Prop :=
  ∀ (w : Word) (s t : State), performWord w s = .next t →
    t.busy = false ∧ t.done = true ∧ t.pending = none ∧
    (t.errCode = .ok → t.errInfo = 0) ∧
    (t.errCode ≠ .ok →
      t = if decodeCmd w = .command .decode then
          { s with errCode := t.errCode, errInfo := t.errInfo, busy := false, done := true, pending := none,
                   soutLen := 0, decTrail := 0 }
        else
          { s with errCode := t.errCode, errInfo := t.errInfo, busy := false, done := true, pending := none })

/-- 10_state.md R30 and 40_control.md R105: ARG0 is plain storage, 0 at reset; no command writes it; acceptance copies it;
FREQ_ADD alone uses the copy, as its increment; and rewriting ARG0 while a command is pending changes nothing of what that command does. -/
def Obligations.Arg0IsPlainStorage : Prop :=
  (∀ (s : State) (v : Word), s.writeWord 0x18 v = { s with arg0 := v } ∧ (s.writeWord 0x18 v).readWord 0x18 = v) ∧
  (∀ (i : Instr) (s t : State), exec i s = .next t → t.arg0 = s.arg0) ∧
  (∀ (s : State) (w : Word), s.busy = false → (s.writeWord 0x1C w).pending = some { word := w, arg := s.arg0 }) ∧
  (∀ (i : Instr) (s : State) (w a b : Word), (∀ sym, i ≠ .freqAdd sym) →
    exec i { s with pending := some { word := w, arg := a } } =
      exec i { s with pending := some { word := w, arg := b } }) ∧
  (∀ (s t : State) (sym : Half) (p : Pending), s.pending = some p → exec (.freqAdd sym) s = .next t → t.errCode = .ok →
    t.ftTotal = s.ftTotal + p.arg) ∧
  State.reset.arg0 = 0x00000000 ∧
  (∀ (w v : Word) (s t : State), performWord w s = .next t →
    performWord w (s.writeWord 0x18 v) = .next { t with arg0 := v })

/-- 60_exceptions.md R203: the code a command completes with is that of its first failing check, in the rule's order.
For DECODE the last check is named only as undecodable: `DecodeReadsWholeCodes` and `OneLeafTreeDecodesZeros` say when. -/
def Obligations.FirstFailingCheckIsReported : Prop :=
  ∀ (s t : State), s.Inv →
    (∀ w why, decodeCmd w = .illegal why → performWord w s = .next t → t.errCode = .illegalCmd ∧ t.errInfo = w) ∧
    (∀ i, i = .nop ∨ i = .clear ∨ i = .decClear → exec i s = .next t → t.errCode = .ok) ∧
    (∀ sym p, s.pending = some p → exec (.freqAdd sym) s = .next t →
      (t.errCode, t.errInfo) =
        if s.treeValid = true then (ErrCode.tableLocked, (0 : Word))
        else if (∀ e ∈ s.ftEntries, e.sym ≠ sym) ∧ s.ftCount.toNat = s.cfg.nMax then (.tableFull, sym.zeroExtend 32)
        else if 0xFFFFFFFF < s.ftTotal.toNat + p.arg.toNat then (.freqOverflow, sym.zeroExtend 32)
        else (.ok, 0)) ∧
    (∀ idx : Half, exec (.freqRead idx) s = .next t →
      (t.errCode, t.errInfo) =
        if s.ftCount.toNat ≤ idx.toNat then (ErrCode.badIndex, idx.zeroExtend 32) else (.ok, 0)) ∧
    (exec .build s = .next t → (t.errCode, t.errInfo) = if s.ftCount = 0 then (ErrCode.emptyAlphabet, 0) else (.ok, 0)) ∧
    (∀ idx : Half, exec (.nodeRead idx) s = .next t →
      (t.errCode, t.errInfo) =
        if s.treeValid = false then (ErrCode.noTree, (0 : Word))
        else if s.nodeCount.toNat ≤ idx.toNat then (.badIndex, idx.zeroExtend 32) else (.ok, 0)) ∧
    (∀ ch : Half, exec (.decPush ch) s = .next t →
      (t.errCode, t.errInfo) =
        if s.binLen.toNat = s.cfg.lMax then (ErrCode.bufferFull, ch.zeroExtend 32) else (.ok, 0)) ∧
    (exec .decode s = .next t →
      if s.treeValid = false then t.errCode = .noTree ∧ t.errInfo = 0
      else if ∃ j < s.binLen.toNat, bitval (s.binAt j) = none then
        t.errCode = .malformedBitstring ∧ t.errInfo.toNat < s.binLen.toNat ∧
          bitval (s.binAt t.errInfo.toNat) = none ∧ ∀ k < t.errInfo.toNat, bitval (s.binAt k) ≠ none
      else t.errCode = .ok ∨ t.errCode = .undecodableSequence) ∧
    (∀ idx : Half, exec (.decRead idx) s = .next t →
      (t.errCode, t.errInfo) =
        if s.soutLen.toNat ≤ idx.toNat then (ErrCode.badIndex, idx.zeroExtend 32) else (.ok, 0))

/-- 40_control.md R106: every accepted command completes. The engine's step, once enabled, completes the command; no
host step disables it; and from every state with a pending command, whatever turns of the two agents are scheduled,
some step within the schedule's length plus one completes it, where the host's program makes no refused access. -/
def Obligations.EveryAcceptedCommandCompletes : Prop :=
  (∀ s : State, s.Inv → s.pending ≠ none → ∃ t, engineStep s = .next t ∧ t.Completed) ∧
  (∀ (s t : State), s.Inv → s.pending ≠ none → hostStep s = .next t → t.pending = s.pending) ∧
  (∀ s : State, s.Inv → s.pending ≠ none → hostProgramWellFormed s.host.program = true →
    (∀ u ∈ s.schedule, u ≠ .reset) →
    ∃ k t, k ≤ s.schedule.length + 1 ∧ Sys2Proof.core.run k s = .next t ∧ t.Completed)

/-- 60_exceptions.md R207: ERRCODE and ERRINFO keep their values until the next command completes, or reset; DONE stays
1 until the host writes 1 to STATUS bit 1 or issues the next command, or reset. -/
def Obligations.ErrorReportLastsUntilTheNextCompletion : Prop :=
  (∀ s t : State, step s = .next t → t.errCode ≠ s.errCode ∨ t.errInfo ≠ s.errInfo →
    s.nextTurn = .reset ∨ (s.nextTurn = .engine ∧ s.pending ≠ none ∧ t.Completed)) ∧
  (∀ s t : State, s.done = true → step s = .next t → t.done = false →
    s.nextTurn = .reset ∨
    (s.nextTurn = .host ∧ ∃ v : Word,
      (s.host.current = some (.wr .word 0x14 v) ∧ v.getLsbD 1 = true) ∨
      (s.host.current = some (.wr .word 0x1C v) ∧ s.busy = false)))

/-- The model's own order of turns (log 10), and what a placed command word is (log 11): the schedule's head moves; past
the schedule's end the engine moves while a command is pending, else the host; and the step after a word is placed
performs that word, accepted as 40_control.md R100 says. -/
def Obligations.TurnsFollowTheSchedule : Prop :=
  (∀ (s : State) (u : Turn) (rest : List Turn), s.schedule = u :: rest → s.nextTurn = u) ∧
  (∀ s : State, s.schedule = [] → s.pending ≠ none → s.nextTurn = .engine) ∧
  (∀ s : State, s.schedule = [] → s.pending = none → s.nextTurn = .host) ∧
  (∀ s : State, s.nextTurn = .host → step s = hostStep { s with schedule := s.schedule.tail }) ∧
  (∀ (s : State) (w : Word), step (s.withFetchWord 32 w.toNat) = performWord w
    { s with pending := some { word := w, arg := s.arg0 }, busy := true, done := false })

/-! ### Housekeeping -/

/-- 40_control.md R110: NOP completes and changes nothing else; its word is 0x00000000, and the other words with opcode
and reserved bits 0 are illegal. -/
def Obligations.NopOnlyCompletes : Prop :=
  (∀ s : State, exec .nop s =
    .next { s with errCode := .ok, errInfo := 0, busy := false, done := true, pending := none }) ∧
  (∀ w : Word, decodeCmd w = .command .nop ↔ w = 0x00000000) ∧
  (∀ x : Half, decodeCmd ((0 : Half) ++ x) = if x = 0 then .command .nop else .illegal .operandOnFormatN)

/-- 40_control.md R111: CLEAR zeroes the eight session registers, completes, and changes nothing else; no other command
makes TREE_VALID 0. That the memories' contents stay, which 93_implementation_defined.md U3 leaves open, is the model's
choice (log 23). -/
def Obligations.ClearStartsANewSession : Prop :=
  (∀ s : State, exec .clear s =
    .next { s with ftCount := 0, ftTotal := 0, treeValid := false, root := 0, nodeCount := 0, binLen := 0,
                   soutLen := 0, decTrail := 0, errCode := .ok, errInfo := 0, busy := false, done := true,
                   pending := none }) ∧
  (∀ w : Word, decodeCmd w = .command .clear ↔ w = 0x01000000) ∧
  (∀ (i : Instr) (s t : State), i ≠ .clear → exec i s = .next t → s.treeValid = true → t.treeValid = true)

/-! ### The frequency table -/

/-- 41_freq_table.md R120, R123, in the rule's order of checks: what FREQ_ADD does in every case, with its frame. The sums
are of naturals and no stored value wraps. That the entries of FT at or above the new FT_COUNT stay, which 20_memory.md
R62 leaves unspecified, is the model's choice (log 24). -/
def Obligations.FreqAddAddsTheLatchedIncrement : Prop :=
  ∀ (s : State) (sym : Half) (p : Pending), s.Inv → s.pending = some p →
    (∀ w : Word, decodeCmd w = .command (.freqAdd sym) ↔ w = (0x0200 : Half) ++ sym) ∧
    (s.treeValid = true → exec (.freqAdd sym) s = .next (s.raiseError .tableLocked 0)) ∧
    (s.treeValid = false → (∀ i < s.ftCount.toNat, (s.ftAt i).sym ≠ sym) → s.ftCount.toNat = s.cfg.nMax →
      exec (.freqAdd sym) s = .next (s.raiseError .tableFull (sym.zeroExtend 32))) ∧
    (s.treeValid = false → ((∃ i < s.ftCount.toNat, (s.ftAt i).sym = sym) ∨ s.ftCount.toNat ≠ s.cfg.nMax) →
      0xFFFFFFFF < s.ftTotal.toNat + p.arg.toNat →
      exec (.freqAdd sym) s = .next (s.raiseError .freqOverflow (sym.zeroExtend 32))) ∧
    (s.treeValid = false → s.ftTotal.toNat + p.arg.toNat ≤ 0xFFFFFFFF →
      ∀ i < s.ftCount.toNat, (s.ftAt i).sym = sym →
      ∃ t, exec (.freqAdd sym) s = .next t ∧
        t = State.complete { s with ft := t.ft, ftTotal := t.ftTotal } ∧
        t.ftTotal.toNat = s.ftTotal.toNat + p.arg.toNat ∧
        (t.ftAt i).sym = sym ∧ (t.ftAt i).freq.toNat = (s.ftAt i).freq.toNat + p.arg.toNat ∧
        ∀ j, j ≠ i → t.ftAt j = s.ftAt j) ∧
    (s.treeValid = false → s.ftTotal.toNat + p.arg.toNat ≤ 0xFFFFFFFF →
      (∀ i < s.ftCount.toNat, (s.ftAt i).sym ≠ sym) → s.ftCount.toNat < s.cfg.nMax →
      ∃ t, exec (.freqAdd sym) s = .next t ∧
        t = State.complete { s with ft := t.ft, ftTotal := t.ftTotal, ftCount := t.ftCount } ∧
        t.ftTotal.toNat = s.ftTotal.toNat + p.arg.toNat ∧
        t.ftCount.toNat = s.ftCount.toNat + 1 ∧
        t.ftAt s.ftCount.toNat = { sym := sym, freq := p.arg } ∧
        ∀ j, j ≠ s.ftCount.toNat → t.ftAt j = s.ftAt j)

/-- 41_freq_table.md R121: a successful BUILD locks the table, nothing but CLEAR and reset unlocks it, a locked FREQ_ADD
fails, a BUILD of the empty table does not lock, and FREQ_READ does not look at the lock. -/
def Obligations.TableIsLockedWhileATreeExists : Prop :=
  (∀ s t : State, exec .build s = .next t → t.errCode = .ok → t.treeValid = true) ∧
  (∀ s t : State, s.treeValid = true → step s = .next t → t.treeValid = false →
    s.nextTurn = .reset ∨
    (s.nextTurn = .engine ∧ ∃ p, s.pending = some p ∧ decodeCmd p.word = .command .clear)) ∧
  (∀ (s : State) (sym : Half), s.treeValid = true → exec (.freqAdd sym) s =
    .next { s with errCode := .tableLocked, errInfo := 0, busy := false, done := true, pending := none }) ∧
  (∀ s : State, s.Inv → s.ftCount = 0 → ∃ t, exec .build s = .next t ∧ t.errCode = .emptyAlphabet ∧ t.treeValid = false) ∧
  (∀ (s t : State) (idx : Half) (b : Bool), exec (.freqRead idx) s = .next t →
    exec (.freqRead idx) { s with treeValid := b } = .next { t with treeValid := b })

/-- 41_freq_table.md R124: from an empty unlocked table, after any sequence of FREQ_ADD commands, the table holds the
distinct symbols of those that succeeded, in the order of first appearance, each with the sum of its increments. -/
def Obligations.TableHoldsTheSumsInFirstSeenOrder : Prop :=
  ∀ (s : State) (pairs : List (Half × Word)), s.Inv → s.ftCount = 0 → s.treeValid = false →
    (runAdds pairs s).2.ftEntries.map (fun e => e.sym) = firstSeen ((runAdds pairs s).1.map (fun q => q.1)) ∧
    ∀ e ∈ (runAdds pairs s).2.ftEntries, e.freq.toNat = countIn (runAdds pairs s).1 e.sym

/-- 41_freq_table.md R125: FREQ_READ returns the entry, or fails with BAD_INDEX, and changes nothing else. -/
def Obligations.FreqReadReturnsTheEntry : Prop :=
  ∀ (s : State) (idx : Half), s.Inv →
    (∀ w : Word, decodeCmd w = .command (.freqRead idx) ↔ w = (0x0300 : Half) ++ idx) ∧
    (s.ftCount.toNat ≤ idx.toNat →
      exec (.freqRead idx) s = .next (s.raiseError .badIndex (idx.zeroExtend 32))) ∧
    (idx.toNat < s.ftCount.toNat →
      exec (.freqRead idx) s = .next (State.complete
        { s with res0 := (s.ftAt idx.toNat).sym.zeroExtend 32, res1 := (s.ftAt idx.toNat).freq }))

/-! ### The tree builder -/

/-- 42_builder.md R144–R146 (with R141–R143): BUILD fails on the empty table; otherwise it writes the table's leaves and
then, for each merge k, the parent of the two least nodes of the collection Q in the order of R143, the second extracted
on the left, until Q is the root alone. Q is a function of the merge number, fixed by its start and its steps. -/
def Obligations.BuildMergesTheTwoLeastNodes : Prop :=
  ∀ s : State, s.Inv →
    (∀ w : Word, decodeCmd w = .command .build ↔ w = 0x10000000) ∧
    (s.ftCount = 0 → exec .build s = .next (s.raiseError .emptyAlphabet 0)) ∧
    (s.ftCount ≠ 0 → ∃ t, exec .build s = .next t ∧
      t = State.complete { s with node := t.node, treeValid := true, root := t.root, nodeCount := t.nodeCount } ∧
      t.root.toNat = 2 * s.ftCount.toNat - 2 ∧ t.nodeCount.toNat = 2 * s.ftCount.toNat - 1 ∧
      (∀ i < s.ftCount.toNat, t.nodeAt i =
        { freq := (s.ftAt i).freq, isLeaf := true, sym := (s.ftAt i).sym, left := 0xFFFF, right := 0xFFFF }) ∧
      ∃ Q : Nat → Finset Nat,
        Q 0 = Finset.range s.ftCount.toNat ∧
        Q (s.ftCount.toNat - 1) = {2 * s.ftCount.toNat - 2} ∧
        ∀ k < s.ftCount.toNat - 1, ∃ e1 e2 : Nat,
          e1 ∈ Q k ∧ e2 ∈ Q k ∧ e1 ≠ e2 ∧
          (∀ n ∈ Q k, n ≠ e1 → t.precedes e1 n) ∧
          (∀ n ∈ Q k, n ≠ e1 → n ≠ e2 → t.precedes e2 n) ∧
          (t.nodeAt (s.ftCount.toNat + k)).freq.toNat = (t.nodeAt e1).freq.toNat + (t.nodeAt e2).freq.toNat ∧
          (t.nodeAt (s.ftCount.toNat + k)).isLeaf = false ∧ (t.nodeAt (s.ftCount.toNat + k)).sym = 0x0000 ∧
          (t.nodeAt (s.ftCount.toNat + k)).left.toNat = e2 ∧ (t.nodeAt (s.ftCount.toNat + k)).right.toNat = e1 ∧
          Q (k + 1) = insert (s.ftCount.toNat + k) (((Q k).erase e1).erase e2))

/-- 42_builder.md R150: a successful BUILD sets the three tree registers and nodes 0 to 2N − 2 and changes nothing else,
and while a tree exists no command changes the node memory. That nodes at or above the new NODE_COUNT stay, which
93_implementation_defined.md U3 leaves open, is the model's choice (log 23). -/
def Obligations.BuildWritesOnlyTheTreeAndItStays : Prop :=
  (∀ s t : State, s.Inv → exec .build s = .next t → t.errCode = .ok →
    t = State.complete { s with node := t.node, treeValid := true, root := t.root, nodeCount := t.nodeCount } ∧
    t.root.toNat = 2 * s.ftCount.toNat - 2 ∧ t.nodeCount.toNat = 2 * s.ftCount.toNat - 1 ∧
    t.nodes = buildArena s.ftEntries ∧
    ∀ i, 2 * s.ftCount.toNat - 2 < i → t.nodeAt i = s.nodeAt i) ∧
  (∀ (i : Instr) (s t : State), s.Inv → s.treeValid = true → exec i s = .next t → t.node = s.node)

/-- 42_builder.md R148, R149: BUILD of the empty table fails, with no tree, and BUILD with a tree rewrites every value it
already holds; either changes nothing but the completion fields. That nodes at or above NODE_COUNT stay at a repeated
BUILD, which 93_implementation_defined.md U3 leaves open, is the model's choice (log 23). -/
def Obligations.EmptyAndRepeatedBuildChangeNothing : Prop :=
  (∀ s : State, s.Inv → s.ftCount = 0 →
    exec .build s =
      .next { s with errCode := .emptyAlphabet, errInfo := 0, busy := false, done := true, pending := none } ∧
    s.treeValid = false ∧ s.root = 0 ∧ s.nodeCount = 0) ∧
  (∀ s : State, s.Inv → s.treeValid = true →
    exec .build s = .next { s with errCode := .ok, errInfo := 0, busy := false, done := true, pending := none })

/-- 42_builder.md R147: one symbol gives a tree of one leaf, which is the root, with the code "0". That the
other nodes stay, which 93_implementation_defined.md U3 leaves open, is the model's choice (log 23). -/
def Obligations.OneSymbolGivesAOneLeafTree : Prop :=
  ∀ s : State, s.Inv → s.ftCount = 1 → ∃ t, exec .build s = .next t ∧ t.errCode = .ok ∧
    t.root = 0 ∧ t.nodeCount = 1 ∧ t.treeValid = true ∧
    t.nodeAt 0 = { freq := (s.ftAt 0).freq, isLeaf := true, sym := (s.ftAt 0).sym, left := 0xFFFF, right := 0xFFFF } ∧
    (∀ i, i ≠ 0 → t.nodeAt i = s.nodeAt i) ∧
    codeOfLeaf t.nodes 0 0 = some [false]

/-- 42_builder.md R151, the worked example "aaabbc": the nodes, the codes and the encoding. -/
def Obligations.WorkedExampleTree : Prop :=
  let arena := buildArena [{ sym := 0x0061, freq := 3 }, { sym := 0x0062, freq := 2 }, { sym := 0x0063, freq := 1 }]
  arena =
    [{ freq := 3, isLeaf := true, sym := 0x0061, left := 0xFFFF, right := 0xFFFF },
     { freq := 2, isLeaf := true, sym := 0x0062, left := 0xFFFF, right := 0xFFFF },
     { freq := 1, isLeaf := true, sym := 0x0063, left := 0xFFFF, right := 0xFFFF },
     { freq := 3, isLeaf := false, sym := 0, left := 1, right := 2 },
     { freq := 6, isLeaf := false, sym := 0, left := 0, right := 3 }] ∧
  codeOfSym arena 4 0x0061 = some [false] ∧
  codeOfSym arena 4 0x0062 = some [true, false] ∧
  codeOfSym arena 4 0x0063 = some [true, true] ∧
  encodeSyms arena 4 [0x0061, 0x0061, 0x0061, 0x0062, 0x0062, 0x0063] =
    some [false, false, false, true, false, true, false, true, true]

/-- 42_builder.md R152: NODE_READ returns the node's three words, or fails with NO_TREE or BAD_INDEX, and changes
nothing else; the words of a leaf and of an internal node. -/
def Obligations.NodeReadReturnsTheNode : Prop :=
  ∀ (s : State) (idx : Half), s.Inv →
    (∀ w : Word, decodeCmd w = .command (.nodeRead idx) ↔ w = (0x1100 : Half) ++ idx) ∧
    (s.treeValid = false → exec (.nodeRead idx) s = .next (s.raiseError .noTree 0)) ∧
    (s.treeValid = true → s.nodeCount.toNat ≤ idx.toNat →
      exec (.nodeRead idx) s = .next (s.raiseError .badIndex (idx.zeroExtend 32))) ∧
    (s.treeValid = true → idx.toNat < s.nodeCount.toNat →
      ∃ t, exec (.nodeRead idx) s = .next t ∧
        t = State.complete { s with res0 := t.res0, res1 := t.res1, res2 := t.res2 } ∧
        t.res0 = (s.nodeAt idx.toNat).freq ∧
        t.res1 = BitVec.ofBool (s.nodeAt idx.toNat).isLeaf ++ (0 : BitVec 15) ++ (s.nodeAt idx.toNat).sym ∧
        t.res2 = (s.nodeAt idx.toNat).right ++ (s.nodeAt idx.toNat).left ∧
        ((s.nodeAt idx.toNat).isLeaf = true →
          t.res1 = 0x80000000 ||| (s.nodeAt idx.toNat).sym.zeroExtend 32 ∧ t.res2 = 0xFFFFFFFF) ∧
        ((s.nodeAt idx.toNat).isLeaf = false →
          t.res1 = 0 ∧ (s.nodeAt idx.toNat).left.toNat < idx.toNat ∧ (s.nodeAt idx.toNat).right.toNat < idx.toNat))

/-! ### The laws of the built tree -/

/-- 42_builder.md R153, R154: the first N nodes are leaves and the N − 1 after them are internal; every internal node
has two distinct children, both below it, and every node but the root is a child of exactly one node. -/
def Obligations.TreeIsStrictlyBinary : Prop :=
  ∀ s : State, s.Inv → s.treeValid = true →
    (1 ≤ s.ftCount.toNat ∧ s.nodeCount.toNat = s.ftCount.toNat + (s.ftCount.toNat - 1)) ∧
    (∀ n < s.ftCount.toNat, (s.nodeAt n).isLeaf = true) ∧
    (∀ n, s.ftCount.toNat ≤ n → n < s.nodeCount.toNat → (s.nodeAt n).isLeaf = false) ∧
    (∀ n < s.nodeCount.toNat, (s.nodeAt n).isLeaf = false →
      (s.nodeAt n).left ≠ (s.nodeAt n).right ∧ (s.nodeAt n).left.toNat < n ∧ (s.nodeAt n).right.toNat < n) ∧
    (∀ c < s.nodeCount.toNat, c ≠ s.root.toNat →
      ∃ n < s.nodeCount.toNat, (s.nodeAt n).isParentOf c ∧
        ∀ m < s.nodeCount.toNat, (s.nodeAt m).isParentOf c → m = n) ∧
    (∀ n < s.nodeCount.toNat, ¬ (s.nodeAt n).isParentOf s.root.toNat)

/-- 42_builder.md R155: an internal node's frequency is the sum of its children's, as naturals, so none wraps, and it is
the sum of the leaf frequencies in its subtree. -/
def Obligations.NodeFrequenciesAreSubtreeSums : Prop :=
  ∀ s : State, s.Inv → s.treeValid = true → ∀ n < s.nodeCount.toNat,
    ((s.nodeAt n).isLeaf = false →
      (s.nodeAt n).freq.toNat =
        (s.nodeAt (s.nodeAt n).left.toNat).freq.toNat + (s.nodeAt (s.nodeAt n).right.toNat).freq.toNat) ∧
    (s.nodeAt n).freq.toNat = subtreeFreq s.nodes s.nodeCount.toNat n

/-- 42_builder.md R156: the root's frequency is FT_TOTAL, after a successful BUILD and as long as the tree lasts. -/
def Obligations.RootFrequencyIsTheTotal : Prop :=
  (∀ s : State, s.Inv → s.treeValid = true → (s.nodeAt s.root.toNat).freq = s.ftTotal) ∧
  (∀ s t : State, s.Inv → exec .build s = .next t → t.errCode = .ok → (t.nodeAt t.root.toNat).freq = t.ftTotal)

/-- 42_builder.md R157: no strictly binary tree whose leaves carry the table's frequencies has a smaller weighted path
length. -/
def Obligations.TreeMinimisesWeightedPathLength : Prop :=
  ∀ s : State, s.Inv → s.treeValid = true → ∀ other : FreqTree,
    other.leaves.Perm (s.ftEntries.map (fun e => e.freq.toNat)) →
    weightedPathLength s.nodes s.root.toNat s.ftCount.toNat ≤ other.costAt 0

/-- 42_builder.md R158, its first sentence: the weighted path length is the sum of the internal nodes' frequencies. -/
def Obligations.PathLengthIsTheSumOfInternalNodes : Prop :=
  ∀ s : State, s.Inv → s.treeValid = true →
    weightedPathLength s.nodes s.root.toNat s.ftCount.toNat =
      ((List.range' s.ftCount.toNat (s.ftCount.toNat - 1)).map (fun n => (s.nodeAt n).freq.toNat)).sum

/-- 42_builder.md R159: a less frequent symbol never has the shorter code. -/
def Obligations.CodeLengthsAreMonotone : Prop :=
  ∀ s : State, s.Inv → s.treeValid = true → ∀ i < s.ftCount.toNat, ∀ j < s.ftCount.toNat,
    (s.ftAt i).freq.toNat < (s.ftAt j).freq.toNat →
    depthOf s.nodes s.root.toNat j ≤ depthOf s.nodes s.root.toNat i

/-- 42_builder.md R160: every leaf has a code, it is not empty, with two symbols or more it is the path that leads from
the root to the leaf, of the leaf's depth, and with one symbol it is "0"; a symbol has a code exactly when the table
holds it. -/
def Obligations.EveryLeafHasItsCode : Prop :=
  ∀ s : State, s.Inv → s.treeValid = true →
    (∀ l < s.ftCount.toNat, ∃ code, codeOfLeaf s.nodes s.root.toNat l = some code ∧ code ≠ [] ∧
      codeOfSym s.nodes s.root.toNat (s.ftAt l).sym = some code ∧
      (s.nodeCount = 1 → code = [false]) ∧
      (s.nodeCount ≠ 1 →
        follow s.nodes s.root.toNat code = some l ∧ code.length = depthOf s.nodes s.root.toNat l ∧
        ∀ other, follow s.nodes s.root.toNat other = some l → other = code)) ∧
    (∀ sym : Half, (∀ l < s.ftCount.toNat, (s.ftAt l).sym ≠ sym) → codeOfSym s.nodes s.root.toNat sym = none)

/-- 42_builder.md R162: no code is a prefix of another leaf's code. -/
def Obligations.CodesArePrefixFree : Prop :=
  ∀ s : State, s.Inv → s.treeValid = true → ∀ l < s.ftCount.toNat, ∀ m < s.ftCount.toNat, l ≠ m →
    ∀ c d, codeOfLeaf s.nodes s.root.toNat l = some c → codeOfLeaf s.nodes s.root.toNat m = some d → ¬ c <+: d

/-- 42_builder.md R163: the tree is a function of the table's valid entries in their order alone. -/
def Obligations.TreeIsAFunctionOfTheTable : Prop :=
  ∀ s s' t t' : State, s.MemoriesWf → s'.MemoriesWf → s.ftEntries = s'.ftEntries →
    exec .build s = .next t → exec .build s' = .next t' → t.errCode = .ok → t'.errCode = .ok →
    t.root = t'.root ∧ t.nodeCount = t'.nodeCount ∧ ∀ n < t.nodeCount.toNat, t.nodeAt n = t'.nodeAt n

/-! ### The decoder -/

/-- 43_decoder.md R171: DEC_CLEAR empties the decoder's buffers and changes nothing else. That the contents of BIN and SOUT
stay, which 93_implementation_defined.md U3 leaves open, is the model's choice (log 23). -/
def Obligations.DecClearEmptiesTheBuffers : Prop :=
  (∀ s : State, exec .decClear s =
    .next { s with binLen := 0, soutLen := 0, decTrail := 0, errCode := .ok, errInfo := 0, busy := false, done := true,
                   pending := none }) ∧
  (∀ w : Word, decodeCmd w = .command .decClear ↔ w = 0x20000000)

/-- 43_decoder.md R172: DEC_PUSH appends the character, unchecked, or fails with BUFFER_FULL, and changes nothing else. -/
def Obligations.DecPushAppendsTheCharacter : Prop :=
  ∀ (s : State) (ch : Half), s.Inv →
    (∀ w : Word, decodeCmd w = .command (.decPush ch) ↔ w = (0x2100 : Half) ++ ch) ∧
    (s.binLen.toNat = s.cfg.lMax → exec (.decPush ch) s = .next (s.raiseError .bufferFull (ch.zeroExtend 32))) ∧
    (s.binLen.toNat ≠ s.cfg.lMax →
      ∃ t, exec (.decPush ch) s = .next t ∧
        t = State.complete { s with bin := t.bin, binLen := t.binLen } ∧
        t.binLen.toNat = s.binLen.toNat + 1 ∧
        t.binAt s.binLen.toNat = ch ∧
        ∀ j, j ≠ s.binLen.toNat → t.binAt j = s.binAt j)

/-- 43_decoder.md R174: DECODE without a tree fails with NO_TREE, and with a tree the first malformed character of the
whole bit-string fails it, before any walk. That SOUT stays there, which R177 leaves unspecified, is the model's choice
(log 14). -/
def Obligations.DecodeChecksTreeThenCharacters : Prop :=
  ∀ s : State, s.Inv →
    (∀ w : Word, decodeCmd w = .command .decode ↔ w = 0x22000000) ∧
    (s.treeValid = false → exec .decode s = .next (s.withoutText.raiseError .noTree 0)) ∧
    (s.treeValid = true → ∀ j < s.binLen.toNat, s.binAt j ≠ 0x0030 → s.binAt j ≠ 0x0031 →
      (∀ k < j, s.binAt k = 0x0030 ∨ s.binAt k = 0x0031) →
      exec .decode s = .next (s.withoutText.raiseError .malformedBitstring (BitVec.ofNat 32 j)))

/-- 43_decoder.md R174–R176, R180 cause 3, a tree of two leaves or more: the bit-string is the codes of some symbols and
then a path that ends at an internal node; DECODE returns those symbols and counts the rest, or, where the bit-string is
not empty and there is no symbol, fails at its length. Nothing else changes. Two points are the model's choice: that
SOUT stays where it fails, which R177 leaves unspecified (log 14), and that its entries at or above the new SOUT_LEN stay
where it succeeds, which 20_memory.md R65 leaves unspecified (log 24). -/
def Obligations.DecodeReadsWholeCodes : Prop :=
  ∀ (s : State) (bits : List Bool), s.Inv → s.treeValid = true → 2 ≤ s.ftCount.toNat →
    s.binChars = bits.map charOfBit →
    ∃ (syms : List Half) (codes rest : List Bool) (n : Nat),
      bits = codes ++ rest ∧ encodeSyms s.nodes s.root.toNat syms = some codes ∧
      follow s.nodes s.root.toNat rest = some n ∧ (s.nodeAt n).isLeaf = false ∧
      (bits ≠ [] ∧ syms = [] →
        exec .decode s = .next (s.withoutText.raiseError .undecodableSequence s.binLen)) ∧
      (¬ (bits ≠ [] ∧ syms = []) →
        ∃ t, exec .decode s = .next t ∧
          t = State.complete { s with sout := t.sout, soutLen := t.soutLen, decTrail := t.decTrail } ∧
          t.soutLen.toNat = syms.length ∧ t.soutSyms = syms ∧ t.decTrail.toNat = rest.length ∧
          ∀ j, syms.length ≤ j → t.soutAt j = s.soutAt j)

/-- 43_decoder.md R175, R180 cause 2, the one-leaf tree: every '0' emits the leaf's symbol, and the first '1' fails the
DECODE at its index. Two points are the model's choice: that SOUT stays where it fails, which R177 leaves unspecified
(log 14), and that its entries at or above the new SOUT_LEN stay where it succeeds, which 20_memory.md R65 leaves
unspecified (log 24). -/
def Obligations.OneLeafTreeDecodesZeros : Prop :=
  ∀ (s : State) (bits : List Bool), s.Inv → s.treeValid = true → s.ftCount = 1 →
    s.binChars = bits.map charOfBit →
    (true ∉ bits →
      ∃ t, exec .decode s = .next t ∧
        t = State.complete { s with sout := t.sout, soutLen := t.soutLen, decTrail := 0 } ∧
        t.soutLen = s.binLen ∧ t.soutSyms = List.replicate bits.length (s.ftAt 0).sym ∧
        ∀ j, bits.length ≤ j → t.soutAt j = s.soutAt j) ∧
    (∀ j < bits.length, bits[j]? = some true → (∀ k < j, bits[k]? = some false) →
      exec .decode s = .next (s.withoutText.raiseError .undecodableSequence (BitVec.ofNat 32 j)))

/-- 43_decoder.md R177: a failed DECODE leaves no text and changes nothing else but the completion fields; the contents
of SOUT are unspecified there and not spoken of. -/
def Obligations.FailedDecodeReturnsNoText : Prop :=
  ∀ s t : State, exec .decode s = .next t → t.errCode ≠ .ok →
    t = { s with soutLen := 0, decTrail := 0, sout := t.sout, errCode := t.errCode, errInfo := t.errInfo,
                 busy := false, done := true, pending := none }

/-- 43_decoder.md R179: decoding the encoding of a text over the table's symbols gives the text back. -/
def Obligations.DecodeInvertsTheEncoding : Prop :=
  ∀ (s : State) (text : List Half), s.Inv → s.treeValid = true →
    (∀ x ∈ text, ∃ i < s.ftCount.toNat, (s.ftAt i).sym = x) →
    ∃ bits, encodeSyms s.nodes s.root.toNat text = some bits ∧
      (s.binChars = bits.map charOfBit →
        ∃ t, exec .decode s = .next t ∧ t.errCode = .ok ∧
          t.soutLen.toNat = text.length ∧ t.soutSyms = text ∧ t.decTrail = 0)

/-- 43_decoder.md R180: the missing-child guard raises UNDECODABLE_SEQUENCE at its bit; from a state with a tree it is
raised only by a '1' in the one-leaf tree, at its index, or by a non-empty bit-string with no symbol, at its length, and
with two leaves or more only by the latter. -/
def Obligations.UndecodableSequenceHasThreeCauses : Prop :=
  (∀ (s : State) (j : Nat) (b : Bool) (w : Walk), w.cur < s.cfg.nodeMax → (s.nodeAt w.cur).isLeaf = false →
    (if b then (s.nodeAt w.cur).right else (s.nodeAt w.cur).left) = 0xFFFF →
    walkBit s j b w = .error (.error .undecodableSequence (BitVec.ofNat 32 j))) ∧
  (∀ s t : State, s.Inv → s.treeValid = true → exec .decode s = .next t → t.errCode = .undecodableSequence →
    (s.ftCount = 1 ∧ t.errInfo.toNat < s.binLen.toNat ∧ s.binAt t.errInfo.toNat = 0x0031 ∧
      ∀ k < t.errInfo.toNat, s.binAt k = 0x0030) ∨
    (2 ≤ s.ftCount.toNat ∧ s.binLen ≠ 0 ∧ t.errInfo = s.binLen ∧
      ∀ (bits used rest : List Bool), s.binChars = bits.map charOfBit → bits = used ++ rest →
        ∀ n, follow s.nodes s.root.toNat used = some n → (s.nodeAt n).isLeaf = false))

/-- 43_decoder.md R178: DEC_READ returns the symbol, or fails with BAD_INDEX, and changes nothing else. -/
def Obligations.DecReadReturnsTheSymbol : Prop :=
  ∀ (s : State) (idx : Half), s.Inv →
    (∀ w : Word, decodeCmd w = .command (.decRead idx) ↔ w = (0x2300 : Half) ++ idx) ∧
    (s.soutLen.toNat ≤ idx.toNat →
      exec (.decRead idx) s = .next (s.raiseError .badIndex (idx.zeroExtend 32))) ∧
    (idx.toNat < s.soutLen.toNat →
      exec (.decRead idx) s = .next (State.complete { s with res0 := (s.soutAt idx.toNat).zeroExtend 32 }))

/-- 43_decoder.md R181: BIN and BIN_LEN change only by DEC_PUSH, DEC_CLEAR, CLEAR and reset, and a second DECODE gives
the same result. -/
def Obligations.BitStringPersists : Prop :=
  (∀ s t : State, step s = .next t → t.binLen ≠ s.binLen ∨ t.bin ≠ s.bin →
    s.nextTurn = .reset ∨
    (s.nextTurn = .engine ∧ ∃ p, s.pending = some p ∧
      (decodeCmd p.word = .command .decClear ∨ decodeCmd p.word = .command .clear ∨
        ∃ ch, decodeCmd p.word = .command (.decPush ch)))) ∧
  (∀ s t : State, s.Inv → exec .decode s = .next t →
    ∃ u, exec .decode { t with pending := s.pending, busy := s.busy } = .next u ∧
      u.errCode = t.errCode ∧ u.errInfo = t.errInfo ∧ u.soutLen = t.soutLen ∧ u.soutSyms = t.soutSyms ∧
      u.decTrail = t.decTrail)

/-! ### The register window -/

/-- 10_state.md R22–R25: the hardwired registers, in every state, so that no command and no reset changes them. -/
def Obligations.HardwiredRegistersRead : Prop :=
  ∀ s : State,
    s.readWord 0x00 = 0x48554601 ∧ (s.readWord 0x00).extractLsb' 8 24 = 0x485546 ∧ (s.readWord 0x00).extractLsb' 0 8 = 0x01 ∧
    (s.readWord 0x04).toNat = s.cfg.nMax ∧ (s.readWord 0x04).toNat ≤ 32767 ∧
    (s.readWord 0x08).toNat = s.cfg.lMax ∧ (s.readWord 0x08).toNat ≤ 65535 ∧
    s.readWord 0x0C = 0x00102010 ∧ (s.readWord 0x0C).extractLsb' 0 8 = 16 ∧ (s.readWord 0x0C).extractLsb' 8 8 = 32 ∧
    (s.readWord 0x0C).extractLsb' 16 8 = 16 ∧ (s.readWord 0x0C).extractLsb' 24 8 = 0

/-- 10_state.md R26, R27: the bits of STATUS, in every state; a write to STATUS clears DONE by bit 1 and OVERRUN by bit
3, and does nothing else. -/
def Obligations.StatusReadsItsFieldsAndClearsByOnes : Prop :=
  (∀ s : State,
    (s.readWord 0x14).getLsbD 0 = s.busy ∧ (s.readWord 0x14).getLsbD 1 = s.done ∧
    (s.readWord 0x14).getLsbD 2 = ((s.readWord 0x14).extractLsb' 8 8 != 0x00) ∧
    (s.readWord 0x14).getLsbD 3 = s.overrun ∧ (s.readWord 0x14).getLsbD 4 = s.treeValid ∧
    (s.readWord 0x14).extractLsb' 5 3 = 0 ∧ (s.readWord 0x14).extractLsb' 8 8 = s.errCode.number ∧
    (s.readWord 0x14).extractLsb' 16 16 = 0) ∧
  (∀ (s : State) (w : Word),
    s.writeWord 0x14 w =
      { s with done := s.done && !w.getLsbD 1, overrun := s.overrun && !w.getLsbD 3 })

/-- 10_state.md R28: CTRL holds IRQ_EN in bit 0 and reads 0 elsewhere, a write sets it from bit 0, and no command writes
it. -/
def Obligations.CtrlHoldsTheInterruptEnable : Prop :=
  (∀ (s : State) (w : Word), s.writeWord 0x10 w = { s with irqEn := w.getLsbD 0 }) ∧
  (∀ s : State, (s.readWord 0x10).getLsbD 0 = s.irqEn ∧ (s.readWord 0x10).extractLsb' 1 31 = 0) ∧
  (∀ (w : Word) (s t : State), performWord w s = .next t → t.irqEn = s.irqEn) ∧
  State.reset.irqEn = false

/-- 10_state.md R43 and 60_exceptions.md R210: IRQ is IRQ_EN AND DONE; every completion raises it when enabled; the
host's three ways to lower it take effect at that write. -/
def Obligations.InterruptIsEnableAndDone : Prop :=
  (∀ s : State, s.irq = (s.irqEn && s.done)) ∧ State.reset.irq = false ∧
  (∀ (w : Word) (s t : State), performWord w s = .next t → t.irq = s.irqEn) ∧
  (∀ (s : State) (v : Word), v.getLsbD 1 = true → (s.writeWord 0x14 v).irq = false) ∧
  (∀ (s : State) (v : Word), s.busy = false → (s.writeWord 0x1C v).irq = false) ∧
  (∀ (s : State) (v : Word), v.getLsbD 0 = false → (s.writeWord 0x10 v).irq = false)

/-- 10_state.md R21 and 20_memory.md R61, R73: what a read returns at every word offset of the window. A volatile
register reads as a free draw while BUSY = 1; every other register is exact at all times; an unmapped offset reads 0;
and a write to a read-only register or to an unmapped offset changes nothing. R73 leaves the busy read open; that it is
the draw the counter `draws` names, and that the counter moves on, is the model's form of it (log 8). -/
def Obligations.WindowReadsAndIgnoredWrites : Prop :=
  ∀ s : State,
    s.readWord 0x00 = 0x48554601 ∧ (s.readWord 0x04).toNat = s.cfg.nMax ∧ (s.readWord 0x08).toNat = s.cfg.lMax ∧
    s.readWord 0x0C = 0x00102010 ∧
    s.readWord 0x10 = s.ctrlWord ∧ s.readWord 0x14 = s.statusWord ∧ s.readWord 0x18 = s.arg0 ∧ s.readWord 0x1C = 0 ∧
    (s.busy = false →
      s.readWord 0x20 = s.res0 ∧ s.readWord 0x24 = s.res1 ∧ s.readWord 0x28 = s.res2 ∧ s.readWord 0x2C = s.errInfo ∧
      s.readWord 0x30 = s.ftCount ∧ s.readWord 0x34 = s.ftTotal ∧ s.readWord 0x38 = s.root ∧
      s.readWord 0x3C = s.nodeCount ∧ s.readWord 0x40 = s.binLen ∧ s.readWord 0x44 = s.soutLen ∧
      s.readWord 0x48 = s.decTrail) ∧
    (s.busy = true → ∀ o ∈ [0x20, 0x24, 0x28, 0x2C, 0x30, 0x34, 0x38, 0x3C, 0x40, 0x44, 0x48],
      s.readWord o = Config.busyRead s.draws ∧ (s.countDraw o).draws = s.draws + 1) ∧
    (∀ k, 0x13 ≤ k → k < 0x40 → s.readWord (4 * k) = 0) ∧
    (∀ (k : Nat) (v : Word), k < 0x40 → k ≠ 4 → k ≠ 5 → k ≠ 6 → k ≠ 7 → s.writeWord (4 * k) v = s)

/-- 20_memory.md R69, 40_control.md R104: a host read changes no state of HUFF's: only the host goes on, with the word
read in its destination variable and its other variables and its program as they were, and the model counts its free
draws (log 8). -/
def Obligations.HostReadsChangeNothing : Prop :=
  ∀ (s t : State) (size : AccessSize) (dst : HVar) (offset : Nat),
    s.host.current = some (.rd size dst offset) → hostStep s = .next t →
    t = { s with host := t.host, draws := t.draws } ∧ t.host.vars.get dst = s.readWord offset ∧
    (∀ h, h ≠ dst → t.host.vars.get h = s.host.vars.get h) ∧
    t.host.program = s.host.program ∧ t.host.place = s.host.place + 1

/-- 20_memory.md R60, R61 and 93_implementation_defined.md F1: the host's word accesses at the window's 64 word offsets
run, and every other access is refused. F1 has the narrow and the misaligned ones refused; that an access past the window,
at offset 256 or above, is refused too is the model's reading (log 17). -/
def Obligations.OnlyAlignedWordAccessesRun : Prop :=
  (∀ (s : State) (v : Word) (k : Nat), k < 0x40 → s.host.current = some (.wr .word (4 * k) v) →
    hostStep s = .next { s.writeWord (4 * k) v with host := { s.host with place := s.host.place + 1 } }) ∧
  (∀ (s : State) (dst : HVar) (k : Nat), k < 0x40 → s.host.current = some (.rd .word dst (4 * k)) →
    ∃ t, hostStep s = .next t) ∧
  (∀ (s : State) (size : AccessSize) (offset : Nat) (v : Word),
    size ≠ .word ∨ offset % 4 ≠ 0 ∨ 256 ≤ offset → s.host.current = some (.wr size offset v) →
    ∃ r, hostStep s = .refused r) ∧
  (∀ (s : State) (size : AccessSize) (dst : HVar) (offset : Nat),
    size ≠ .word ∨ offset % 4 ≠ 0 ∨ 256 ≤ offset → s.host.current = some (.rd size dst offset) →
    ∃ r, hostStep s = .refused r)

/-- 20_memory.md R68: the four byte lanes of a word make up the word, lane k is its bits 8k + 7 to 8k, at byte address
HUFF_BASE plus the offset plus k. That HUFF_BASE is a multiple of 256 is 92_eei_decisions.md, "Open parameters,
collected", in the form the model gives an OPEN parameter (log 3). -/
def Obligations.ByteLanesAreLittleEndian : Prop :=
  (∀ w : Word, wordOfLanes (byteLane w 0) (byteLane w 1) (byteLane w 2) (byteLane w 3) = w) ∧
  (∀ (w : Word) (k : Nat), k < 4 → byteLane w k = w.extractLsb' (8 * k) 8 ∧
    ∀ i < 8, (byteLane w k).getLsbD i = w.getLsbD (8 * k + i)) ∧
  (∀ offset, ∀ k < 4, laneAddress offset k = Config.huffBase + offset + k) ∧
  Config.huffBase % 256 = 0

/-- 30_encoding.md R90, R91: a host that runs WAIT leaves it, by its branch not taken, only with a STATUS it read as
BUSY = 0: the read puts STATUS in h7, the AND keeps BUSY, and the branch returns to the label where it is 1. That a label is a host step of its own, which R90 does not say, is the
model's choice (log 9). -/
def Obligations.WaitPollsBusy : Prop :=
  ∀ (s : State) (fresh : Nat) (before after : List HostStmt),
    s.host.program = before ++ waitStmts fresh ++ after → (.label fresh) ∉ before →
    (s.host.place = before.length →
      hostStep s = .next { s with host := { s.host with place := before.length + 1 } }) ∧
    (s.host.place = before.length + 1 →
      hostStep s = .next { s with
        host := { s.host with place := before.length + 2, vars := { s.host.vars with h7 := s.statusWord } } }) ∧
    (s.host.place = before.length + 2 →
      hostStep s = .next { s with
        host := { s.host with
          place := before.length + 3, vars := { s.host.vars with h7 := s.host.vars.h7 &&& 0x1 } } }) ∧
    (s.host.place = before.length + 3 →
      hostStep s = .next { s with
        host := { s.host with place := if s.host.vars.h7 = 0 then before.length + 4 else before.length } }) ∧
    s.statusWord &&& 0x1 = if s.busy then 1 else 0

/-- 30_encoding.md R90: the host's own statements. That a label is a host step of its own (log 9), and that a host at
`halt` or past its program's end takes an idle step (log 18), are the model's choices. -/
def Obligations.HostStatementsAct : Prop :=
  ∀ s : State,
    (∀ dst src imm, s.host.current = some (.andi dst src imm) →
      ∃ t, hostStep s = .next t ∧ t = { s with host := { s.host with place := s.host.place + 1, vars := t.host.vars } } ∧
        t.host.vars.get dst = s.host.vars.get src &&& imm ∧
        ∀ h, h ≠ dst → t.host.vars.get h = s.host.vars.get h) ∧
    (∀ src name place, s.host.current = some (.bnez src name) →
      s.host.program[place]? = some (.label name) → (∀ k < place, s.host.program[k]? ≠ some (.label name)) →
      hostStep s = .next { s with
        host := { s.host with place := if s.host.vars.get src = 0 then s.host.place + 1 else place } }) ∧
    (∀ src name place, s.host.current = some (.beqz src name) →
      s.host.program[place]? = some (.label name) → (∀ k < place, s.host.program[k]? ≠ some (.label name)) →
      hostStep s = .next { s with
        host := { s.host with place := if s.host.vars.get src = 0 then place else s.host.place + 1 } }) ∧
    (∀ name, s.host.current = some (.label name) →
      hostStep s = .next { s with host := { s.host with place := s.host.place + 1 } }) ∧
    (s.host.current = some .halt ∨ s.host.current = none → hostStep s = .next s)

/-! ### Reset -/

/-- 70_reset_and_hazards.md R230: what reset leaves, from every state. The host, the schedule, the draws and the memory
contents, which R231 leaves unspecified, are not HUFF registers. -/
def Obligations.ResetGivesEveryRegisterItsValue : Prop :=
  (∀ s : State, s.nextTurn = .reset → ∃ t, step s = .next t ∧
    t.irqEn = false ∧ t.statusWord = 0x00000000 ∧ t.ctrlWord = 0x00000000 ∧
    t.arg0 = 0 ∧ t.res0 = 0 ∧ t.res1 = 0 ∧ t.res2 = 0 ∧ t.errInfo = 0 ∧
    t.ftCount = 0 ∧ t.ftTotal = 0 ∧ t.root = 0 ∧ t.nodeCount = 0 ∧ t.binLen = 0 ∧ t.soutLen = 0 ∧ t.decTrail = 0 ∧
    t.pending = none ∧ t.irq = false ∧ t.cfg = s.cfg) ∧
  State.reset.statusWord = 0x00000000 ∧ State.reset.ctrlWord = 0x00000000 ∧ State.reset.arg0 = 0 ∧
  State.reset.res0 = 0 ∧ State.reset.res1 = 0 ∧ State.reset.res2 = 0 ∧ State.reset.errInfo = 0 ∧
  State.reset.ftCount = 0 ∧ State.reset.ftTotal = 0 ∧ State.reset.root = 0 ∧ State.reset.nodeCount = 0 ∧
  State.reset.binLen = 0 ∧ State.reset.soutLen = 0 ∧ State.reset.decTrail = 0 ∧ State.reset.pending = none

/-! ### Whole-machine rules -/

/-- 10_state.md R46: the invariant holds right after reset, at every legal size. -/
def Obligations.InvariantHoldsAtReset : Prop :=
  (∀ cfg : Config.Params, (State.resetWith cfg).Inv) ∧ State.reset.Inv

/-- 10_state.md R46: every step keeps the invariant, whatever the host does and whoever moves. -/
def Obligations.EveryStepKeepsTheInvariant : Prop :=
  ∀ s t : State, s.Inv → step s = .next t → t.Inv

/-- 20_memory.md R67 and 70_reset_and_hazards.md R231: what the memories hold at or above the counts is unobservable:
two states that differ in nothing else step alike, and still differ in nothing else. -/
def Obligations.StaleEntriesAreUnobservable : Prop :=
  ∀ s t : State, s.Inv → t.Inv → s.SameVisible t →
    (∀ s', step s = .next s' → ∃ t', step t = .next t' ∧ s'.SameVisible t') ∧
    (∀ r, step s = .refused r → step t = .refused r)

/-- 60_exceptions.md R200, R209 and 20_memory.md R62–R65: from every state that meets the invariant no step faults: no
command reaches an entry that does not exist, and every error leaves HUFF able to take the next command. -/
def Obligations.NoStepFaults : Prop :=
  (∀ s : State, s.Inv → ∀ f, step s ≠ .fault f) ∧
  (∀ (s t : State) (w : Word), s.Inv → engineStep s = .next t → s.pending ≠ none →
    t.writeWord 0x1C w = { t with pending := some { word := w, arg := t.arg0 }, busy := true, done := false })

/-- 00_scope.md R16 and 40_control.md R101: no step changes the sizes, and the agents keep to their own state: an engine
step leaves the host alone, and a host step leaves the table, the tree, the buffers and the results alone. -/
def Obligations.AgentsKeepToTheirOwnState : Prop :=
  (∀ s t : State, step s = .next t → t.cfg = s.cfg) ∧
  (∀ s t : State, engineStep s = .next t →
    t.host = s.host ∧ t.schedule = s.schedule ∧ t.draws = s.draws ∧ t.overrun = s.overrun ∧ t.irqEn = s.irqEn ∧
      t.arg0 = s.arg0) ∧
  (∀ s t : State, hostStep s = .next t →
    t = { s with host := t.host, draws := t.draws, irqEn := t.irqEn, done := t.done, overrun := t.overrun,
                 arg0 := t.arg0, pending := t.pending, busy := t.busy })
end

