-- ==== Sys2Proof/Laws/Bits.lean ====
section
/-! SUPPORT. The words put together from fields, and the fields taken from words, as numbers: one lemma per word, so that
later proofs about bits are arithmetic. -/

namespace Sys2Proof.Machine

/-- A concatenation as a number. -/
theorem toNat_concat {m n : Nat} (x : BitVec m) (y : BitVec n) : (x ++ y).toNat = x.toNat * 2 ^ n + y.toNat := by
  rw [BitVec.toNat_append, Nat.shiftLeft_eq, Nat.mul_comm, Nat.two_pow_add_eq_or_of_lt y.isLt]

/-- A field of a word as a number. -/
theorem toNat_field {m : Nat} (w : BitVec m) (start len : Nat) :
    (w.extractLsb' start len).toNat = w.toNat / 2 ^ start % 2 ^ len := by
  rw [BitVec.extractLsb'_toNat, Nat.shiftRight_eq_div_pow]

/-- A bit of a word as a number. -/
theorem getLsbD_eq_div {m : Nat} (w : BitVec m) (i : Nat) : w.getLsbD i = decide (w.toNat / 2 ^ i % 2 = 1) := by
  rw [BitVec.getLsbD, Nat.testBit_eq_decide_div_mod_eq]

theorem toNat_zero_literal (n : Nat) : (0 : BitVec n).toNat = 0 := by simp

theorem toNat_ofBool (b : Bool) : (BitVec.ofBool b).toNat = if b then 1 else 0 := by cases b <;> rfl

/-- A command word as a number (30_encoding.md R80). -/
theorem toNat_encodeCmd (i : Instr) :
    (encodeCmd i).toNat = (opcodeOf i).toNat * 2 ^ 24 + (operandOf i).toNat := by
  have h : (encodeCmd i).toNat = _ := toNat_concat (opcodeOf i ++ (0x00 : Byte)) (operandOf i)
  rw [h, toNat_concat]
  rw [toNat_zero_literal]
  omega

/-- A command word as its upper half, the opcode and a zero byte, and its operand (30_encoding.md R80, R81). -/
theorem append_eq_encodeCmd (i : Instr) {c : Half} (hc : c.toNat = (opcodeOf i).toNat * 256) :
    c ++ operandOf i = encodeCmd i := by
  apply BitVec.eq_of_toNat_eq
  have h := toNat_concat c (operandOf i)
  rw [h, toNat_encodeCmd]
  omega

/-- A word from its three fields (30_encoding.md R80). -/
theorem word_of_fields (w : Word) :
    w.toNat = (opcField w).toNat * 2 ^ 24 + (rsvField w).toNat * 2 ^ 16 + (immField w).toNat := by
  have := w.isLt
  simp only [opcField, rsvField, immField, toNat_field]
  omega

@[simp] theorem opcField_encodeCmd (i : Instr) : opcField (encodeCmd i) = opcodeOf i := by
  apply BitVec.eq_of_toNat_eq
  have h1 := (opcodeOf i).isLt
  have h2 := (operandOf i).isLt
  rw [opcField, toNat_field, toNat_encodeCmd]
  omega

@[simp] theorem rsvField_encodeCmd (i : Instr) : rsvField (encodeCmd i) = 0 := by
  apply BitVec.eq_of_toNat_eq
  have h1 := (opcodeOf i).isLt
  have h2 := (operandOf i).isLt
  rw [rsvField, toNat_field, toNat_encodeCmd]
  rw [toNat_zero_literal]
  omega

@[simp] theorem immField_encodeCmd (i : Instr) : immField (encodeCmd i) = operandOf i := by
  apply BitVec.eq_of_toNat_eq
  have h1 := (opcodeOf i).isLt
  have h2 := (operandOf i).isLt
  rw [immField, toNat_field, toNat_encodeCmd]
  omega

/-- The mask of formats S and I keeps the upper half of a word (30_encoding.md R85). -/
theorem toNat_and_upperHalf (w : Word) : (w &&& 0xFFFF0000).toNat = w.toNat / 65536 * 65536 := by
  have h : w &&& (0xFFFF0000 : Word) = (w >>> 16) <<< 16 := by
    apply BitVec.eq_of_getLsbD_eq
    intro i hi
    have hm : BitVec.getLsbD (0xFFFF0000 : Word) i = decide (16 ≤ i) := by interval_cases i <;> decide
    rw [BitVec.getLsbD_and, hm, BitVec.getLsbD_shiftLeft, BitVec.getLsbD_ushiftRight]
    by_cases h16 : i < 16
    · simp [h16]
    · rw [show 16 + (i - 16) = i by omega]
      simp [h16, hi, Nat.not_lt.mp h16]
  have hw := w.isLt
  rw [h, BitVec.toNat_shiftLeft, BitVec.toNat_ushiftRight, Nat.shiftLeft_eq, Nat.shiftRight_eq_div_pow]
  omega

/-- The mask of format N keeps every bit (30_encoding.md R85). -/
theorem and_wholeWord (w : Word) : w &&& 0xFFFFFFFF = w := by
  have h : (0xFFFFFFFF : Word) = BitVec.allOnes 32 := by decide
  rw [h, BitVec.and_allOnes]

/-- The kind and symbol word of NODE_READ as a number (42_builder.md R152). -/
theorem toNat_kindWord (n : Node) : n.kindWord.toNat = (if n.isLeaf then 2147483648 else 0) + n.sym.toNat := by
  have h : n.kindWord.toNat = _ := toNat_concat (BitVec.ofBool n.isLeaf ++ (0 : BitVec 15)) n.sym
  rw [h, toNat_concat, toNat_ofBool]
  rw [toNat_zero_literal]
  split <;> omega

/-- The children word of NODE_READ as a number (42_builder.md R152). -/
theorem toNat_childrenWord (n : Node) : n.childrenWord.toNat = n.right.toNat * 65536 + n.left.toNat :=
  toNat_concat n.right n.left

/-- The `CTRL` word as a number (10_state.md R28). -/
theorem toNat_ctrlWord (s : State) : s.ctrlWord.toNat = if s.irqEn then 1 else 0 := by
  have h : s.ctrlWord.toNat = _ := toNat_concat (0 : BitVec 31) (BitVec.ofBool s.irqEn)
  rw [h, toNat_ofBool]
  simp

/-- The `STATUS` word as a number (10_state.md R26). -/
theorem toNat_statusWord (s : State) :
    s.statusWord.toNat = s.errCode.number.toNat * 256 + (if s.treeValid then 16 else 0) +
      (if s.overrun then 8 else 0) + (if s.errFlag then 4 else 0) + (if s.done then 2 else 0) +
      (if s.busy then 1 else 0) := by
  have h : s.statusWord.toNat = _ := toNat_concat ((0 : BitVec 16) ++ s.errCode.number ++ (0 : BitVec 3) ++
    BitVec.ofBool s.treeValid ++ BitVec.ofBool s.overrun ++ BitVec.ofBool s.errFlag ++ BitVec.ofBool s.done)
    (BitVec.ofBool s.busy)
  rw [h, toNat_concat, toNat_concat, toNat_concat, toNat_concat, toNat_concat, toNat_concat, toNat_zero_literal,
    toNat_zero_literal, toNat_ofBool, toNat_ofBool, toNat_ofBool, toNat_ofBool, toNat_ofBool]
  split_ifs <;> omega

/-- The word of four lanes as a number (20_memory.md R68). -/
theorem toNat_wordOfLanes (b0 b1 b2 b3 : Byte) :
    (wordOfLanes b0 b1 b2 b3).toNat = b3.toNat * 16777216 + b2.toNat * 65536 + b1.toNat * 256 + b0.toNat := by
  have h : (wordOfLanes b0 b1 b2 b3).toNat = _ := toNat_concat (b3 ++ b2 ++ b1) b0
  rw [h, toNat_concat, toNat_concat]
  omega

end Sys2Proof.Machine
end

