-- ==== Sys2Proof/Laws/Memory.lean ====
section
/-! SUPPORT. The laws of the index-addressed memories: read after write, the canonical form is kept, and equal memories
in that form are equal data. -/

namespace Sys2Proof.Machine

variable {α : Type}

theorem Memory.risingFrom_mono {b c : Nat} (h : b ≤ c) :
    ∀ {m : Memory α}, Memory.risingFrom c m = true → Memory.risingFrom b m = true
  | [], _ => rfl
  | (k, _) :: m, hm => by
    simp only [Memory.risingFrom, Bool.and_eq_true, decide_eq_true_eq] at hm ⊢
    exact ⟨by omega, hm.2⟩

/-- An index below every listed one reads as blank. -/
theorem Memory.get_below (blank : α) {b i : Nat} (hi : i < b) :
    ∀ {m : Memory α}, Memory.risingFrom b m = true → Memory.get blank m i = blank
  | [], _ => rfl
  | (k, x) :: m, hm => by
    simp only [Memory.risingFrom, Bool.and_eq_true, decide_eq_true_eq] at hm
    have hne : i ≠ k := by omega
    simp only [Memory.get, hne, if_false]
    exact Memory.get_below blank (by omega) hm.2

theorem Memory.wf_rising [DecidableEq α] {blank : α} {m : Memory α} (h : Memory.wf blank m = true) :
    Memory.risingFrom 0 m = true := by
  simp only [Memory.wf, Bool.and_eq_true] at h
  exact h.1

theorem Memory.get_set_same_from [DecidableEq α] (blank : α) (i : Nat) (v : α) :
    ∀ {b : Nat} {m : Memory α}, Memory.risingFrom b m = true →
      Memory.get blank (Memory.set blank m i v) i = v
  | _, [], _ => by by_cases hv : v = blank <;> simp [Memory.set, Memory.get, hv]
  | b, (k, x) :: m, hm => by
    simp only [Memory.risingFrom, Bool.and_eq_true, decide_eq_true_eq] at hm
    by_cases h1 : i < k
    · by_cases hv : v = blank
      · simp only [Memory.set, h1, hv, if_true]
        have : Memory.risingFrom (i + 1) ((k, x) :: m) = true := by
          simp only [Memory.risingFrom, Bool.and_eq_true, decide_eq_true_eq]
          exact ⟨h1, hm.2⟩
        exact Memory.get_below blank (Nat.lt_succ_self i) this
      · simp [Memory.set, Memory.get, h1, hv]
    · by_cases h2 : i = k
      · subst h2
        by_cases hv : v = blank
        · simp only [Memory.set, Nat.lt_irrefl, if_true, if_false, hv]
          exact Memory.get_below blank (Nat.lt_succ_self i) hm.2
        · simp [Memory.set, Memory.get, hv]
      · simp only [Memory.set, h1, h2, if_false, Memory.get]
        exact Memory.get_set_same_from blank i v hm.2

/-- A read after a write to the same index gives the entry written. -/
theorem Memory.get_set_same [DecidableEq α] {blank : α} {m : Memory α} (h : Memory.wf blank m = true) (i : Nat) (v : α) :
    Memory.get blank (Memory.set blank m i v) i = v :=
  Memory.get_set_same_from blank i v (Memory.wf_rising h)

/-- A write leaves every other index alone, in any memory. -/
theorem Memory.get_set_other [DecidableEq α] (blank : α) {i j : Nat} (hij : j ≠ i) (v : α) :
    ∀ m : Memory α, Memory.get blank (Memory.set blank m i v) j = Memory.get blank m j
  | [] => by by_cases hv : v = blank <;> simp [Memory.set, Memory.get, hv, hij]
  | (k, x) :: m => by
    by_cases h1 : i < k
    · by_cases hv : v = blank <;> simp [Memory.set, Memory.get, h1, hv, hij]
    · by_cases h2 : i = k
      · subst h2
        by_cases hv : v = blank <;> simp [Memory.set, Memory.get, hv, hij]
      · simp only [Memory.set, h1, h2, if_false, Memory.get]
        by_cases hjk : j = k
        · simp [hjk]
        · simp only [hjk, if_false]
          exact Memory.get_set_other blank hij v m

theorem Memory.risingFrom_set [DecidableEq α] (blank : α) (i : Nat) (v : α) :
    ∀ {b : Nat} {m : Memory α}, b ≤ i → Memory.risingFrom b m = true →
      Memory.risingFrom b (Memory.set blank m i v) = true
  | b, [], hb, _ => by by_cases hv : v = blank <;> simp [Memory.set, Memory.risingFrom, hv, hb]
  | b, (k, x) :: m, hb, hm => by
    simp only [Memory.risingFrom, Bool.and_eq_true, decide_eq_true_eq] at hm
    by_cases h1 : i < k
    · by_cases hv : v = blank
      · simp [Memory.set, h1, hv, Memory.risingFrom, hm.1, hm.2]
      · simp only [Memory.set, h1, hv, if_true, if_false, Memory.risingFrom, Bool.and_eq_true, decide_eq_true_eq]
        exact ⟨hb, h1, hm.2⟩
    · by_cases h2 : i = k
      · subst h2
        by_cases hv : v = blank
        · simp only [Memory.set, Nat.lt_irrefl, if_true, if_false, hv]
          exact Memory.risingFrom_mono (by omega) hm.2
        · simp [Memory.set, Memory.risingFrom, hv, hm.1, hm.2]
      · simp only [Memory.set, h1, h2, if_false, Memory.risingFrom, Bool.and_eq_true, decide_eq_true_eq]
        exact ⟨hm.1, Memory.risingFrom_set blank i v (by omega) hm.2⟩

theorem Memory.all_set [DecidableEq α] (blank : α) (p : Nat × α → Bool) (i : Nat) (v : α)
    (hp : v ≠ blank → p (i, v) = true) :
    ∀ m : Memory α, m.all p = true → (Memory.set blank m i v : List (Nat × α)).all p = true
  | [], _ => by by_cases hv : v = blank <;> simp [Memory.set, hv, hp]
  | (k, x) :: m, hm => by
    simp only [List.all_cons, Bool.and_eq_true] at hm
    by_cases h1 : i < k
    · by_cases hv : v = blank <;> simp [Memory.set, h1, hv, hm.1, hm.2, hp]
    · by_cases h2 : i = k
      · subst h2
        by_cases hv : v = blank <;> simp [Memory.set, hv, hm.2, hp]
      · simp only [Memory.set, h1, h2, if_false, List.all_cons, Bool.and_eq_true]
        exact ⟨hm.1, Memory.all_set blank p i v hp m hm.2⟩

/-- A write keeps the canonical form. -/
theorem Memory.wf_set [DecidableEq α] {blank : α} {m : Memory α} (h : Memory.wf blank m = true) (i : Nat) (v : α) :
    Memory.wf blank (Memory.set blank m i v) = true := by
  simp only [Memory.wf, Bool.and_eq_true] at h ⊢
  exact ⟨Memory.risingFrom_set blank i v (Nat.zero_le _) h.1,
    Memory.all_set blank _ i v (fun hv => by simp [hv]) m h.2⟩

/-- A write to an index the memory has keeps every listed index within it. -/
theorem Memory.within_set [DecidableEq α] (blank : α) {size i : Nat} (hi : i < size) (v : α) {m : Memory α}
    (h : Memory.within size m = true) : Memory.within size (Memory.set blank m i v) = true :=
  Memory.all_set blank _ i v (fun _ => by simp [hi]) m h

theorem Memory.wf_setAll [DecidableEq α] {blank : α} :
    ∀ (vs : List α) {m : Memory α} (i : Nat), Memory.wf blank m = true →
      Memory.wf blank (Memory.setAll blank m i vs) = true
  | [], _, _, h => h
  | v :: vs, _, i, h => Memory.wf_setAll vs (i + 1) (Memory.wf_set h i v)

theorem Memory.within_setAll [DecidableEq α] (blank : α) {size : Nat} :
    ∀ (vs : List α) {m : Memory α} (i : Nat), i + vs.length ≤ size → Memory.within size m = true →
      Memory.within size (Memory.setAll blank m i vs) = true
  | [], _, _, _, h => h
  | v :: vs, _, i, hi, h => by
    simp only [List.length_cons] at hi
    exact Memory.within_setAll blank vs (i + 1) (by omega) (Memory.within_set blank (by omega) v h)

/-- A block write leaves every index outside the block alone. -/
theorem Memory.get_setAll_other [DecidableEq α] (blank : α) :
    ∀ (vs : List α) (m : Memory α) (i j : Nat), (j < i ∨ i + vs.length ≤ j) →
      Memory.get blank (Memory.setAll blank m i vs) j = Memory.get blank m j
  | [], _, _, _, _ => rfl
  | v :: vs, m, i, j, h => by
    simp only [List.length_cons] at h
    rw [Memory.setAll, Memory.get_setAll_other blank vs _ (i + 1) j (by omega)]
    exact Memory.get_set_other blank (by omega) v m

/-- A block write is read back. -/
theorem Memory.get_setAll_same [DecidableEq α] {blank : α} :
    ∀ (vs : List α) {m : Memory α} (i k : Nat) (hk : k < vs.length), Memory.wf blank m = true →
      Memory.get blank (Memory.setAll blank m i vs) (i + k) = vs[k]
  | v :: vs, m, i, 0, _, hm => by
    rw [Memory.setAll, Memory.get_setAll_other blank vs _ (i + 1) (i + 0) (by omega)]
    exact Memory.get_set_same hm i v
  | v :: vs, m, i, k + 1, hk, hm => by
    simp only [List.length_cons] at hk
    have h := Memory.get_setAll_same vs (i + 1) k (by omega) (Memory.wf_set hm i v)
    rw [Memory.setAll, show i + (k + 1) = i + 1 + k by omega, h]
    rfl

@[simp] theorem Memory.length_slice (blank : α) (m : Memory α) (n : Nat) :
    (Memory.slice blank m n).length = n := by simp [Memory.slice]

@[simp] theorem Memory.getElem_slice (blank : α) (m : Memory α) (n i : Nat)
    (h : i < (Memory.slice blank m n).length) : (Memory.slice blank m n)[i] = Memory.get blank m i := by
  simp [Memory.slice]

/-- A slice depends on the entries it holds alone. -/
theorem Memory.slice_congr (blank : α) {m m' : Memory α} {n : Nat}
    (h : ∀ i, i < n → Memory.get blank m' i = Memory.get blank m i) :
    Memory.slice blank m' n = Memory.slice blank m n := by
  apply List.ext_getElem (by simp)
  intro i h1 h2
  simp only [Memory.length_slice] at h1
  simp [h i h1]

/-- The block just written is the slice. -/
theorem Memory.slice_setAll [DecidableEq α] {blank : α} (vs : List α) {m : Memory α} (hm : Memory.wf blank m = true) :
    Memory.slice blank (Memory.setAll blank m 0 vs) vs.length = vs := by
  apply List.ext_getElem (by simp)
  intro i h1 h2
  have := Memory.get_setAll_same vs 0 i h2 hm
  simp only [Nat.zero_add] at this
  simp [this]

/-- Two memories in the canonical form that read alike are the same list. -/
theorem Memory.eq_of_get [DecidableEq α] (blank : α) :
    ∀ {b : Nat} {m m' : Memory α}, Memory.risingFrom b m = true → Memory.risingFrom b m' = true →
      m.all (fun e => !decide (e.2 = blank)) = true → m'.all (fun e => !decide (e.2 = blank)) = true →
      (∀ i, Memory.get blank m i = Memory.get blank m' i) → m = m'
  | _, [], [], _, _, _, _, _ => rfl
  | b, [], (k, x) :: m', _, _, _, h4, h => by
    have := h k
    simp [Memory.get] at this
    simp [← this] at h4
  | b, (k, x) :: m, [], _, _, h3, _, h => by
    have := h k
    simp [Memory.get] at this
    simp [this] at h3
  | b, (k, x) :: m, (k', x') :: m', h1, h2, h3, h4, h => by
    simp only [Memory.risingFrom, Bool.and_eq_true, decide_eq_true_eq] at h1 h2
    simp only [List.all_cons, Bool.and_eq_true, Bool.not_eq_true', decide_eq_false_iff_not] at h3 h4
    have hk : k = k' := by
      rcases Nat.lt_trichotomy k k' with hlt | heq | hlt
      · have e := h k
        have hne : k ≠ k' := by omega
        simp only [Memory.get, if_true, hne, if_false] at e
        rw [Memory.get_below blank (by omega) h2.2] at e
        exact absurd e h3.1
      · exact heq
      · have e := h k'
        have hne : k' ≠ k := by omega
        simp only [Memory.get, if_true, hne, if_false] at e
        rw [Memory.get_below blank (by omega) h1.2] at e
        exact absurd e.symm h4.1
    subst hk
    have hx : x = x' := by simpa [Memory.get] using h k
    subst hx
    congr 1
    refine Memory.eq_of_get blank h1.2 h2.2 h3.2 h4.2 ?_
    intro i
    by_cases hi : i = k
    · subst hi
      rw [Memory.get_below blank (Nat.lt_succ_self _) h1.2, Memory.get_below blank (Nat.lt_succ_self _) h2.2]
    · simpa [Memory.get, hi] using h i

/-- Equal memories are equal data. -/
theorem Memory.ext_of_wf [DecidableEq α] {blank : α} {m m' : Memory α} (h : Memory.wf blank m = true)
    (h' : Memory.wf blank m' = true) (hget : ∀ i, Memory.get blank m i = Memory.get blank m' i) : m = m' := by
  simp only [Memory.wf, Bool.and_eq_true] at h h'
  exact Memory.eq_of_get blank h.1 h'.1 h.2 h'.2 hget

@[simp] theorem Memory.wf_nil [DecidableEq α] (blank : α) : Memory.wf blank [] = true := rfl

@[simp] theorem Memory.within_nil (size : Nat) : Memory.within size ([] : Memory α) = true := rfl

end Sys2Proof.Machine
end

