-- ==== Sys2Proof/Laws/State.lean ====
section
/-! SUPPORT. One lemma per field per state update, true by rfl: later proofs never unfold a record update. -/

namespace Sys2Proof.Machine

variable (s : State)

/-! Fields after completion (40_control.md R102). -/

@[simp] theorem State.completeWith_cfg (c : ErrCode) (x : Word) : (s.completeWith c x).cfg = s.cfg := rfl
@[simp] theorem State.completeWith_irqEn (c : ErrCode) (x : Word) : (s.completeWith c x).irqEn = s.irqEn := rfl
@[simp] theorem State.completeWith_busy (c : ErrCode) (x : Word) : (s.completeWith c x).busy = false := rfl
@[simp] theorem State.completeWith_done (c : ErrCode) (x : Word) : (s.completeWith c x).done = true := rfl
@[simp] theorem State.completeWith_overrun (c : ErrCode) (x : Word) : (s.completeWith c x).overrun = s.overrun := rfl
@[simp] theorem State.completeWith_treeValid (c : ErrCode) (x : Word) : (s.completeWith c x).treeValid = s.treeValid := rfl
@[simp] theorem State.completeWith_errCode (c : ErrCode) (x : Word) : (s.completeWith c x).errCode = c := rfl
@[simp] theorem State.completeWith_arg0 (c : ErrCode) (x : Word) : (s.completeWith c x).arg0 = s.arg0 := rfl
@[simp] theorem State.completeWith_res0 (c : ErrCode) (x : Word) : (s.completeWith c x).res0 = s.res0 := rfl
@[simp] theorem State.completeWith_res1 (c : ErrCode) (x : Word) : (s.completeWith c x).res1 = s.res1 := rfl
@[simp] theorem State.completeWith_res2 (c : ErrCode) (x : Word) : (s.completeWith c x).res2 = s.res2 := rfl
@[simp] theorem State.completeWith_errInfo (c : ErrCode) (x : Word) : (s.completeWith c x).errInfo = x := rfl
@[simp] theorem State.completeWith_ftCount (c : ErrCode) (x : Word) : (s.completeWith c x).ftCount = s.ftCount := rfl
@[simp] theorem State.completeWith_ftTotal (c : ErrCode) (x : Word) : (s.completeWith c x).ftTotal = s.ftTotal := rfl
@[simp] theorem State.completeWith_root (c : ErrCode) (x : Word) : (s.completeWith c x).root = s.root := rfl
@[simp] theorem State.completeWith_nodeCount (c : ErrCode) (x : Word) : (s.completeWith c x).nodeCount = s.nodeCount := rfl
@[simp] theorem State.completeWith_binLen (c : ErrCode) (x : Word) : (s.completeWith c x).binLen = s.binLen := rfl
@[simp] theorem State.completeWith_soutLen (c : ErrCode) (x : Word) : (s.completeWith c x).soutLen = s.soutLen := rfl
@[simp] theorem State.completeWith_decTrail (c : ErrCode) (x : Word) : (s.completeWith c x).decTrail = s.decTrail := rfl
@[simp] theorem State.completeWith_pending (c : ErrCode) (x : Word) : (s.completeWith c x).pending = none := rfl
@[simp] theorem State.completeWith_ft (c : ErrCode) (x : Word) : (s.completeWith c x).ft = s.ft := rfl
@[simp] theorem State.completeWith_node (c : ErrCode) (x : Word) : (s.completeWith c x).node = s.node := rfl
@[simp] theorem State.completeWith_bin (c : ErrCode) (x : Word) : (s.completeWith c x).bin = s.bin := rfl
@[simp] theorem State.completeWith_sout (c : ErrCode) (x : Word) : (s.completeWith c x).sout = s.sout := rfl
@[simp] theorem State.completeWith_host (c : ErrCode) (x : Word) : (s.completeWith c x).host = s.host := rfl
@[simp] theorem State.completeWith_schedule (c : ErrCode) (x : Word) : (s.completeWith c x).schedule = s.schedule := rfl
@[simp] theorem State.completeWith_draws (c : ErrCode) (x : Word) : (s.completeWith c x).draws = s.draws := rfl

/-! Fields after successful completion (40_control.md R102). -/

@[simp] theorem State.complete_cfg : s.complete.cfg = s.cfg := rfl
@[simp] theorem State.complete_irqEn : s.complete.irqEn = s.irqEn := rfl
@[simp] theorem State.complete_busy : s.complete.busy = false := rfl
@[simp] theorem State.complete_done : s.complete.done = true := rfl
@[simp] theorem State.complete_overrun : s.complete.overrun = s.overrun := rfl
@[simp] theorem State.complete_treeValid : s.complete.treeValid = s.treeValid := rfl
@[simp] theorem State.complete_errCode : s.complete.errCode = .ok := rfl
@[simp] theorem State.complete_arg0 : s.complete.arg0 = s.arg0 := rfl
@[simp] theorem State.complete_res0 : s.complete.res0 = s.res0 := rfl
@[simp] theorem State.complete_res1 : s.complete.res1 = s.res1 := rfl
@[simp] theorem State.complete_res2 : s.complete.res2 = s.res2 := rfl
@[simp] theorem State.complete_errInfo : s.complete.errInfo = 0 := rfl
@[simp] theorem State.complete_ftCount : s.complete.ftCount = s.ftCount := rfl
@[simp] theorem State.complete_ftTotal : s.complete.ftTotal = s.ftTotal := rfl
@[simp] theorem State.complete_root : s.complete.root = s.root := rfl
@[simp] theorem State.complete_nodeCount : s.complete.nodeCount = s.nodeCount := rfl
@[simp] theorem State.complete_binLen : s.complete.binLen = s.binLen := rfl
@[simp] theorem State.complete_soutLen : s.complete.soutLen = s.soutLen := rfl
@[simp] theorem State.complete_decTrail : s.complete.decTrail = s.decTrail := rfl
@[simp] theorem State.complete_pending : s.complete.pending = none := rfl
@[simp] theorem State.complete_ft : s.complete.ft = s.ft := rfl
@[simp] theorem State.complete_node : s.complete.node = s.node := rfl
@[simp] theorem State.complete_bin : s.complete.bin = s.bin := rfl
@[simp] theorem State.complete_sout : s.complete.sout = s.sout := rfl
@[simp] theorem State.complete_host : s.complete.host = s.host := rfl
@[simp] theorem State.complete_schedule : s.complete.schedule = s.schedule := rfl
@[simp] theorem State.complete_draws : s.complete.draws = s.draws := rfl

/-! Fields after taking an error (60_exceptions.md R206). -/

@[simp] theorem State.raiseError_cfg (c : ErrCode) (x : Word) : (s.raiseError c x).cfg = s.cfg := rfl
@[simp] theorem State.raiseError_irqEn (c : ErrCode) (x : Word) : (s.raiseError c x).irqEn = s.irqEn := rfl
@[simp] theorem State.raiseError_busy (c : ErrCode) (x : Word) : (s.raiseError c x).busy = false := rfl
@[simp] theorem State.raiseError_done (c : ErrCode) (x : Word) : (s.raiseError c x).done = true := rfl
@[simp] theorem State.raiseError_overrun (c : ErrCode) (x : Word) : (s.raiseError c x).overrun = s.overrun := rfl
@[simp] theorem State.raiseError_treeValid (c : ErrCode) (x : Word) : (s.raiseError c x).treeValid = s.treeValid := rfl
@[simp] theorem State.raiseError_errCode (c : ErrCode) (x : Word) : (s.raiseError c x).errCode = c := rfl
@[simp] theorem State.raiseError_arg0 (c : ErrCode) (x : Word) : (s.raiseError c x).arg0 = s.arg0 := rfl
@[simp] theorem State.raiseError_res0 (c : ErrCode) (x : Word) : (s.raiseError c x).res0 = s.res0 := rfl
@[simp] theorem State.raiseError_res1 (c : ErrCode) (x : Word) : (s.raiseError c x).res1 = s.res1 := rfl
@[simp] theorem State.raiseError_res2 (c : ErrCode) (x : Word) : (s.raiseError c x).res2 = s.res2 := rfl
@[simp] theorem State.raiseError_errInfo (c : ErrCode) (x : Word) : (s.raiseError c x).errInfo = x := rfl
@[simp] theorem State.raiseError_ftCount (c : ErrCode) (x : Word) : (s.raiseError c x).ftCount = s.ftCount := rfl
@[simp] theorem State.raiseError_ftTotal (c : ErrCode) (x : Word) : (s.raiseError c x).ftTotal = s.ftTotal := rfl
@[simp] theorem State.raiseError_root (c : ErrCode) (x : Word) : (s.raiseError c x).root = s.root := rfl
@[simp] theorem State.raiseError_nodeCount (c : ErrCode) (x : Word) : (s.raiseError c x).nodeCount = s.nodeCount := rfl
@[simp] theorem State.raiseError_binLen (c : ErrCode) (x : Word) : (s.raiseError c x).binLen = s.binLen := rfl
@[simp] theorem State.raiseError_soutLen (c : ErrCode) (x : Word) : (s.raiseError c x).soutLen = s.soutLen := rfl
@[simp] theorem State.raiseError_decTrail (c : ErrCode) (x : Word) : (s.raiseError c x).decTrail = s.decTrail := rfl
@[simp] theorem State.raiseError_pending (c : ErrCode) (x : Word) : (s.raiseError c x).pending = none := rfl
@[simp] theorem State.raiseError_ft (c : ErrCode) (x : Word) : (s.raiseError c x).ft = s.ft := rfl
@[simp] theorem State.raiseError_node (c : ErrCode) (x : Word) : (s.raiseError c x).node = s.node := rfl
@[simp] theorem State.raiseError_bin (c : ErrCode) (x : Word) : (s.raiseError c x).bin = s.bin := rfl
@[simp] theorem State.raiseError_sout (c : ErrCode) (x : Word) : (s.raiseError c x).sout = s.sout := rfl
@[simp] theorem State.raiseError_host (c : ErrCode) (x : Word) : (s.raiseError c x).host = s.host := rfl
@[simp] theorem State.raiseError_schedule (c : ErrCode) (x : Word) : (s.raiseError c x).schedule = s.schedule := rfl
@[simp] theorem State.raiseError_draws (c : ErrCode) (x : Word) : (s.raiseError c x).draws = s.draws := rfl

/-! Fields after acceptance (40_control.md R100). -/

@[simp] theorem State.accept_cfg (w : Word) : (s.accept w).cfg = s.cfg := rfl
@[simp] theorem State.accept_irqEn (w : Word) : (s.accept w).irqEn = s.irqEn := rfl
@[simp] theorem State.accept_busy (w : Word) : (s.accept w).busy = true := rfl
@[simp] theorem State.accept_done (w : Word) : (s.accept w).done = false := rfl
@[simp] theorem State.accept_overrun (w : Word) : (s.accept w).overrun = s.overrun := rfl
@[simp] theorem State.accept_treeValid (w : Word) : (s.accept w).treeValid = s.treeValid := rfl
@[simp] theorem State.accept_errCode (w : Word) : (s.accept w).errCode = s.errCode := rfl
@[simp] theorem State.accept_arg0 (w : Word) : (s.accept w).arg0 = s.arg0 := rfl
@[simp] theorem State.accept_res0 (w : Word) : (s.accept w).res0 = s.res0 := rfl
@[simp] theorem State.accept_res1 (w : Word) : (s.accept w).res1 = s.res1 := rfl
@[simp] theorem State.accept_res2 (w : Word) : (s.accept w).res2 = s.res2 := rfl
@[simp] theorem State.accept_errInfo (w : Word) : (s.accept w).errInfo = s.errInfo := rfl
@[simp] theorem State.accept_ftCount (w : Word) : (s.accept w).ftCount = s.ftCount := rfl
@[simp] theorem State.accept_ftTotal (w : Word) : (s.accept w).ftTotal = s.ftTotal := rfl
@[simp] theorem State.accept_root (w : Word) : (s.accept w).root = s.root := rfl
@[simp] theorem State.accept_nodeCount (w : Word) : (s.accept w).nodeCount = s.nodeCount := rfl
@[simp] theorem State.accept_binLen (w : Word) : (s.accept w).binLen = s.binLen := rfl
@[simp] theorem State.accept_soutLen (w : Word) : (s.accept w).soutLen = s.soutLen := rfl
@[simp] theorem State.accept_decTrail (w : Word) : (s.accept w).decTrail = s.decTrail := rfl
@[simp] theorem State.accept_pending (w : Word) : (s.accept w).pending = some { word := w, arg := s.arg0 } := rfl
@[simp] theorem State.accept_ft (w : Word) : (s.accept w).ft = s.ft := rfl
@[simp] theorem State.accept_node (w : Word) : (s.accept w).node = s.node := rfl
@[simp] theorem State.accept_bin (w : Word) : (s.accept w).bin = s.bin := rfl
@[simp] theorem State.accept_sout (w : Word) : (s.accept w).sout = s.sout := rfl
@[simp] theorem State.accept_host (w : Word) : (s.accept w).host = s.host := rfl
@[simp] theorem State.accept_schedule (w : Word) : (s.accept w).schedule = s.schedule := rfl
@[simp] theorem State.accept_draws (w : Word) : (s.accept w).draws = s.draws := rfl

/-! Fields after a dropped command (40_control.md R103). -/

@[simp] theorem State.markOverrun_cfg : s.markOverrun.cfg = s.cfg := rfl
@[simp] theorem State.markOverrun_irqEn : s.markOverrun.irqEn = s.irqEn := rfl
@[simp] theorem State.markOverrun_busy : s.markOverrun.busy = s.busy := rfl
@[simp] theorem State.markOverrun_done : s.markOverrun.done = s.done := rfl
@[simp] theorem State.markOverrun_overrun : s.markOverrun.overrun = true := rfl
@[simp] theorem State.markOverrun_treeValid : s.markOverrun.treeValid = s.treeValid := rfl
@[simp] theorem State.markOverrun_errCode : s.markOverrun.errCode = s.errCode := rfl
@[simp] theorem State.markOverrun_arg0 : s.markOverrun.arg0 = s.arg0 := rfl
@[simp] theorem State.markOverrun_res0 : s.markOverrun.res0 = s.res0 := rfl
@[simp] theorem State.markOverrun_res1 : s.markOverrun.res1 = s.res1 := rfl
@[simp] theorem State.markOverrun_res2 : s.markOverrun.res2 = s.res2 := rfl
@[simp] theorem State.markOverrun_errInfo : s.markOverrun.errInfo = s.errInfo := rfl
@[simp] theorem State.markOverrun_ftCount : s.markOverrun.ftCount = s.ftCount := rfl
@[simp] theorem State.markOverrun_ftTotal : s.markOverrun.ftTotal = s.ftTotal := rfl
@[simp] theorem State.markOverrun_root : s.markOverrun.root = s.root := rfl
@[simp] theorem State.markOverrun_nodeCount : s.markOverrun.nodeCount = s.nodeCount := rfl
@[simp] theorem State.markOverrun_binLen : s.markOverrun.binLen = s.binLen := rfl
@[simp] theorem State.markOverrun_soutLen : s.markOverrun.soutLen = s.soutLen := rfl
@[simp] theorem State.markOverrun_decTrail : s.markOverrun.decTrail = s.decTrail := rfl
@[simp] theorem State.markOverrun_pending : s.markOverrun.pending = s.pending := rfl
@[simp] theorem State.markOverrun_ft : s.markOverrun.ft = s.ft := rfl
@[simp] theorem State.markOverrun_node : s.markOverrun.node = s.node := rfl
@[simp] theorem State.markOverrun_bin : s.markOverrun.bin = s.bin := rfl
@[simp] theorem State.markOverrun_sout : s.markOverrun.sout = s.sout := rfl
@[simp] theorem State.markOverrun_host : s.markOverrun.host = s.host := rfl
@[simp] theorem State.markOverrun_schedule : s.markOverrun.schedule = s.schedule := rfl
@[simp] theorem State.markOverrun_draws : s.markOverrun.draws = s.draws := rfl

/-! Fields after CLEAR's registers (40_control.md R111). -/

@[simp] theorem State.clearSession_cfg : s.clearSession.cfg = s.cfg := rfl
@[simp] theorem State.clearSession_irqEn : s.clearSession.irqEn = s.irqEn := rfl
@[simp] theorem State.clearSession_busy : s.clearSession.busy = s.busy := rfl
@[simp] theorem State.clearSession_done : s.clearSession.done = s.done := rfl
@[simp] theorem State.clearSession_overrun : s.clearSession.overrun = s.overrun := rfl
@[simp] theorem State.clearSession_treeValid : s.clearSession.treeValid = false := rfl
@[simp] theorem State.clearSession_errCode : s.clearSession.errCode = s.errCode := rfl
@[simp] theorem State.clearSession_arg0 : s.clearSession.arg0 = s.arg0 := rfl
@[simp] theorem State.clearSession_res0 : s.clearSession.res0 = s.res0 := rfl
@[simp] theorem State.clearSession_res1 : s.clearSession.res1 = s.res1 := rfl
@[simp] theorem State.clearSession_res2 : s.clearSession.res2 = s.res2 := rfl
@[simp] theorem State.clearSession_errInfo : s.clearSession.errInfo = s.errInfo := rfl
@[simp] theorem State.clearSession_ftCount : s.clearSession.ftCount = 0 := rfl
@[simp] theorem State.clearSession_ftTotal : s.clearSession.ftTotal = 0 := rfl
@[simp] theorem State.clearSession_root : s.clearSession.root = 0 := rfl
@[simp] theorem State.clearSession_nodeCount : s.clearSession.nodeCount = 0 := rfl
@[simp] theorem State.clearSession_binLen : s.clearSession.binLen = 0 := rfl
@[simp] theorem State.clearSession_soutLen : s.clearSession.soutLen = 0 := rfl
@[simp] theorem State.clearSession_decTrail : s.clearSession.decTrail = 0 := rfl
@[simp] theorem State.clearSession_pending : s.clearSession.pending = s.pending := rfl
@[simp] theorem State.clearSession_ft : s.clearSession.ft = s.ft := rfl
@[simp] theorem State.clearSession_node : s.clearSession.node = s.node := rfl
@[simp] theorem State.clearSession_bin : s.clearSession.bin = s.bin := rfl
@[simp] theorem State.clearSession_sout : s.clearSession.sout = s.sout := rfl
@[simp] theorem State.clearSession_host : s.clearSession.host = s.host := rfl
@[simp] theorem State.clearSession_schedule : s.clearSession.schedule = s.schedule := rfl
@[simp] theorem State.clearSession_draws : s.clearSession.draws = s.draws := rfl

/-! Fields after DEC_CLEAR's registers (43_decoder.md R171). -/

@[simp] theorem State.clearDecoder_cfg : s.clearDecoder.cfg = s.cfg := rfl
@[simp] theorem State.clearDecoder_irqEn : s.clearDecoder.irqEn = s.irqEn := rfl
@[simp] theorem State.clearDecoder_busy : s.clearDecoder.busy = s.busy := rfl
@[simp] theorem State.clearDecoder_done : s.clearDecoder.done = s.done := rfl
@[simp] theorem State.clearDecoder_overrun : s.clearDecoder.overrun = s.overrun := rfl
@[simp] theorem State.clearDecoder_treeValid : s.clearDecoder.treeValid = s.treeValid := rfl
@[simp] theorem State.clearDecoder_errCode : s.clearDecoder.errCode = s.errCode := rfl
@[simp] theorem State.clearDecoder_arg0 : s.clearDecoder.arg0 = s.arg0 := rfl
@[simp] theorem State.clearDecoder_res0 : s.clearDecoder.res0 = s.res0 := rfl
@[simp] theorem State.clearDecoder_res1 : s.clearDecoder.res1 = s.res1 := rfl
@[simp] theorem State.clearDecoder_res2 : s.clearDecoder.res2 = s.res2 := rfl
@[simp] theorem State.clearDecoder_errInfo : s.clearDecoder.errInfo = s.errInfo := rfl
@[simp] theorem State.clearDecoder_ftCount : s.clearDecoder.ftCount = s.ftCount := rfl
@[simp] theorem State.clearDecoder_ftTotal : s.clearDecoder.ftTotal = s.ftTotal := rfl
@[simp] theorem State.clearDecoder_root : s.clearDecoder.root = s.root := rfl
@[simp] theorem State.clearDecoder_nodeCount : s.clearDecoder.nodeCount = s.nodeCount := rfl
@[simp] theorem State.clearDecoder_binLen : s.clearDecoder.binLen = 0 := rfl
@[simp] theorem State.clearDecoder_soutLen : s.clearDecoder.soutLen = 0 := rfl
@[simp] theorem State.clearDecoder_decTrail : s.clearDecoder.decTrail = 0 := rfl
@[simp] theorem State.clearDecoder_pending : s.clearDecoder.pending = s.pending := rfl
@[simp] theorem State.clearDecoder_ft : s.clearDecoder.ft = s.ft := rfl
@[simp] theorem State.clearDecoder_node : s.clearDecoder.node = s.node := rfl
@[simp] theorem State.clearDecoder_bin : s.clearDecoder.bin = s.bin := rfl
@[simp] theorem State.clearDecoder_sout : s.clearDecoder.sout = s.sout := rfl
@[simp] theorem State.clearDecoder_host : s.clearDecoder.host = s.host := rfl
@[simp] theorem State.clearDecoder_schedule : s.clearDecoder.schedule = s.schedule := rfl
@[simp] theorem State.clearDecoder_draws : s.clearDecoder.draws = s.draws := rfl

/-! Fields after a failed DECODE (43_decoder.md R177). -/

@[simp] theorem State.withoutText_cfg : s.withoutText.cfg = s.cfg := rfl
@[simp] theorem State.withoutText_irqEn : s.withoutText.irqEn = s.irqEn := rfl
@[simp] theorem State.withoutText_busy : s.withoutText.busy = s.busy := rfl
@[simp] theorem State.withoutText_done : s.withoutText.done = s.done := rfl
@[simp] theorem State.withoutText_overrun : s.withoutText.overrun = s.overrun := rfl
@[simp] theorem State.withoutText_treeValid : s.withoutText.treeValid = s.treeValid := rfl
@[simp] theorem State.withoutText_errCode : s.withoutText.errCode = s.errCode := rfl
@[simp] theorem State.withoutText_arg0 : s.withoutText.arg0 = s.arg0 := rfl
@[simp] theorem State.withoutText_res0 : s.withoutText.res0 = s.res0 := rfl
@[simp] theorem State.withoutText_res1 : s.withoutText.res1 = s.res1 := rfl
@[simp] theorem State.withoutText_res2 : s.withoutText.res2 = s.res2 := rfl
@[simp] theorem State.withoutText_errInfo : s.withoutText.errInfo = s.errInfo := rfl
@[simp] theorem State.withoutText_ftCount : s.withoutText.ftCount = s.ftCount := rfl
@[simp] theorem State.withoutText_ftTotal : s.withoutText.ftTotal = s.ftTotal := rfl
@[simp] theorem State.withoutText_root : s.withoutText.root = s.root := rfl
@[simp] theorem State.withoutText_nodeCount : s.withoutText.nodeCount = s.nodeCount := rfl
@[simp] theorem State.withoutText_binLen : s.withoutText.binLen = s.binLen := rfl
@[simp] theorem State.withoutText_soutLen : s.withoutText.soutLen = 0 := rfl
@[simp] theorem State.withoutText_decTrail : s.withoutText.decTrail = 0 := rfl
@[simp] theorem State.withoutText_pending : s.withoutText.pending = s.pending := rfl
@[simp] theorem State.withoutText_ft : s.withoutText.ft = s.ft := rfl
@[simp] theorem State.withoutText_node : s.withoutText.node = s.node := rfl
@[simp] theorem State.withoutText_bin : s.withoutText.bin = s.bin := rfl
@[simp] theorem State.withoutText_sout : s.withoutText.sout = s.sout := rfl
@[simp] theorem State.withoutText_host : s.withoutText.host = s.host := rfl
@[simp] theorem State.withoutText_schedule : s.withoutText.schedule = s.schedule := rfl
@[simp] theorem State.withoutText_draws : s.withoutText.draws = s.draws := rfl

/-! Fields after a host write to STATUS (10_state.md R27). -/

@[simp] theorem State.writeStatus_cfg (w : Word) : (s.writeStatus w).cfg = s.cfg := rfl
@[simp] theorem State.writeStatus_irqEn (w : Word) : (s.writeStatus w).irqEn = s.irqEn := rfl
@[simp] theorem State.writeStatus_busy (w : Word) : (s.writeStatus w).busy = s.busy := rfl
@[simp] theorem State.writeStatus_done (w : Word) : (s.writeStatus w).done = if w.getLsbD 1 then false else s.done := rfl
@[simp] theorem State.writeStatus_overrun (w : Word) : (s.writeStatus w).overrun = if w.getLsbD 3 then false else s.overrun := rfl
@[simp] theorem State.writeStatus_treeValid (w : Word) : (s.writeStatus w).treeValid = s.treeValid := rfl
@[simp] theorem State.writeStatus_errCode (w : Word) : (s.writeStatus w).errCode = s.errCode := rfl
@[simp] theorem State.writeStatus_arg0 (w : Word) : (s.writeStatus w).arg0 = s.arg0 := rfl
@[simp] theorem State.writeStatus_res0 (w : Word) : (s.writeStatus w).res0 = s.res0 := rfl
@[simp] theorem State.writeStatus_res1 (w : Word) : (s.writeStatus w).res1 = s.res1 := rfl
@[simp] theorem State.writeStatus_res2 (w : Word) : (s.writeStatus w).res2 = s.res2 := rfl
@[simp] theorem State.writeStatus_errInfo (w : Word) : (s.writeStatus w).errInfo = s.errInfo := rfl
@[simp] theorem State.writeStatus_ftCount (w : Word) : (s.writeStatus w).ftCount = s.ftCount := rfl
@[simp] theorem State.writeStatus_ftTotal (w : Word) : (s.writeStatus w).ftTotal = s.ftTotal := rfl
@[simp] theorem State.writeStatus_root (w : Word) : (s.writeStatus w).root = s.root := rfl
@[simp] theorem State.writeStatus_nodeCount (w : Word) : (s.writeStatus w).nodeCount = s.nodeCount := rfl
@[simp] theorem State.writeStatus_binLen (w : Word) : (s.writeStatus w).binLen = s.binLen := rfl
@[simp] theorem State.writeStatus_soutLen (w : Word) : (s.writeStatus w).soutLen = s.soutLen := rfl
@[simp] theorem State.writeStatus_decTrail (w : Word) : (s.writeStatus w).decTrail = s.decTrail := rfl
@[simp] theorem State.writeStatus_pending (w : Word) : (s.writeStatus w).pending = s.pending := rfl
@[simp] theorem State.writeStatus_ft (w : Word) : (s.writeStatus w).ft = s.ft := rfl
@[simp] theorem State.writeStatus_node (w : Word) : (s.writeStatus w).node = s.node := rfl
@[simp] theorem State.writeStatus_bin (w : Word) : (s.writeStatus w).bin = s.bin := rfl
@[simp] theorem State.writeStatus_sout (w : Word) : (s.writeStatus w).sout = s.sout := rfl
@[simp] theorem State.writeStatus_host (w : Word) : (s.writeStatus w).host = s.host := rfl
@[simp] theorem State.writeStatus_schedule (w : Word) : (s.writeStatus w).schedule = s.schedule := rfl
@[simp] theorem State.writeStatus_draws (w : Word) : (s.writeStatus w).draws = s.draws := rfl

/-! Fields after a host write to CTRL (10_state.md R28). -/

@[simp] theorem State.writeCtrl_cfg (w : Word) : (s.writeCtrl w).cfg = s.cfg := rfl
@[simp] theorem State.writeCtrl_irqEn (w : Word) : (s.writeCtrl w).irqEn = w.getLsbD 0 := rfl
@[simp] theorem State.writeCtrl_busy (w : Word) : (s.writeCtrl w).busy = s.busy := rfl
@[simp] theorem State.writeCtrl_done (w : Word) : (s.writeCtrl w).done = s.done := rfl
@[simp] theorem State.writeCtrl_overrun (w : Word) : (s.writeCtrl w).overrun = s.overrun := rfl
@[simp] theorem State.writeCtrl_treeValid (w : Word) : (s.writeCtrl w).treeValid = s.treeValid := rfl
@[simp] theorem State.writeCtrl_errCode (w : Word) : (s.writeCtrl w).errCode = s.errCode := rfl
@[simp] theorem State.writeCtrl_arg0 (w : Word) : (s.writeCtrl w).arg0 = s.arg0 := rfl
@[simp] theorem State.writeCtrl_res0 (w : Word) : (s.writeCtrl w).res0 = s.res0 := rfl
@[simp] theorem State.writeCtrl_res1 (w : Word) : (s.writeCtrl w).res1 = s.res1 := rfl
@[simp] theorem State.writeCtrl_res2 (w : Word) : (s.writeCtrl w).res2 = s.res2 := rfl
@[simp] theorem State.writeCtrl_errInfo (w : Word) : (s.writeCtrl w).errInfo = s.errInfo := rfl
@[simp] theorem State.writeCtrl_ftCount (w : Word) : (s.writeCtrl w).ftCount = s.ftCount := rfl
@[simp] theorem State.writeCtrl_ftTotal (w : Word) : (s.writeCtrl w).ftTotal = s.ftTotal := rfl
@[simp] theorem State.writeCtrl_root (w : Word) : (s.writeCtrl w).root = s.root := rfl
@[simp] theorem State.writeCtrl_nodeCount (w : Word) : (s.writeCtrl w).nodeCount = s.nodeCount := rfl
@[simp] theorem State.writeCtrl_binLen (w : Word) : (s.writeCtrl w).binLen = s.binLen := rfl
@[simp] theorem State.writeCtrl_soutLen (w : Word) : (s.writeCtrl w).soutLen = s.soutLen := rfl
@[simp] theorem State.writeCtrl_decTrail (w : Word) : (s.writeCtrl w).decTrail = s.decTrail := rfl
@[simp] theorem State.writeCtrl_pending (w : Word) : (s.writeCtrl w).pending = s.pending := rfl
@[simp] theorem State.writeCtrl_ft (w : Word) : (s.writeCtrl w).ft = s.ft := rfl
@[simp] theorem State.writeCtrl_node (w : Word) : (s.writeCtrl w).node = s.node := rfl
@[simp] theorem State.writeCtrl_bin (w : Word) : (s.writeCtrl w).bin = s.bin := rfl
@[simp] theorem State.writeCtrl_sout (w : Word) : (s.writeCtrl w).sout = s.sout := rfl
@[simp] theorem State.writeCtrl_host (w : Word) : (s.writeCtrl w).host = s.host := rfl
@[simp] theorem State.writeCtrl_schedule (w : Word) : (s.writeCtrl w).schedule = s.schedule := rfl
@[simp] theorem State.writeCtrl_draws (w : Word) : (s.writeCtrl w).draws = s.draws := rfl

/-! Fields after the turn taken. -/

@[simp] theorem State.takeTurn_cfg : s.takeTurn.cfg = s.cfg := rfl
@[simp] theorem State.takeTurn_irqEn : s.takeTurn.irqEn = s.irqEn := rfl
@[simp] theorem State.takeTurn_busy : s.takeTurn.busy = s.busy := rfl
@[simp] theorem State.takeTurn_done : s.takeTurn.done = s.done := rfl
@[simp] theorem State.takeTurn_overrun : s.takeTurn.overrun = s.overrun := rfl
@[simp] theorem State.takeTurn_treeValid : s.takeTurn.treeValid = s.treeValid := rfl
@[simp] theorem State.takeTurn_errCode : s.takeTurn.errCode = s.errCode := rfl
@[simp] theorem State.takeTurn_arg0 : s.takeTurn.arg0 = s.arg0 := rfl
@[simp] theorem State.takeTurn_res0 : s.takeTurn.res0 = s.res0 := rfl
@[simp] theorem State.takeTurn_res1 : s.takeTurn.res1 = s.res1 := rfl
@[simp] theorem State.takeTurn_res2 : s.takeTurn.res2 = s.res2 := rfl
@[simp] theorem State.takeTurn_errInfo : s.takeTurn.errInfo = s.errInfo := rfl
@[simp] theorem State.takeTurn_ftCount : s.takeTurn.ftCount = s.ftCount := rfl
@[simp] theorem State.takeTurn_ftTotal : s.takeTurn.ftTotal = s.ftTotal := rfl
@[simp] theorem State.takeTurn_root : s.takeTurn.root = s.root := rfl
@[simp] theorem State.takeTurn_nodeCount : s.takeTurn.nodeCount = s.nodeCount := rfl
@[simp] theorem State.takeTurn_binLen : s.takeTurn.binLen = s.binLen := rfl
@[simp] theorem State.takeTurn_soutLen : s.takeTurn.soutLen = s.soutLen := rfl
@[simp] theorem State.takeTurn_decTrail : s.takeTurn.decTrail = s.decTrail := rfl
@[simp] theorem State.takeTurn_pending : s.takeTurn.pending = s.pending := rfl
@[simp] theorem State.takeTurn_ft : s.takeTurn.ft = s.ft := rfl
@[simp] theorem State.takeTurn_node : s.takeTurn.node = s.node := rfl
@[simp] theorem State.takeTurn_bin : s.takeTurn.bin = s.bin := rfl
@[simp] theorem State.takeTurn_sout : s.takeTurn.sout = s.sout := rfl
@[simp] theorem State.takeTurn_host : s.takeTurn.host = s.host := rfl
@[simp] theorem State.takeTurn_schedule : s.takeTurn.schedule = s.schedule.tail := rfl
@[simp] theorem State.takeTurn_draws : s.takeTurn.draws = s.draws := rfl

/-! Fields after another host. -/

@[simp] theorem State.withHost_cfg (h : HostAgent) : (s.withHost h).cfg = s.cfg := rfl
@[simp] theorem State.withHost_irqEn (h : HostAgent) : (s.withHost h).irqEn = s.irqEn := rfl
@[simp] theorem State.withHost_busy (h : HostAgent) : (s.withHost h).busy = s.busy := rfl
@[simp] theorem State.withHost_done (h : HostAgent) : (s.withHost h).done = s.done := rfl
@[simp] theorem State.withHost_overrun (h : HostAgent) : (s.withHost h).overrun = s.overrun := rfl
@[simp] theorem State.withHost_treeValid (h : HostAgent) : (s.withHost h).treeValid = s.treeValid := rfl
@[simp] theorem State.withHost_errCode (h : HostAgent) : (s.withHost h).errCode = s.errCode := rfl
@[simp] theorem State.withHost_arg0 (h : HostAgent) : (s.withHost h).arg0 = s.arg0 := rfl
@[simp] theorem State.withHost_res0 (h : HostAgent) : (s.withHost h).res0 = s.res0 := rfl
@[simp] theorem State.withHost_res1 (h : HostAgent) : (s.withHost h).res1 = s.res1 := rfl
@[simp] theorem State.withHost_res2 (h : HostAgent) : (s.withHost h).res2 = s.res2 := rfl
@[simp] theorem State.withHost_errInfo (h : HostAgent) : (s.withHost h).errInfo = s.errInfo := rfl
@[simp] theorem State.withHost_ftCount (h : HostAgent) : (s.withHost h).ftCount = s.ftCount := rfl
@[simp] theorem State.withHost_ftTotal (h : HostAgent) : (s.withHost h).ftTotal = s.ftTotal := rfl
@[simp] theorem State.withHost_root (h : HostAgent) : (s.withHost h).root = s.root := rfl
@[simp] theorem State.withHost_nodeCount (h : HostAgent) : (s.withHost h).nodeCount = s.nodeCount := rfl
@[simp] theorem State.withHost_binLen (h : HostAgent) : (s.withHost h).binLen = s.binLen := rfl
@[simp] theorem State.withHost_soutLen (h : HostAgent) : (s.withHost h).soutLen = s.soutLen := rfl
@[simp] theorem State.withHost_decTrail (h : HostAgent) : (s.withHost h).decTrail = s.decTrail := rfl
@[simp] theorem State.withHost_pending (h : HostAgent) : (s.withHost h).pending = s.pending := rfl
@[simp] theorem State.withHost_ft (h : HostAgent) : (s.withHost h).ft = s.ft := rfl
@[simp] theorem State.withHost_node (h : HostAgent) : (s.withHost h).node = s.node := rfl
@[simp] theorem State.withHost_bin (h : HostAgent) : (s.withHost h).bin = s.bin := rfl
@[simp] theorem State.withHost_sout (h : HostAgent) : (s.withHost h).sout = s.sout := rfl
@[simp] theorem State.withHost_host (h : HostAgent) : (s.withHost h).host = h := rfl
@[simp] theorem State.withHost_schedule (h : HostAgent) : (s.withHost h).schedule = s.schedule := rfl
@[simp] theorem State.withHost_draws (h : HostAgent) : (s.withHost h).draws = s.draws := rfl

/-! Fields after a command placed. -/

@[simp] theorem State.placeCommand_cfg (w : Word) : (s.placeCommand w).cfg = s.cfg := rfl
@[simp] theorem State.placeCommand_irqEn (w : Word) : (s.placeCommand w).irqEn = s.irqEn := rfl
@[simp] theorem State.placeCommand_busy (w : Word) : (s.placeCommand w).busy = true := rfl
@[simp] theorem State.placeCommand_done (w : Word) : (s.placeCommand w).done = false := rfl
@[simp] theorem State.placeCommand_overrun (w : Word) : (s.placeCommand w).overrun = s.overrun := rfl
@[simp] theorem State.placeCommand_treeValid (w : Word) : (s.placeCommand w).treeValid = s.treeValid := rfl
@[simp] theorem State.placeCommand_errCode (w : Word) : (s.placeCommand w).errCode = s.errCode := rfl
@[simp] theorem State.placeCommand_arg0 (w : Word) : (s.placeCommand w).arg0 = s.arg0 := rfl
@[simp] theorem State.placeCommand_res0 (w : Word) : (s.placeCommand w).res0 = s.res0 := rfl
@[simp] theorem State.placeCommand_res1 (w : Word) : (s.placeCommand w).res1 = s.res1 := rfl
@[simp] theorem State.placeCommand_res2 (w : Word) : (s.placeCommand w).res2 = s.res2 := rfl
@[simp] theorem State.placeCommand_errInfo (w : Word) : (s.placeCommand w).errInfo = s.errInfo := rfl
@[simp] theorem State.placeCommand_ftCount (w : Word) : (s.placeCommand w).ftCount = s.ftCount := rfl
@[simp] theorem State.placeCommand_ftTotal (w : Word) : (s.placeCommand w).ftTotal = s.ftTotal := rfl
@[simp] theorem State.placeCommand_root (w : Word) : (s.placeCommand w).root = s.root := rfl
@[simp] theorem State.placeCommand_nodeCount (w : Word) : (s.placeCommand w).nodeCount = s.nodeCount := rfl
@[simp] theorem State.placeCommand_binLen (w : Word) : (s.placeCommand w).binLen = s.binLen := rfl
@[simp] theorem State.placeCommand_soutLen (w : Word) : (s.placeCommand w).soutLen = s.soutLen := rfl
@[simp] theorem State.placeCommand_decTrail (w : Word) : (s.placeCommand w).decTrail = s.decTrail := rfl
@[simp] theorem State.placeCommand_pending (w : Word) : (s.placeCommand w).pending = some { word := w, arg := s.arg0 } := rfl
@[simp] theorem State.placeCommand_ft (w : Word) : (s.placeCommand w).ft = s.ft := rfl
@[simp] theorem State.placeCommand_node (w : Word) : (s.placeCommand w).node = s.node := rfl
@[simp] theorem State.placeCommand_bin (w : Word) : (s.placeCommand w).bin = s.bin := rfl
@[simp] theorem State.placeCommand_sout (w : Word) : (s.placeCommand w).sout = s.sout := rfl
@[simp] theorem State.placeCommand_host (w : Word) : (s.placeCommand w).host = s.host := rfl
@[simp] theorem State.placeCommand_schedule (w : Word) : (s.placeCommand w).schedule = .engine :: s.schedule := rfl
@[simp] theorem State.placeCommand_draws (w : Word) : (s.placeCommand w).draws = s.draws := rfl

/-! Fields after the reset input (70_reset_and_hazards.md R230). -/

@[simp] theorem State.hardReset_cfg : s.hardReset.cfg = s.cfg := rfl
@[simp] theorem State.hardReset_irqEn : s.hardReset.irqEn = false := rfl
@[simp] theorem State.hardReset_busy : s.hardReset.busy = false := rfl
@[simp] theorem State.hardReset_done : s.hardReset.done = false := rfl
@[simp] theorem State.hardReset_overrun : s.hardReset.overrun = false := rfl
@[simp] theorem State.hardReset_treeValid : s.hardReset.treeValid = false := rfl
@[simp] theorem State.hardReset_errCode : s.hardReset.errCode = .ok := rfl
@[simp] theorem State.hardReset_arg0 : s.hardReset.arg0 = 0 := rfl
@[simp] theorem State.hardReset_res0 : s.hardReset.res0 = 0 := rfl
@[simp] theorem State.hardReset_res1 : s.hardReset.res1 = 0 := rfl
@[simp] theorem State.hardReset_res2 : s.hardReset.res2 = 0 := rfl
@[simp] theorem State.hardReset_errInfo : s.hardReset.errInfo = 0 := rfl
@[simp] theorem State.hardReset_ftCount : s.hardReset.ftCount = 0 := rfl
@[simp] theorem State.hardReset_ftTotal : s.hardReset.ftTotal = 0 := rfl
@[simp] theorem State.hardReset_root : s.hardReset.root = 0 := rfl
@[simp] theorem State.hardReset_nodeCount : s.hardReset.nodeCount = 0 := rfl
@[simp] theorem State.hardReset_binLen : s.hardReset.binLen = 0 := rfl
@[simp] theorem State.hardReset_soutLen : s.hardReset.soutLen = 0 := rfl
@[simp] theorem State.hardReset_decTrail : s.hardReset.decTrail = 0 := rfl
@[simp] theorem State.hardReset_pending : s.hardReset.pending = none := rfl
@[simp] theorem State.hardReset_ft : s.hardReset.ft = s.ft := rfl
@[simp] theorem State.hardReset_node : s.hardReset.node = s.node := rfl
@[simp] theorem State.hardReset_bin : s.hardReset.bin = s.bin := rfl
@[simp] theorem State.hardReset_sout : s.hardReset.sout = s.sout := rfl
@[simp] theorem State.hardReset_host : s.hardReset.host = s.host := rfl
@[simp] theorem State.hardReset_schedule : s.hardReset.schedule = s.schedule := rfl
@[simp] theorem State.hardReset_draws : s.hardReset.draws = s.draws := rfl

end Sys2Proof.Machine
end

