-- ==== Sys2Proof/Laws/Ops.lean ====
section
/-! SUPPORT. What each shared operation can do, said once: the end of a command, the bounded accesses, and the facts
about sizes that keep every count and index in its register. -/

namespace Sys2Proof.Machine

/-! ### Sizes -/

theorem nMax_pos (p : Config.Params) : 1 ≤ p.nMax := by simp [Config.Params.nMax]

theorem nMax_le (p : Config.Params) : p.nMax ≤ 32767 := by
  have := p.sizeN.isLt; simp only [Config.Params.nMax]; omega

theorem lMax_pos (p : Config.Params) : 1 ≤ p.lMax := by simp [Config.Params.lMax]

theorem lMax_le (p : Config.Params) : p.lMax ≤ 65535 := by
  have := p.sizeL.isLt; simp only [Config.Params.lMax]; omega

theorem nodeMax_eq (p : Config.Params) : p.nodeMax = 2 * p.nMax - 1 := rfl

theorem toNat_ofNat32 {n : Nat} (h : n < 4294967296) : (BitVec.ofNat 32 n).toNat = n := by
  simp only [BitVec.toNat_ofNat]; omega

theorem toNat_ofNat16 {n : Nat} (h : n < 65536) : (BitVec.ofNat 16 n).toNat = n := by
  simp only [BitVec.toNat_ofNat]; omega

/-- A sum that fits the register does not wrap (41_freq_table.md R122). -/
theorem toNat_add_of_lt {a b : Word} (h : a.toNat + b.toNat < 4294967296) : (a + b).toNat = a.toNat + b.toNat := by
  rw [BitVec.toNat_add]; omega

theorem toNat_zextHalf (x : Half) : (zextHalf x).toNat = x.toNat := by
  have := x.isLt
  simp only [zextHalf, BitVec.zeroExtend_eq_setWidth, BitVec.toNat_setWidth]; omega

theorem toNat_idxOperand (x : Half) : (idxOperand x).toNat = x.toNat := toNat_zextHalf x

/-! ### The end of a command -/

@[simp] theorem finish_ok (s t : State) : finish s (.ok t) = .next t.complete := rfl

@[simp] theorem finish_raise (s : State) (c : ErrCode) (x : Word) :
    finish s (.error (.error c x)) = .next (s.raiseError c x) := rfl

@[simp] theorem finish_fault (s : State) (f : Fault) : finish s (.error (.fault f)) = .fault f := rfl

@[simp] theorem raise_def {α : Type} (c : ErrCode) (x : Word) :
    (Cmd.raise c x : Cmd α) = .error (.error c x) := rfl

@[simp] theorem cmd_bind_ok {α β : Type} (a : α) (f : α → Cmd β) : (Except.ok a : Cmd α) >>= f = f a := rfl

@[simp] theorem cmd_bind_error {α β : Type} (e : Stop) (f : α → Cmd β) :
    (Except.error e : Cmd α) >>= f = Except.error e := rfl

@[simp] theorem cmd_pure {α : Type} (a : α) : (pure a : Cmd α) = .ok a := rfl

/-- A sequence that succeeds has a first part that succeeds. -/
theorem cmd_bind_eq_ok {α β : Type} {x : Cmd α} {f : α → Cmd β} {b : β} :
    x >>= f = .ok b ↔ ∃ a, x = .ok a ∧ f a = .ok b := by
  cases x <;> simp

/-- A sequence that stops does so in its first part, or after it. -/
theorem cmd_bind_eq_error {α β : Type} {x : Cmd α} {f : α → Cmd β} {e : Stop} :
    x >>= f = .error e ↔ x = .error e ∨ ∃ a, x = .ok a ∧ f a = .error e := by
  cases x <;> simp

/-- A command that answers a next state has completed the state its body made, or raised an error on the state given for
a failure. -/
theorem finish_next {s t : State} {r : Cmd State} (h : finish s r = .next t) :
    (∃ u, r = .ok u ∧ t = u.complete) ∨ (∃ c x, r = .error (.error c x) ∧ t = s.raiseError c x) := by
  match r, h with
  | .ok u, h => exact .inl ⟨u, rfl, by simpa using h.symm⟩
  | .error (.error c x), h => exact .inr ⟨c, x, rfl, by simpa using h.symm⟩

/-- No command is refused. -/
theorem finish_not_refused (s : State) (r : Cmd State) (x : Refusal) : finish s r ≠ .refused x := by
  match r with
  | .ok _ => simp
  | .error (.error _ _) => simp
  | .error (.fault _) => simp

/-- A command answers a next state exactly when its body does not stop on a missing entry. -/
theorem finish_of_no_fault (s : State) (r : Cmd State) (h : ∀ f, r ≠ .error (.fault f)) :
    ∃ t, finish s r = .next t := by
  match r, h with
  | .ok u, _ => exact ⟨_, rfl⟩
  | .error (.error c x), _ => exact ⟨_, rfl⟩
  | .error (.fault f), h => exact absurd rfl (h f)

/-! ### Bounded accesses -/

@[simp] theorem needEntry_of_lt {sp : Space} {size i : Nat} (h : i < size) : Cmd.needEntry sp size i = .ok () := by
  simp [Cmd.needEntry, h]

@[simp] theorem needPrefix_of_le {sp : Space} {size n : Nat} (h : n ≤ size) : Cmd.needPrefix sp size n = .ok () := by
  simp [Cmd.needPrefix, h]

theorem needEntry_eq_ok {sp : Space} {size i : Nat} : Cmd.needEntry sp size i = .ok () ↔ i < size := by
  unfold Cmd.needEntry; split <;> simp_all

theorem needPrefix_eq_ok {sp : Space} {size n : Nat} : Cmd.needPrefix sp size n = .ok () ↔ n ≤ size := by
  unfold Cmd.needPrefix; split <;> simp_all

theorem needEntry_ne_raise {sp : Space} {size i : Nat} {c : ErrCode} {x : Word} :
    Cmd.needEntry sp size i ≠ .error (.error c x) := by
  unfold Cmd.needEntry; split <;> simp

theorem needPrefix_ne_raise {sp : Space} {size n : Nat} {c : ErrCode} {x : Word} :
    Cmd.needPrefix sp size n ≠ .error (.error c x) := by
  unfold Cmd.needPrefix; split <;> simp

@[simp] theorem readFt_of_lt {s : State} {i : Nat} (h : i < s.cfg.nMax) : readFt s i = .ok (s.ftAt i) := by
  simp [readFt, h]

@[simp] theorem readNode_of_lt {s : State} {i : Nat} (h : i < s.cfg.nodeMax) : readNode s i = .ok (s.nodeAt i) := by
  simp [readNode, h]

@[simp] theorem readSout_of_lt {s : State} {j : Nat} (h : j < s.cfg.lMax) : readSout s j = .ok (s.soutAt j) := by
  simp [readSout, h]

@[simp] theorem readFtEntries_of_le {s : State} (h : s.ftCount.toNat ≤ s.cfg.nMax) :
    readFtEntries s = .ok s.ftEntries := by simp [readFtEntries, h]

@[simp] theorem readBinChars_of_le {s : State} (h : s.binLen.toNat ≤ s.cfg.lMax) :
    readBinChars s = .ok s.binChars := by simp [readBinChars, h]

@[simp] theorem writeFt_of_lt {s : State} {i : Nat} {e : FtEntry} (h : i < s.cfg.nMax) :
    writeFt s i e = .ok { s with ft := Memory.set FtEntry.blank s.ft i e } := by simp [writeFt, h]

@[simp] theorem writeBin_of_lt {s : State} {j : Nat} {c : Half} (h : j < s.cfg.lMax) :
    writeBin s j c = .ok { s with bin := Memory.set blankHalf s.bin j c } := by simp [writeBin, h]

@[simp] theorem writeNodes_of_le {s : State} {ns : List Node} (h : ns.length ≤ s.cfg.nodeMax) :
    writeNodes s ns = .ok { s with node := Memory.setAll Node.blank s.node 0 ns } := by simp [writeNodes, h]

@[simp] theorem writeSout_of_le {s : State} {xs : List Half} (h : xs.length ≤ s.cfg.lMax) :
    writeSout s xs = .ok { s with sout := Memory.setAll blankHalf s.sout 0 xs } := by simp [writeSout, h]

theorem readFt_eq_ok {s : State} {i : Nat} {e : FtEntry} :
    readFt s i = .ok e ↔ i < s.cfg.nMax ∧ e = s.ftAt i := by
  by_cases h : i < s.cfg.nMax <;> simp [readFt, Cmd.needEntry, h, eq_comm]

theorem readNode_eq_ok {s : State} {i : Nat} {n : Node} :
    readNode s i = .ok n ↔ i < s.cfg.nodeMax ∧ n = s.nodeAt i := by
  by_cases h : i < s.cfg.nodeMax <;> simp [readNode, Cmd.needEntry, h, eq_comm]

theorem readSout_eq_ok {s : State} {j : Nat} {x : Half} :
    readSout s j = .ok x ↔ j < s.cfg.lMax ∧ x = s.soutAt j := by
  by_cases h : j < s.cfg.lMax <;> simp [readSout, Cmd.needEntry, h, eq_comm]

theorem readFtEntries_eq_ok {s : State} {es : List FtEntry} :
    readFtEntries s = .ok es ↔ s.ftCount.toNat ≤ s.cfg.nMax ∧ es = s.ftEntries := by
  by_cases h : s.ftCount.toNat ≤ s.cfg.nMax <;> simp [readFtEntries, Cmd.needPrefix, h, eq_comm]

theorem readBinChars_eq_ok {s : State} {cs : List Half} :
    readBinChars s = .ok cs ↔ s.binLen.toNat ≤ s.cfg.lMax ∧ cs = s.binChars := by
  by_cases h : s.binLen.toNat ≤ s.cfg.lMax <;> simp [readBinChars, Cmd.needPrefix, h, eq_comm]

theorem writeFt_eq_ok {s t : State} {i : Nat} {e : FtEntry} :
    writeFt s i e = .ok t ↔ i < s.cfg.nMax ∧ t = { s with ft := Memory.set FtEntry.blank s.ft i e } := by
  by_cases h : i < s.cfg.nMax <;> simp [writeFt, Cmd.needEntry, h, eq_comm]

theorem writeBin_eq_ok {s t : State} {j : Nat} {c : Half} :
    writeBin s j c = .ok t ↔ j < s.cfg.lMax ∧ t = { s with bin := Memory.set blankHalf s.bin j c } := by
  by_cases h : j < s.cfg.lMax <;> simp [writeBin, Cmd.needEntry, h, eq_comm]

theorem writeNodes_eq_ok {s t : State} {ns : List Node} :
    writeNodes s ns = .ok t ↔
      ns.length ≤ s.cfg.nodeMax ∧ t = { s with node := Memory.setAll Node.blank s.node 0 ns } := by
  by_cases h : ns.length ≤ s.cfg.nodeMax <;> simp [writeNodes, Cmd.needPrefix, h, eq_comm]

theorem writeSout_eq_ok {s t : State} {xs : List Half} :
    writeSout s xs = .ok t ↔
      xs.length ≤ s.cfg.lMax ∧ t = { s with sout := Memory.setAll blankHalf s.sout 0 xs } := by
  by_cases h : xs.length ≤ s.cfg.lMax <;> simp [writeSout, Cmd.needPrefix, h, eq_comm]

/-! ### The valid entries as lists -/

@[simp] theorem length_ftEntries (s : State) : s.ftEntries.length = s.ftCount.toNat := Memory.length_slice _ _ _

@[simp] theorem length_nodes (s : State) : s.nodes.length = s.nodeCount.toNat := Memory.length_slice _ _ _

@[simp] theorem length_binChars (s : State) : s.binChars.length = s.binLen.toNat := Memory.length_slice _ _ _

@[simp] theorem length_soutSyms (s : State) : s.soutSyms.length = s.soutLen.toNat := Memory.length_slice _ _ _

theorem getElem_ftEntries (s : State) (i : Nat) (h : i < s.ftEntries.length) : s.ftEntries[i] = s.ftAt i :=
  Memory.getElem_slice _ _ _ _ _

theorem getElem_nodes (s : State) (n : Nat) (h : n < s.nodes.length) : s.nodes[n] = s.nodeAt n :=
  Memory.getElem_slice _ _ _ _ _

theorem getElem_binChars (s : State) (j : Nat) (h : j < s.binChars.length) : s.binChars[j] = s.binAt j :=
  Memory.getElem_slice _ _ _ _ _

theorem getElem_soutSyms (s : State) (j : Nat) (h : j < s.soutSyms.length) : s.soutSyms[j] = s.soutAt j :=
  Memory.getElem_slice _ _ _ _ _

/-- A node below NODE_COUNT, read from the list of valid nodes. -/
theorem arenaAt_nodes (s : State) {n : Nat} (h : n < s.nodeCount.toNat) : arenaAt s.nodes n = s.nodeAt n := by
  have h' : n < s.nodes.length := by simpa using h
  simp only [arenaAt, List.getD_eq_getElem?_getD, List.getElem?_eq_getElem h', Option.getD_some]
  exact getElem_nodes s n h'

end Sys2Proof.Machine
end

