-- ==== Sys2Proof/Laws/Commands.lean ====
section
/-! SUPPORT. For each command, everything its pseudocode can do: what it leaves where it succeeds, in one lemma per body,
which later proofs cite instead of unfolding it. -/

namespace Sys2Proof.Machine

/-! ### Searching the table -/

theorem findSym_eq_some {entries : List FtEntry} {sym : Half} {i : Nat} (h : findSym entries sym = some i) :
    ∃ hi : i < entries.length, entries[i].sym = sym ∧ ∀ j (hj : j < i), entries[j].sym ≠ sym := by
  simp only [findSym, List.findIdx?_eq_some_iff_getElem] at h
  obtain ⟨hi, h1, h2⟩ := h
  exact ⟨hi, by simpa using h1, fun j hj => by simpa using h2 j hj⟩

theorem findSym_eq_none {entries : List FtEntry} {sym : Half} :
    findSym entries sym = none ↔ ∀ e ∈ entries, e.sym ≠ sym := by
  simp [findSym, List.findIdx?_eq_none_iff]

theorem forall_ftEntries {s : State} {P : FtEntry → Prop} :
    (∀ e ∈ s.ftEntries, P e) ↔ ∀ i < s.ftCount.toNat, P (s.ftAt i) := by
  simp only [State.ftEntries, Memory.slice, List.mem_map, List.mem_range, State.ftAt]
  constructor
  · intro h i hi; exact h _ ⟨i, hi, rfl⟩
  · rintro h _ ⟨i, hi, rfl⟩; exact h i hi

/-! ### FREQ_ADD -/

/-- The checks of FREQ_ADD pass exactly when the table is unlocked, the symbol has or can get an entry, and the total
fits. -/
theorem freqAddChecks_eq_ok {sym : Half} {inc : Word} {s : State} {found : Option Nat} :
    freqAddChecks sym inc s = .ok found ↔
      s.treeValid = false ∧ s.ftCount.toNat ≤ s.cfg.nMax ∧ found = findSym s.ftEntries sym ∧
      ¬ (found = none ∧ s.ftCount.toNat = s.cfg.nMax) ∧ s.ftTotal.toNat + inc.toNat ≤ maxFreq := by
  unfold freqAddChecks
  by_cases h1 : s.treeValid = true
  · simp [h1]
  · by_cases h2 : s.ftCount.toNat ≤ s.cfg.nMax
    · simp only [h1, readFtEntries_of_le h2, h2, cmd_bind_ok]
      by_cases h3 : findSym s.ftEntries sym = none ∧ s.ftCount.toNat = s.cfg.nMax
      · simp only [h3, and_self, if_true, raise_def]
        constructor
        · intro h; cases h
        · rintro ⟨-, -, rfl, hn, -⟩; exact absurd ⟨rfl, trivial⟩ hn
      · by_cases h4 : maxFreq < s.ftTotal.toNat + inc.toNat
        · simp [h3, h4]
        · simp only [h3, h4, if_false, cmd_pure, Except.ok.injEq, Bool.false_eq_true]
          constructor
          · rintro rfl; exact ⟨by simp, trivial, rfl, h3, by omega⟩
          · rintro ⟨-, -, rfl, -, -⟩; rfl
    · simp [h1, h2, readFtEntries, Cmd.needPrefix]

/-- The table's entry of a FREQ_ADD that succeeds. -/
theorem freqAddEntry_eq_ok {sym : Half} {inc : Word} {found : Option Nat} {s t : State} :
    freqAddEntry sym inc found s = .ok t ↔
      (∃ i, found = some i ∧ i < s.cfg.nMax ∧
        t = { s with ft := Memory.set FtEntry.blank s.ft i { s.ftAt i with freq := (s.ftAt i).freq + inc } }) ∨
      (found = none ∧ s.ftCount.toNat < s.cfg.nMax ∧
        t = { s with ft := Memory.set FtEntry.blank s.ft s.ftCount.toNat { sym := sym, freq := inc },
                     ftCount := s.ftCount + 1 }) := by
  cases found with
  | some i =>
    simp only [freqAddEntry, cmd_bind_eq_ok, readFt_eq_ok, writeFt_eq_ok]
    constructor
    · rintro ⟨e, ⟨h1, rfl⟩, -, rfl⟩; exact .inl ⟨i, rfl, h1, rfl⟩
    · rintro (⟨j, hj, h1, rfl⟩ | ⟨h, -⟩)
      · cases hj; exact ⟨_, ⟨h1, rfl⟩, h1, rfl⟩
      · cases h
  | none =>
    simp only [freqAddEntry, cmd_bind_eq_ok, writeFt_eq_ok, cmd_pure, Except.ok.injEq]
    constructor
    · rintro ⟨u, ⟨h1, rfl⟩, rfl⟩; exact .inr ⟨by trivial, h1, rfl⟩
    · rintro (⟨j, hj, -⟩ | ⟨-, h1, rfl⟩)
      · cases hj
      · exact ⟨_, ⟨h1, rfl⟩, rfl⟩

/-- What a FREQ_ADD that succeeds leaves: the symbol's entry raised, or a new entry. -/
theorem freqAddBody_eq_ok {sym : Half} {inc : Word} {s u : State} (h : freqAddBody sym inc s = .ok u) :
    s.treeValid = false ∧ s.ftCount.toNat ≤ s.cfg.nMax ∧ s.ftTotal.toNat + inc.toNat ≤ maxFreq ∧
    ((∃ i, findSym s.ftEntries sym = some i ∧ i < s.ftCount.toNat ∧ (s.ftAt i).sym = sym ∧
        u = { s with
          ft := Memory.set FtEntry.blank s.ft i { s.ftAt i with freq := (s.ftAt i).freq + inc },
          ftTotal := s.ftTotal + inc }) ∨
      (findSym s.ftEntries sym = none ∧ s.ftCount.toNat < s.cfg.nMax ∧
        u = { s with
          ft := Memory.set FtEntry.blank s.ft s.ftCount.toNat { sym := sym, freq := inc },
          ftCount := s.ftCount + 1, ftTotal := s.ftTotal + inc })) := by
  simp only [freqAddBody, cmd_bind_eq_ok, cmd_pure, Except.ok.injEq] at h
  obtain ⟨found, hc, t, ht, rfl⟩ := h
  obtain ⟨h1, h2, rfl, h3, h4⟩ := freqAddChecks_eq_ok.mp hc
  refine ⟨h1, h2, h4, ?_⟩
  rcases freqAddEntry_eq_ok.mp ht with ⟨i, hi, hlt, rfl⟩ | ⟨hn, hlt, rfl⟩
  · obtain ⟨hl, hs, -⟩ := findSym_eq_some hi
    rw [getElem_ftEntries] at hs
    exact .inl ⟨i, hi, by simpa using hl, hs, rfl⟩
  · exact .inr ⟨hn, hlt, rfl⟩

/-! ### The read commands, DEC_PUSH and BUILD -/

theorem freqReadBody_eq_ok {idx : Word} {s u : State} (h : freqReadBody idx s = .ok u) :
    idx.toNat < s.ftCount.toNat ∧ idx.toNat < s.cfg.nMax ∧
    u = { s with res0 := zextHalf (s.ftAt idx.toNat).sym, res1 := (s.ftAt idx.toNat).freq } := by
  unfold freqReadBody at h
  by_cases h1 : s.ftCount.toNat ≤ idx.toNat
  · simp [h1] at h
  · simp only [h1, if_false, cmd_bind_eq_ok, readFt_eq_ok, cmd_pure, Except.ok.injEq] at h
    obtain ⟨e, ⟨h2, rfl⟩, rfl⟩ := h
    exact ⟨by omega, h2, rfl⟩

theorem nodeReadBody_eq_ok {idx : Word} {s u : State} (h : nodeReadBody idx s = .ok u) :
    s.treeValid = true ∧ idx.toNat < s.nodeCount.toNat ∧ idx.toNat < s.cfg.nodeMax ∧
    u = { s with
      res0 := (s.nodeAt idx.toNat).freq, res1 := (s.nodeAt idx.toNat).kindWord,
      res2 := (s.nodeAt idx.toNat).childrenWord } := by
  unfold nodeReadBody at h
  by_cases h0 : s.treeValid = true
  · by_cases h1 : s.nodeCount.toNat ≤ idx.toNat
    · simp [h0, h1] at h
    · simp only [h0, h1, Bool.true_eq_false, if_false, cmd_bind_eq_ok, readNode_eq_ok, cmd_pure, Except.ok.injEq] at h
      obtain ⟨n, ⟨h2, rfl⟩, rfl⟩ := h
      exact ⟨h0, by omega, h2, by rw [h0]⟩
  · simp [h0] at h

theorem decReadBody_eq_ok {idx : Word} {s u : State} (h : decReadBody idx s = .ok u) :
    idx.toNat < s.soutLen.toNat ∧ idx.toNat < s.cfg.lMax ∧
    u = { s with res0 := zextHalf (s.soutAt idx.toNat) } := by
  unfold decReadBody at h
  by_cases h1 : s.soutLen.toNat ≤ idx.toNat
  · simp [h1] at h
  · simp only [h1, if_false, cmd_bind_eq_ok, readSout_eq_ok, cmd_pure, Except.ok.injEq] at h
    obtain ⟨e, ⟨h2, rfl⟩, rfl⟩ := h
    exact ⟨by omega, h2, rfl⟩

theorem decPushBody_eq_ok {ch : Half} {s u : State} (h : decPushBody ch s = .ok u) :
    s.binLen.toNat < s.cfg.lMax ∧
    u = { s with bin := Memory.set blankHalf s.bin s.binLen.toNat ch, binLen := s.binLen + 1 } := by
  unfold decPushBody at h
  by_cases h1 : s.binLen.toNat = s.cfg.lMax
  · simp [h1] at h
  · simp only [h1, if_false, cmd_bind_eq_ok, writeBin_eq_ok, cmd_pure, Except.ok.injEq] at h
    obtain ⟨t, ⟨h2, rfl⟩, rfl⟩ := h
    exact ⟨h2, rfl⟩

theorem buildBody_eq_ok {s u : State} (h : buildBody s = .ok u) :
    0 < s.ftCount.toNat ∧ s.ftCount.toNat ≤ s.cfg.nMax ∧ (buildArena s.ftEntries).length ≤ s.cfg.nodeMax ∧
    u = { s with
      node := Memory.setAll Node.blank s.node 0 (buildArena s.ftEntries),
      root := BitVec.ofNat 32 (2 * s.ftCount.toNat - 2),
      nodeCount := BitVec.ofNat 32 (2 * s.ftCount.toNat - 1), treeValid := true } := by
  unfold buildBody at h
  by_cases h1 : s.ftCount.toNat = 0
  · simp [h1] at h
  · simp only [h1, if_false, cmd_bind_eq_ok, readFtEntries_eq_ok, writeNodes_eq_ok, cmd_pure, Except.ok.injEq] at h
    obtain ⟨es, ⟨h2, rfl⟩, t, ⟨h3, rfl⟩, rfl⟩ := h
    exact ⟨by omega, h2, h3, rfl⟩

/-! ### DECODE -/

theorem decodeBody_eq_ok {s u : State} (h : decodeBody s = .ok u) :
    s.treeValid = true ∧ s.binLen.toNat ≤ s.cfg.lMax ∧
    ∃ bits w, validateFrom 0 s.binChars = .ok bits ∧ walkFrom s 0 bits s.walkStart = .ok w ∧
      ¬ (0 < bits.length ∧ w.out.length = 0) ∧ w.out.length ≤ s.cfg.lMax ∧
      u = { s with
        sout := Memory.setAll blankHalf s.sout 0 w.out, soutLen := BitVec.ofNat 32 w.out.length,
        decTrail := BitVec.ofNat 32 (bits.length - w.last) } := by
  unfold decodeBody at h
  by_cases h0 : s.treeValid = true
  · simp only [h0, Bool.true_eq_false, if_false, cmd_bind_eq_ok, readBinChars_eq_ok] at h
    obtain ⟨cs, ⟨h1, rfl⟩, bits, h2, w, h3, h⟩ := h
    by_cases h4 : 0 < bits.length ∧ w.out.length = 0
    · simp [h4] at h
    · simp only [h4, if_false, cmd_bind_eq_ok, writeSout_eq_ok, cmd_pure, Except.ok.injEq] at h
      obtain ⟨t, ⟨h5, rfl⟩, rfl⟩ := h
      exact ⟨h0, h1, bits, w, h2, h3, h4, h5, rfl⟩
  · simp [h0] at h

end Sys2Proof.Machine
end

