-- ==== Sys2Proof/Laws/Builder.lean ====
section
/-! SUPPORT. What the merge engine does (42_builder.md R142–R146): the key order is strict and total, the least element
is extracted, each merge appends one node, and the whole run of merges in one lemma, `mergeLoop_run`. -/

namespace Sys2Proof.Machine

/-! ### The key order -/

theorem keyLt_iff {a b : Nat × Nat × Nat} :
    keyLt a b = true ↔ a.1 < b.1 ∨ (a.1 = b.1 ∧ (a.2.1 < b.2.1 ∨ (a.2.1 = b.2.1 ∧ a.2.2 < b.2.2))) := by
  simp [keyLt]

theorem keyLt_trans {a b c : Nat × Nat × Nat} (h1 : keyLt a b = true) (h2 : keyLt b c = true) : keyLt a c = true := by
  rw [keyLt_iff] at *; omega

theorem keyLt_total {a b : Nat × Nat × Nat} (h : a.2.2 ≠ b.2.2) (h1 : ¬ keyLt a b = true) : keyLt b a = true := by
  rw [keyLt_iff] at *; omega

theorem keyLt_asymm {a b : Nat × Nat × Nat} (h : keyLt a b = true) : ¬ keyLt b a = true := by
  rw [keyLt_iff] at *; omega

@[simp] theorem keyOf_index (arena : List Node) (n : Nat) : (keyOf arena n).2.2 = n := rfl

/-! ### Nodes of a grown arena -/

theorem arenaAt_append_left {arena : List Node} {n : Nat} (h : n < arena.length) (more : List Node) :
    arenaAt (arena ++ more) n = arenaAt arena n := by
  simp [arenaAt, List.getD_eq_getElem?_getD, List.getElem?_append_left h]

theorem arenaAt_getElem {arena : List Node} {n : Nat} (h : n < arena.length) : arenaAt arena n = arena[n] := by
  simp [arenaAt, List.getD_eq_getElem?_getD, List.getElem?_eq_getElem h]

theorem arenaAt_append_length (arena : List Node) (x : Node) (more : List Node) :
    arenaAt (arena ++ x :: more) arena.length = x := by
  simp [arenaAt, List.getD_eq_getElem?_getD]

theorem keyOf_append_left {arena : List Node} {n : Nat} (h : n < arena.length) (more : List Node) :
    keyOf (arena ++ more) n = keyOf arena n := by
  simp [keyOf, arenaAt_append_left h]

theorem mergeNode_append_left {arena : List Node} {m n : Nat} (hm : m < arena.length) (hn : n < arena.length)
    (more : List Node) : mergeNode (arena ++ more) m n = mergeNode arena m n := by
  simp [mergeNode, arenaAt_append_left hm, arenaAt_append_left hn]

/-! ### Extraction -/

/-- `argmin_key` finds the one element of a non-empty collection whose key is least (42_builder.md R143). -/
theorem argminKey_spec (arena : List Node) :
    ∀ {q : List Nat}, q ≠ [] → ∃ e, argminKey arena q = some e ∧ e ∈ q ∧
      ∀ n ∈ q, n ≠ e → keyLt (keyOf arena e) (keyOf arena n) = true
  | [n], _ => ⟨n, rfl, by simp, by simp⟩
  | n :: m :: q, _ => by
    obtain ⟨e, he, hmem, hmin⟩ := argminKey_spec arena (q := m :: q) (by simp)
    by_cases h : keyLt (keyOf arena e) (keyOf arena n) = true
    · refine ⟨e, by rw [argminKey, he]; simp [h], by simp [List.mem_cons] at hmem ⊢; tauto, ?_⟩
      intro x hx hne
      rcases List.mem_cons.mp hx with rfl | hx
      · exact h
      · exact hmin x hx hne
    · refine ⟨n, by rw [argminKey, he]; simp [h], by simp, ?_⟩
      intro x hx hne
      rcases List.mem_cons.mp hx with rfl | hx'
      · exact absurd rfl hne
      · by_cases hen : e = n
        · subst hen; exact hmin x hx' hne
        · have hne' : keyLt (keyOf arena n) (keyOf arena e) = true := keyLt_total (by simpa using hen) h
          by_cases hxe : x = e
          · subst hxe; exact hne'
          · exact keyLt_trans hne' (hmin x hx' hxe)

/-- One merge, where the collection holds two nodes or more (42_builder.md R145). -/
theorem mergeStep_spec {arena : List Node} {q : List Nat} (hq : q.Nodup) (hlen : 2 ≤ q.length) :
    ∃ e1 e2, e1 ∈ q ∧ e2 ∈ q ∧ e1 ≠ e2 ∧
      (∀ n ∈ q, n ≠ e1 → keyLt (keyOf arena e1) (keyOf arena n) = true) ∧
      (∀ n ∈ q, n ≠ e1 → n ≠ e2 → keyLt (keyOf arena e2) (keyOf arena n) = true) ∧
      mergeStep arena q = some (arena ++ [mergeNode arena e1 e2], (q.erase e1).erase e2 ++ [arena.length]) := by
  obtain ⟨e1, h1, hm1, hmin1⟩ := argminKey_spec arena (q := q) (by rintro rfl; simp at hlen)
  have hlen1 : (q.erase e1).length = q.length - 1 := List.length_erase_of_mem hm1
  obtain ⟨e2, h2, hm2, hmin2⟩ := argminKey_spec arena (q := q.erase e1) (by
    intro h; rw [h] at hlen1; simp at hlen1; omega)
  have hmem : ∀ n, n ∈ q.erase e1 ↔ n ≠ e1 ∧ n ∈ q := fun n => hq.mem_erase_iff
  refine ⟨e1, e2, hm1, ((hmem e2).mp hm2).2, fun h => ((hmem e2).mp hm2).1 h.symm, hmin1, ?_, ?_⟩
  · intro n hn h1 h2
    exact hmin2 n ((hmem n).mpr ⟨h1, hn⟩) h2
  · simp [mergeStep, extractMin, h1, h2]

/-- The collection after one merge: still without repeats, one shorter, every index below the arena's new length. -/
theorem nodup_after_merge {q : List Nat} {e1 e2 p : Nat} (hq : q.Nodup) (hlt : ∀ n ∈ q, n < p) :
    ((q.erase e1).erase e2 ++ [p]).Nodup := by
  rw [List.nodup_append]
  refine ⟨(hq.erase e1).erase e2, by simp, ?_⟩
  intro a ha b hb
  simp only [List.mem_singleton] at hb
  subst hb
  have := hlt a (List.mem_of_mem_erase (List.mem_of_mem_erase ha))
  omega

theorem length_after_merge {q : List Nat} {e1 e2 p : Nat} (h1 : e1 ∈ q) (h2 : e2 ∈ q) (hne : e1 ≠ e2) :
    ((q.erase e1).erase e2 ++ [p]).length + 1 = q.length := by
  have h2' : e2 ∈ q.erase e1 := (List.mem_erase_of_ne (fun h => hne h.symm)).mpr h2
  rw [List.length_append, List.length_erase_of_mem h2', List.length_erase_of_mem h1]
  have hp := List.length_pos_of_mem h2'
  rw [List.length_erase_of_mem h1] at hp
  simp only [List.length_singleton]
  omega

theorem lt_after_merge {q : List Nat} {e1 e2 p : Nat} (hlt : ∀ n ∈ q, n < p) :
    ∀ n ∈ (q.erase e1).erase e2 ++ [p], n < p + 1 := by
  intro n hn
  rcases List.mem_append.mp hn with hn | hn
  · have := hlt n (List.mem_of_mem_erase (List.mem_of_mem_erase hn)); omega
  · simp only [List.mem_singleton] at hn; omega

/-! ### The run of merges -/

/-- Everything k merges do (42_builder.md R144–R146). The arena grows by k nodes and keeps what it held; there is a
sequence of collections, from the one given, in which merge j extracts the two least nodes of collection j, writes their
parent at the arena's next index, and gives collection j + 1. -/
theorem mergeLoop_run : ∀ (k : Nat) (arena : List Node) (q : List Nat), q.Nodup → (∀ n ∈ q, n < arena.length) →
    k < q.length →
    ∃ (more : List Node) (Q : Nat → List Nat),
      mergeLoop k arena q = arena ++ more ∧ more.length = k ∧ Q 0 = q ∧
      (∀ j ≤ k, (Q j).Nodup ∧ (Q j).length + j = q.length ∧ ∀ n ∈ Q j, n < arena.length + j) ∧
      ∀ j < k, ∃ e1 e2, e1 ∈ Q j ∧ e2 ∈ Q j ∧ e1 ≠ e2 ∧
        (∀ n ∈ Q j, n ≠ e1 → keyLt (keyOf (arena ++ more) e1) (keyOf (arena ++ more) n) = true) ∧
        (∀ n ∈ Q j, n ≠ e1 → n ≠ e2 → keyLt (keyOf (arena ++ more) e2) (keyOf (arena ++ more) n) = true) ∧
        arenaAt (arena ++ more) (arena.length + j) = mergeNode (arena ++ more) e1 e2 ∧
        Q (j + 1) = ((Q j).erase e1).erase e2 ++ [arena.length + j]
  | 0, arena, q, hq, hlt, _ =>
    ⟨[], fun _ => q, by simp [mergeLoop], rfl, rfl,
      fun j hj => by obtain rfl : j = 0 := by omega
                     exact ⟨hq, by simp, by simpa using hlt⟩,
      fun j hj => absurd hj (Nat.not_lt_zero j)⟩
  | k + 1, arena, q, hq, hlt, hk => by
    obtain ⟨e1, e2, hm1, hm2, hne, hmin1, hmin2, hstep⟩ := mergeStep_spec (arena := arena) hq (by omega)
    have hlen' := length_after_merge (p := arena.length) hm1 hm2 hne
    obtain ⟨more, Q, hrun, hmore, hQ0, hQ, hmerge⟩ :=
      mergeLoop_run k (arena ++ [mergeNode arena e1 e2]) ((q.erase e1).erase e2 ++ [arena.length])
        (nodup_after_merge hq hlt) (by simpa using lt_after_merge hlt) (by omega)
    simp only [List.append_assoc, List.singleton_append, List.length_append, List.length_singleton] at hrun hQ hmerge
    refine ⟨mergeNode arena e1 e2 :: more, fun j => if j = 0 then q else Q (j - 1), ?_, by simp [hmore], by simp, ?_, ?_⟩
    · simp [mergeLoop, hstep, hrun]
    · intro j hj
      cases j with
      | zero => exact ⟨hq, by simp, by simpa using hlt⟩
      | succ j =>
        obtain ⟨h1, h2, h3⟩ := hQ j (by omega)
        refine ⟨by simpa using h1, ?_, ?_⟩
        · simp only [List.length_append, List.length_singleton, Nat.succ_ne_zero, if_false, Nat.add_sub_cancel] at h2 hlen' ⊢
          omega
        · intro n hn
          have := h3 n (by simpa using hn)
          omega
    · intro j hj
      cases j with
      | zero =>
        have key : ∀ n ∈ q, keyOf (arena ++ mergeNode arena e1 e2 :: more) n = keyOf arena n :=
          fun n hn => keyOf_append_left (hlt n hn) _
        refine ⟨e1, e2, by simpa using hm1, by simpa using hm2, hne, ?_, ?_, ?_, ?_⟩
        · intro n hn h1
          simp only [if_true] at hn
          rw [key e1 hm1, key n hn]; exact hmin1 n hn h1
        · intro n hn h1 h2
          simp only [if_true] at hn
          rw [key e2 hm2, key n hn]; exact hmin2 n hn h1 h2
        · rw [Nat.add_zero, arenaAt_append_length, mergeNode_append_left (hlt e1 hm1) (hlt e2 hm2)]
        · simpa using hQ0
      | succ j =>
        obtain ⟨f1, f2, g1, g2, g3, g4, g5, g6, g7⟩ := hmerge j (by omega)
        refine ⟨f1, f2, by simpa using g1, by simpa using g2, g3, ?_, ?_, ?_, ?_⟩
        · intro n hn; simp only [Nat.succ_ne_zero, if_false, Nat.add_sub_cancel] at hn; exact g4 n hn
        · intro n hn; simp only [Nat.succ_ne_zero, if_false, Nat.add_sub_cancel] at hn; exact g5 n hn
        · rw [show arena.length + (j + 1) = arena.length + 1 + j by omega]; exact g6
        · simp only [Nat.succ_ne_zero, if_false, Nat.add_sub_cancel]
          rw [show arena.length + (j + 1) = arena.length + 1 + j by omega]; exact g7

/-! ### The arena BUILD makes -/

/-- Everything BUILD's arena is (42_builder.md R141–R146): the N leaves first, then N − 1 merged nodes. -/
theorem buildArena_run (entries : List FtEntry) (h : entries ≠ []) :
    ∃ (more : List Node) (Q : Nat → List Nat),
      buildArena entries = entries.map leafOf ++ more ∧ more.length = entries.length - 1 ∧
      Q 0 = List.range entries.length ∧
      (∀ j ≤ entries.length - 1,
        (Q j).Nodup ∧ (Q j).length + j = entries.length ∧ ∀ n ∈ Q j, n < entries.length + j) ∧
      ∀ j < entries.length - 1, ∃ e1 e2, e1 ∈ Q j ∧ e2 ∈ Q j ∧ e1 ≠ e2 ∧
        (∀ n ∈ Q j, n ≠ e1 → keyLt (keyOf (buildArena entries) e1) (keyOf (buildArena entries) n) = true) ∧
        (∀ n ∈ Q j, n ≠ e1 → n ≠ e2 →
          keyLt (keyOf (buildArena entries) e2) (keyOf (buildArena entries) n) = true) ∧
        arenaAt (buildArena entries) (entries.length + j) = mergeNode (buildArena entries) e1 e2 ∧
        Q (j + 1) = ((Q j).erase e1).erase e2 ++ [entries.length + j] := by
  have hpos : 0 < entries.length := List.length_pos_of_ne_nil h
  obtain ⟨more, Q, h1, h2, h3, h4, h5⟩ :=
    mergeLoop_run (entries.length - 1) (entries.map leafOf) (List.range entries.length) List.nodup_range
      (by simp) (by simp; omega)
  have heq : buildArena entries = entries.map leafOf ++ more := h1
  simp only [List.length_map, List.length_range] at h4 h5
  rw [← heq] at h5
  exact ⟨more, Q, heq, h2, h3, h4, h5⟩

@[simp] theorem length_buildArena (entries : List FtEntry) : (buildArena entries).length = 2 * entries.length - 1 := by
  by_cases h : entries = []
  · subst h; rfl
  · obtain ⟨more, _, h1, h2, -⟩ := buildArena_run entries h
    have hpos : 0 < entries.length := List.length_pos_of_ne_nil h
    rw [h1, List.length_append, List.length_map, h2]; omega

/-- The leaves come first, in table order (42_builder.md R141). -/
theorem arenaAt_buildArena_leaf {entries : List FtEntry} {i : Nat} (h : i < entries.length) :
    arenaAt (buildArena entries) i = leafOf entries[i] := by
  have hne : entries ≠ [] := by rintro rfl; simp at h
  obtain ⟨more, _, h1, -⟩ := buildArena_run entries hne
  rw [h1, arenaAt_append_left (by simpa using h), arenaAt_getElem (by simpa using h)]
  simp

/-- An internal node is the parent of two distinct nodes below it (42_builder.md R146, R153). -/
theorem arenaAt_buildArena_internal {entries : List FtEntry} {n : Nat} (h1 : entries.length ≤ n)
    (h2 : n < 2 * entries.length - 1) :
    ∃ e1 e2, e1 < n ∧ e2 < n ∧ e1 ≠ e2 ∧
      arenaAt (buildArena entries) n = mergeNode (buildArena entries) e1 e2 := by
  have hne : entries ≠ [] := by rintro rfl; simp at h2
  obtain ⟨_, Q, -, -, -, hQ, hm⟩ := buildArena_run entries hne
  obtain ⟨e1, e2, m1, m2, hd, -, -, hp, -⟩ := hm (n - entries.length) (by omega)
  obtain ⟨-, -, hlt⟩ := hQ (n - entries.length) (by omega)
  rw [show entries.length + (n - entries.length) = n by omega] at hp hlt
  exact ⟨e1, e2, hlt e1 m1, hlt e2 m2, hd, hp⟩

/-! ### The node memory BUILD leaves -/

/-- BUILD of a table that is not empty and fits (42_builder.md R144). -/
theorem buildBody_of_pos {s : State} (h0 : 0 < s.ftCount.toNat) (h : s.ftCount.toNat ≤ s.cfg.nMax) :
    buildBody s = .ok { s with
      node := Memory.setAll Node.blank s.node 0 (buildArena s.ftEntries),
      root := BitVec.ofNat 32 (2 * s.ftCount.toNat - 2),
      nodeCount := BitVec.ofNat 32 (2 * s.ftCount.toNat - 1), treeValid := true } := by
  rw [buildBody, if_neg (by omega), readFtEntries_of_le h, cmd_bind_ok,
    writeNodes_of_le (by rw [length_buildArena, length_ftEntries, nodeMax_eq]; omega)]
  rfl

theorem get_built {s : State} (hw : Memory.wf Node.blank s.node = true) {n : Nat}
    (hn : n < (buildArena s.ftEntries).length) :
    Memory.get Node.blank (Memory.setAll Node.blank s.node 0 (buildArena s.ftEntries)) n =
      arenaAt (buildArena s.ftEntries) n := by
  have := Memory.get_setAll_same (blank := Node.blank) (buildArena s.ftEntries) 0 n hn hw
  rw [arenaAt_getElem hn]; rwa [Nat.zero_add] at this

theorem get_built_other {s : State} {n : Nat} (hn : (buildArena s.ftEntries).length ≤ n) :
    Memory.get Node.blank (Memory.setAll Node.blank s.node 0 (buildArena s.ftEntries)) n = s.nodeAt n :=
  Memory.get_setAll_other _ _ _ 0 n (.inr (by omega))

end Sys2Proof.Machine
end

