-- ==== Sys2Proof/Laws/Tree.lean ====
section
/-! SUPPORT. The run of merges that made a tree (42_builder.md R142–R146), and what it says of the tree: every node but the
root is extracted once, so it has one parent; frequencies are sums; nodes are extracted in key order. -/

namespace Sys2Proof.Machine

/-- An arena of N leaves and N − 1 merges: `Q j` is the collection before merge j, `e1 j` and `e2 j` what merge j
extracts. -/
structure IsRun (arena : List Node) (N : Nat) (Q : Nat → List Nat) (e1 e2 : Nat → Nat) : Prop where
  pos : 1 ≤ N
  small : N ≤ 32767
  length : arena.length = 2 * N - 1
  leaf : ∀ i < N, (arenaAt arena i).isLeaf = true
  start : Q 0 = List.range N
  nodup : ∀ j ≤ N - 1, (Q j).Nodup
  count : ∀ j ≤ N - 1, (Q j).length + j = N
  bound : ∀ j ≤ N - 1, ∀ n ∈ Q j, n < N + j
  mem1 : ∀ j < N - 1, e1 j ∈ Q j
  mem2 : ∀ j < N - 1, e2 j ∈ Q j
  ne : ∀ j < N - 1, e1 j ≠ e2 j
  least1 : ∀ j < N - 1, ∀ n ∈ Q j, n ≠ e1 j → keyLt (keyOf arena (e1 j)) (keyOf arena n) = true
  least2 : ∀ j < N - 1, ∀ n ∈ Q j, n ≠ e1 j → n ≠ e2 j → keyLt (keyOf arena (e2 j)) (keyOf arena n) = true
  parent : ∀ j < N - 1, arenaAt arena (N + j) = mergeNode arena (e1 j) (e2 j)
  next : ∀ j < N - 1, Q (j + 1) = ((Q j).erase (e1 j)).erase (e2 j) ++ [N + j]

/-- BUILD's arena has a run (42_builder.md R144). -/
theorem exists_run {entries : List FtEntry} (h : entries ≠ []) (hs : entries.length ≤ 32767) :
    ∃ Q e1 e2, IsRun (buildArena entries) entries.length Q e1 e2 := by
  obtain ⟨more, Q, -, -, h3, h4, h5⟩ := buildArena_run entries h
  choose! e1 e2 h6 using h5
  refine ⟨Q, e1, e2, ⟨List.length_pos_of_ne_nil h, hs, length_buildArena _, fun i hi => ?_, h3, fun j hj => (h4 j hj).1,
    fun j hj => (h4 j hj).2.1, fun j hj => (h4 j hj).2.2, fun j hj => (h6 j hj).1, fun j hj => (h6 j hj).2.1,
    fun j hj => (h6 j hj).2.2.1, fun j hj => (h6 j hj).2.2.2.1, fun j hj => (h6 j hj).2.2.2.2.1,
    fun j hj => (h6 j hj).2.2.2.2.2.1, fun j hj => (h6 j hj).2.2.2.2.2.2⟩⟩
  rw [arenaAt_buildArena_leaf hi]; rfl

namespace IsRun

variable {arena : List Node} {N : Nat} {Q : Nat → List Nat} {e1 e2 : Nat → Nat}

theorem lt1 (h : IsRun arena N Q e1 e2) {j : Nat} (hj : j < N - 1) : e1 j < N + j :=
  h.bound j (by omega) _ (h.mem1 j hj)

theorem lt2 (h : IsRun arena N Q e1 e2) {j : Nat} (hj : j < N - 1) : e2 j < N + j :=
  h.bound j (by omega) _ (h.mem2 j hj)

/-- The collection after a merge. -/
theorem mem_next (h : IsRun arena N Q e1 e2) {j : Nat} (hj : j < N - 1) (n : Nat) :
    n ∈ Q (j + 1) ↔ (n ∈ Q j ∧ n ≠ e1 j ∧ n ≠ e2 j) ∨ n = N + j := by
  have hn := h.nodup j (by omega)
  rw [h.next j hj, List.mem_append, (hn.erase _).mem_erase_iff, hn.mem_erase_iff, List.mem_singleton]
  tauto

/-! ### Internal nodes -/

theorem internal (h : IsRun arena N Q e1 e2) {j : Nat} (hj : j < N - 1) : (arenaAt arena (N + j)).isLeaf = false := by
  rw [h.parent j hj]; rfl

theorem sym_internal (h : IsRun arena N Q e1 e2) {j : Nat} (hj : j < N - 1) : (arenaAt arena (N + j)).sym = 0 := by
  rw [h.parent j hj]; rfl

theorem left_internal (h : IsRun arena N Q e1 e2) {j : Nat} (hj : j < N - 1) :
    (arenaAt arena (N + j)).left.toNat = e2 j := by
  have := h.lt2 hj; have := h.small
  rw [h.parent j hj]; exact toNat_ofNat16 (by omega)

theorem right_internal (h : IsRun arena N Q e1 e2) {j : Nat} (hj : j < N - 1) :
    (arenaAt arena (N + j)).right.toNat = e1 j := by
  have := h.lt1 hj; have := h.small
  rw [h.parent j hj]; exact toNat_ofNat16 (by omega)

theorem isLeaf_iff (h : IsRun arena N Q e1 e2) {n : Nat} (hn : n < 2 * N - 1) :
    (arenaAt arena n).isLeaf = true ↔ n < N := by
  constructor
  · intro hl
    by_contra hc
    have := h.internal (j := n - N) (by omega)
    rw [show N + (n - N) = n by omega, hl] at this
    cases this
  · exact h.leaf n

/-- An internal node is the result of one merge. -/
theorem of_internal (h : IsRun arena N Q e1 e2) {n : Nat} (hn : n < 2 * N - 1) (hl : (arenaAt arena n).isLeaf = false) :
    ∃ j < N - 1, n = N + j := by
  have : ¬ n < N := fun hc => by rw [(h.isLeaf_iff hn).mpr hc] at hl; cases hl
  exact ⟨n - N, by omega, by omega⟩

/-! ### Each node is extracted once -/

/-- A node that is out of the collection, and not yet to come, stays out. -/
theorem not_mem_later (h : IsRun arena N Q e1 e2) {c j : Nat} (hc : c < N + j) (hj : c ∉ Q j) :
    ∀ k, j + k ≤ N - 1 → c ∉ Q (j + k)
  | 0, _ => hj
  | k + 1, hk => by
    intro hm
    rcases (h.mem_next (j := j + k) (by omega) c).mp hm with ⟨hm, -⟩ | rfl
    · exact h.not_mem_later hc hj k (by omega) hm
    · omega

/-- An extracted node is in no later collection. -/
theorem extracted_gone (h : IsRun arena N Q e1 e2) {j k : Nat} (hjk : j < k) (hk : k ≤ N - 1) {c : Nat}
    (hc : c = e1 j ∨ c = e2 j) : c ∉ Q k := by
  have hlt : c < N + (j + 1) := by
    rcases hc with rfl | rfl
    · have := h.lt1 (j := j) (by omega); omega
    · have := h.lt2 (j := j) (by omega); omega
  have h1 : c ∉ Q (j + 1) := by
    intro hm
    rcases (h.mem_next (j := j) (by omega) c).mp hm with ⟨-, g1, g2⟩ | rfl
    · tauto
    · rcases hc with hc | hc
      · have := h.lt1 (j := j) (by omega); omega
      · have := h.lt2 (j := j) (by omega); omega
  have := h.not_mem_later hlt h1 (k - (j + 1)) (by omega)
  rwa [show j + 1 + (k - (j + 1)) = k by omega] at this

/-- A node is in the collection when it has just been made. -/
theorem mem_born (h : IsRun arena N Q e1 e2) {c : Nat} (hc : c < 2 * N - 1) : c ∈ Q (c + 1 - N) := by
  by_cases hl : c < N
  · rw [show c + 1 - N = 0 by omega, h.start]; exact List.mem_range.mpr hl
  · rw [show c + 1 - N = (c - N) + 1 by omega, h.mem_next (by omega)]
    exact .inr (by omega)

/-- The last collection holds the root alone. -/
theorem last (h : IsRun arena N Q e1 e2) : Q (N - 1) = [2 * N - 2] := by
  have hp := h.pos
  have h1 := h.count (N - 1) (by omega)
  have h2 := h.mem_born (c := 2 * N - 2) (by omega)
  rw [show 2 * N - 2 + 1 - N = N - 1 by omega] at h2
  match hq : Q (N - 1) with
  | [] => rw [hq] at h1; simp at h1; omega
  | [x] => rw [hq] at h2; simp at h2; rw [h2]
  | x :: y :: l => rw [hq] at h1; simp at h1; omega

/-- A node that is in a collection and is not the root is extracted by that merge or a later one. -/
theorem exists_extract (h : IsRun arena N Q e1 e2) {c : Nat} (hr : c ≠ 2 * N - 2) :
    ∀ m j, j + m = N - 1 → c ∈ Q j → ∃ k, j ≤ k ∧ k < N - 1 ∧ (c = e1 k ∨ c = e2 k)
  | 0, j, hj, hc => by
    rw [show j = N - 1 by omega, h.last] at hc
    simp at hc; exact absurd hc hr
  | m + 1, j, hj, hc => by
    by_cases h1 : c = e1 j ∨ c = e2 j
    · exact ⟨j, le_rfl, by omega, h1⟩
    · have : c ∈ Q (j + 1) := (h.mem_next (by omega) c).mpr (.inl ⟨hc, by tauto, by tauto⟩)
      obtain ⟨k, hk, hk2, hk3⟩ := h.exists_extract hr m (j + 1) (by omega) this
      exact ⟨k, by omega, hk2, hk3⟩

/-- Every node but the root is extracted by some merge, after it was made. -/
theorem exists_merge (h : IsRun arena N Q e1 e2) {c : Nat} (hc : c < 2 * N - 1) (hr : c ≠ 2 * N - 2) :
    ∃ k < N - 1, c < N + k ∧ (c = e1 k ∨ c = e2 k) := by
  obtain ⟨k, hk, hk2, hk3⟩ := h.exists_extract hr (N - 1 - (c + 1 - N)) _ (by omega) (h.mem_born hc)
  refine ⟨k, hk2, ?_, hk3⟩
  rcases hk3 with rfl | rfl
  · exact h.lt1 hk2
  · exact h.lt2 hk2

/-- Only one merge extracts a node. -/
theorem merge_unique (h : IsRun arena N Q e1 e2) {c j k : Nat} (hj : j < N - 1) (hk : k < N - 1)
    (h1 : c = e1 j ∨ c = e2 j) (h2 : c = e1 k ∨ c = e2 k) : j = k := by
  have key : ∀ {j k : Nat}, k < N - 1 → (c = e1 j ∨ c = e2 j) → (c = e1 k ∨ c = e2 k) → ¬ j < k := by
    intro j k hk h1 h2 hlt
    refine h.extracted_gone hlt (by omega) h1 ?_
    rcases h2 with rfl | rfl
    · exact h.mem1 k hk
    · exact h.mem2 k hk
  exact Nat.le_antisymm (Nat.not_lt.mp (key hj h2 h1)) (Nat.not_lt.mp (key hk h1 h2))

/-! ### Frequencies -/

/-- The frequency of a node, as a natural. -/
abbrev freq (arena : List Node) (n : Nat) : Nat := (arenaAt arena n).freq.toNat

/-- The sum over a collection, with the two extracted nodes apart. -/
theorem sum_split (h : IsRun arena N Q e1 e2) {j : Nat} (hj : j < N - 1) (f : Nat → Nat) :
    ((Q j).map f).sum = f (e1 j) + f (e2 j) + ((((Q j).erase (e1 j)).erase (e2 j)).map f).sum := by
  have m2 : e2 j ∈ (Q j).erase (e1 j) := (List.mem_erase_of_ne (fun hc => h.ne j hj hc.symm)).mpr (h.mem2 j hj)
  rw [((List.perm_cons_erase (h.mem1 j hj)).map f).sum_eq, List.map_cons, List.sum_cons,
    ((List.perm_cons_erase m2).map f).sum_eq, List.map_cons, List.sum_cons]
  omega

theorem sum_next (h : IsRun arena N Q e1 e2) {j : Nat} (hj : j < N - 1) (f : Nat → Nat) :
    ((Q (j + 1)).map f).sum = ((((Q j).erase (e1 j)).erase (e2 j)).map f).sum + f (N + j) := by
  rw [h.next j hj, List.map_append, List.sum_append]; simp

/-- A merge whose two frequencies are part of a total of at most 32 bits does not wrap. -/
theorem freq_of_sum (h : IsRun arena N Q e1 e2) {j : Nat} (hj : j < N - 1) (hs : ((Q j).map (freq arena)).sum < 2 ^ 32) :
    freq arena (N + j) = freq arena (e1 j) + freq arena (e2 j) := by
  have := h.sum_split hj (freq arena)
  have e : freq arena (N + j) = (mergeNode arena (e1 j) (e2 j)).freq.toNat := by rw [freq, h.parent j hj]
  rw [e]
  exact toNat_ofNat32 (by simp only [freq] at this hs ⊢; omega)

/-- Where the leaves' total fits 32 bits, every collection has that total (41_freq_table.md R122). -/
theorem sums (h : IsRun arena N Q e1 e2) (ht : ((List.range N).map (freq arena)).sum < 2 ^ 32) :
    ∀ j ≤ N - 1, ((Q j).map (freq arena)).sum = ((List.range N).map (freq arena)).sum
  | 0, _ => by rw [h.start]
  | j + 1, hj => by
    have h1 := h.sums ht j (by omega)
    rw [h.sum_next (by omega), h.freq_of_sum (by omega) (by omega), ← h1, h.sum_split (j := j) (by omega)]
    omega

theorem freq_internal (h : IsRun arena N Q e1 e2) (ht : ((List.range N).map (freq arena)).sum < 2 ^ 32) {j : Nat}
    (hj : j < N - 1) : freq arena (N + j) = freq arena (e1 j) + freq arena (e2 j) :=
  h.freq_of_sum hj (by rw [h.sums ht j (by omega)]; exact ht)

/-- The root's frequency is the leaves' total (42_builder.md R156). -/
theorem freq_root (h : IsRun arena N Q e1 e2) (ht : ((List.range N).map (freq arena)).sum < 2 ^ 32) :
    freq arena (2 * N - 2) = ((List.range N).map (freq arena)).sum := by
  have := h.sums ht (N - 1) le_rfl
  rw [h.last] at this
  simpa using this

/-! ### The order of extraction -/

/-- A node left in the collection after the two least are taken is not less frequent than either. -/
theorem le_of_stays (h : IsRun arena N Q e1 e2) {j : Nat} (hj : j < N - 1) {n : Nat} (hn : n ∈ Q j) (h1 : n ≠ e1 j)
    (h2 : n ≠ e2 j) : freq arena (e1 j) ≤ freq arena n ∧ freq arena (e2 j) ≤ freq arena n := by
  have a := keyLt_iff.mp (h.least1 j hj n hn h1)
  have b := keyLt_iff.mp (h.least2 j hj n hn h1 h2)
  simp only [keyOf] at a b
  exact ⟨by rcases a with a | ⟨a, -⟩ <;> simp only [freq] <;> omega,
    by rcases b with b | ⟨b, -⟩ <;> simp only [freq] <;> omega⟩

theorem le_of_first (h : IsRun arena N Q e1 e2) {j : Nat} (hj : j < N - 1) : freq arena (e1 j) ≤ freq arena (e2 j) := by
  have a := keyLt_iff.mp (h.least1 j hj (e2 j) (h.mem2 j hj) (fun hc => h.ne j hj hc.symm))
  simp only [keyOf] at a
  rcases a with a | ⟨a, -⟩ <;> simp only [freq] <;> omega

/-! ### What is extracted first -/

/-- A node stays in the collection up to the merge that extracts it. -/
theorem mem_until (h : IsRun arena N Q e1 e2) {c j k : Nat} (hk : k < N - 1) (hc : c = e1 k ∨ c = e2 k) (hj : j ≤ k)
    (hlt : c < N + j) : c ∈ Q j := by
  by_contra hn
  have := h.not_mem_later hlt hn (k - j) (by omega)
  rw [show j + (k - j) = k by omega] at this
  rcases hc with rfl | rfl
  · exact this (h.mem1 k hk)
  · exact this (h.mem2 k hk)

/-- A node extracted by an earlier merge, while a later one was there, has the smaller key. -/
theorem keyLt_of_later (h : IsRun arena N Q e1 e2) {m n j k : Nat} (hk : k < N - 1) (hm : m = e1 j ∨ m = e2 j)
    (hn : n = e1 k ∨ n = e2 k) (hjk : j < k) (hb : n < N + j) : keyLt (keyOf arena m) (keyOf arena n) = true := by
  have hj : j < N - 1 := by omega
  have hmem := h.mem_until hk hn (by omega) hb
  have hne : ∀ x, (x = e1 j ∨ x = e2 j) → n ≠ x := by
    rintro x hx rfl
    exact absurd (h.merge_unique hj hk hx hn) (by omega)
  rcases hm with rfl | rfl
  · exact h.least1 j hj n hmem (hne _ (.inl rfl))
  · exact h.least2 j hj n hmem (hne _ (.inl rfl)) (hne _ (.inr rfl))

/-- The merged frequencies do not fall (42_builder.md R159). -/
theorem freq_mono (h : IsRun arena N Q e1 e2) (ht : ((List.range N).map (freq arena)).sum < 2 ^ 32) {j : Nat}
    (hj : j + 1 < N - 1) : freq arena (N + j) ≤ freq arena (N + (j + 1)) := by
  rw [h.freq_internal ht (by omega), h.freq_internal ht hj]
  have hle : ∀ n ∈ Q (j + 1), freq arena (e2 j) ≤ freq arena n := by
    intro n hn
    rcases (h.mem_next (j := j) (by omega) n).mp hn with ⟨hn, h1, h2⟩ | rfl
    · exact (h.le_of_stays (by omega) hn h1 h2).2
    · rw [h.freq_internal ht (by omega)]; omega
  have h1 := hle _ (h.mem1 (j + 1) hj)
  have h2 := hle _ (h.mem2 (j + 1) hj)
  have := h.le_of_first (j := j) (by omega)
  omega

/-- So the internal nodes' keys rise. -/
theorem keyLt_internal (h : IsRun arena N Q e1 e2) (ht : ((List.range N).map (freq arena)).sum < 2 ^ 32) {j : Nat}
    (hj : j + 1 < N - 1) : keyLt (keyOf arena (N + j)) (keyOf arena (N + (j + 1))) = true := by
  have := h.freq_mono ht hj
  simp only [keyLt_iff, keyOf, h.internal (j := j) (by omega), h.internal hj]
  rcases Nat.lt_or_eq_of_le this with h1 | h1
  · exact .inl h1
  · exact .inr ⟨h1, .inr ⟨trivial, by omega⟩⟩

end IsRun

end Sys2Proof.Machine
end

