-- ==== Sys2Proof/Laws/Paths.lean ====
section
/-! SUPPORT. Paths, depths and codes in a built tree (42_builder.md R153, R157, R160): every node has exactly one path from
the root, and the reference functions compute it. -/

namespace Sys2Proof.Machine

/-! ### Following a path -/

theorem follow_append (arena : List Node) (p q : List Bool) :
    ∀ n, follow arena n (p ++ q) = (follow arena n p).bind (fun m => follow arena m q) := by
  induction p with
  | nil => intro n; rfl
  | cons b p ih =>
    intro n
    simp only [List.cons_append, follow]
    split
    · rfl
    · exact ih _

theorem follow_snoc {arena : List Node} {n c : Nat} {p : List Bool} {b : Bool} :
    follow arena n (p ++ [b]) = some c ↔
      ∃ m, follow arena n p = some m ∧ (arenaAt arena m).isLeaf = false ∧ childOf arena m b = c := by
  rw [follow_append]
  cases follow arena n p with
  | none => simp
  | some m =>
    simp only [Option.bind_some, follow]
    by_cases hl : (arenaAt arena m).isLeaf = true <;> simp [hl]

/-- A path that goes on ends at no leaf. -/
theorem follow_cons {arena : List Node} {n c : Nat} {b : Bool} {p : List Bool} :
    follow arena n (b :: p) = some c ↔ (arenaAt arena n).isLeaf = false ∧ follow arena (childOf arena n b) p = some c := by
  by_cases hl : (arenaAt arena n).isLeaf = true <;> simp [follow, hl]

/-- No path goes on past a leaf (42_builder.md R162). -/
theorem follow_past_leaf {arena : List Node} {n l c : Nat} {p q : List Bool} (h : follow arena n p = some l)
    (hl : (arenaAt arena l).isLeaf = true) (hq : follow arena n (p ++ q) = some c) : q = [] := by
  rw [follow_append, h, Option.bind_some] at hq
  cases q with
  | nil => rfl
  | cons b q => rw [follow, if_pos hl] at hq; cases hq

/-! ### Searching for a path -/

theorem pathTo_sound {arena : List Node} {target : Nat} :
    ∀ {fuel n : Nat} {p : List Bool}, pathTo arena target fuel n = some p → follow arena n p = some target
  | 0, _, _, h => by cases h
  | fuel + 1, n, p, h => by
    rw [pathTo] at h
    split_ifs at h with h1 h2
    · cases h; rw [h1]; rfl
    · have h2' : (arenaAt arena n).isLeaf = false := by simpa using h2
      cases hl : pathTo arena target fuel (childOf arena n false) with
      | some q => rw [hl] at h; cases h; exact follow_cons.mpr ⟨h2', pathTo_sound hl⟩
      | none =>
        rw [hl] at h
        cases hr : pathTo arena target fuel (childOf arena n true) with
        | some q => rw [hr] at h; cases h; exact follow_cons.mpr ⟨h2', pathTo_sound hr⟩
        | none => rw [hr] at h; cases h

theorem pathTo_complete {arena : List Node} {target : Nat} :
    ∀ {fuel n : Nat} {p : List Bool}, follow arena n p = some target → p.length < fuel →
      ∃ q, pathTo arena target fuel n = some q
  | 0, _, _, _, h => absurd h (Nat.not_lt_zero _)
  | fuel + 1, n, [], h, _ => ⟨[], by rw [pathTo, if_pos (by simpa [follow] using h)]⟩
  | fuel + 1, n, b :: p, h, hf => by
    obtain ⟨h2, h3⟩ := follow_cons.mp h
    obtain ⟨q, hq⟩ := pathTo_complete (fuel := fuel) h3 (by simpa using hf)
    rw [pathTo]
    split_ifs with h1 h4
    · exact ⟨[], rfl⟩
    · rw [h2] at h4; cases h4
    · cases hl : pathTo arena target fuel (childOf arena n false) with
      | some r => exact ⟨_, rfl⟩
      | none =>
        cases b with
        | false => rw [hl] at hq; cases hq
        | true => exact ⟨true :: q, by rw [hq]⟩

namespace IsRun

variable {arena : List Node} {N : Nat} {Q : Nat → List Nat} {e1 e2 : Nat → Nat}

theorem childOf_false (h : IsRun arena N Q e1 e2) {j : Nat} (hj : j < N - 1) : childOf arena (N + j) false = e2 j :=
  h.left_internal hj

theorem childOf_true (h : IsRun arena N Q e1 e2) {j : Nat} (hj : j < N - 1) : childOf arena (N + j) true = e1 j :=
  h.right_internal hj

theorem childOf_mem (h : IsRun arena N Q e1 e2) {j : Nat} (hj : j < N - 1) (b : Bool) :
    childOf arena (N + j) b = e1 j ∨ childOf arena (N + j) b = e2 j := by
  cases b
  · exact .inr (h.childOf_false hj)
  · exact .inl (h.childOf_true hj)

theorem childOf_lt (h : IsRun arena N Q e1 e2) {j : Nat} (hj : j < N - 1) (b : Bool) : childOf arena (N + j) b < N + j := by
  rcases h.childOf_mem hj b with e | e <;> rw [e]
  · exact h.lt1 hj
  · exact h.lt2 hj

theorem child_lt (h : IsRun arena N Q e1 e2) {n : Nat} (hn : n < 2 * N - 1) (hl : (arenaAt arena n).isLeaf = false)
    (b : Bool) : childOf arena n b < n := by
  obtain ⟨j, hj, rfl⟩ := h.of_internal hn hl
  exact h.childOf_lt hj b

/-- A path leads downwards. -/
theorem follow_le (h : IsRun arena N Q e1 e2) :
    ∀ {p : List Bool} {n c : Nat}, n < 2 * N - 1 → follow arena n p = some c → c + p.length ≤ n
  | [], n, c, _, hf => by simp only [follow, Option.some.injEq] at hf; simp [hf]
  | b :: p, n, c, hn, hf => by
    obtain ⟨h1, h2⟩ := follow_cons.mp hf
    have h3 := h.child_lt hn h1 b
    have := h.follow_le (by omega) h2
    simp only [List.length_cons]; omega

theorem root_lt (h : IsRun arena N Q e1 e2) : 2 * N - 2 < 2 * N - 1 := by have := h.pos; omega

/-- Two internal nodes with the same child on a path are one, and the bit is the same (42_builder.md R153). -/
theorem child_inj (h : IsRun arena N Q e1 e2) {m n : Nat} {b c : Bool} (hm : m < 2 * N - 1) (hn : n < 2 * N - 1)
    (h1 : (arenaAt arena m).isLeaf = false) (h2 : (arenaAt arena n).isLeaf = false)
    (he : childOf arena m b = childOf arena n c) : m = n ∧ b = c := by
  obtain ⟨j, hj, rfl⟩ := h.of_internal hm h1
  obtain ⟨k, hk, rfl⟩ := h.of_internal hn h2
  have hjk : j = k := by
    refine h.merge_unique (c := childOf arena (N + j) b) hj hk (h.childOf_mem hj b) ?_
    rw [he]; exact h.childOf_mem hk c
  subst hjk
  refine ⟨rfl, ?_⟩
  have hne := h.ne j hj
  cases b <;> cases c <;> simp only [h.childOf_false hj, h.childOf_true hj] at he
  · rfl
  · exact absurd he.symm hne
  · exact absurd he hne
  · rfl

/-- A node has at most one path from the root. -/
theorem path_unique (h : IsRun arena N Q e1 e2) {p q : List Bool} {c : Nat}
    (hp : follow arena (2 * N - 2) p = some c) (hq : follow arena (2 * N - 2) q = some c) : p = q := by
  have hr := h.root_lt
  induction p using List.reverseRecOn generalizing q c with
  | nil =>
    simp only [follow, Option.some.injEq] at hp
    have := h.follow_le hr hq
    exact (List.length_eq_zero_iff.mp (by omega)).symm
  | append_singleton p b ih =>
    rcases List.eq_nil_or_concat q with rfl | ⟨q, d, rfl⟩
    · simp only [follow, Option.some.injEq] at hq
      have := h.follow_le hr hp
      simp only [List.length_append, List.length_singleton] at this; omega
    · rw [List.concat_eq_append] at hq ⊢
      obtain ⟨m, m1, m2, m3⟩ := follow_snoc.mp hp
      obtain ⟨n, n1, n2, n3⟩ := follow_snoc.mp hq
      have hm := h.follow_le hr m1
      have hn := h.follow_le hr n1
      obtain ⟨rfl, rfl⟩ := h.child_inj (by omega) (by omega) m2 n2 (m3.trans n3.symm)
      rw [ih m1 n1]

/-- Every node has a path from the root. -/
theorem exists_path (h : IsRun arena N Q e1 e2) {c : Nat} (hc : c < 2 * N - 1) :
    ∃ p, follow arena (2 * N - 2) p = some c := by
  have key : ∀ d c, c + d = 2 * N - 2 → ∃ p, follow arena (2 * N - 2) p = some c := by
    intro d
    induction d using Nat.strongRecOn with
    | _ d ih =>
      intro c hd
      by_cases hr : c = 2 * N - 2
      · exact ⟨[], by rw [hr]; rfl⟩
      · obtain ⟨k, hk, hlt, hch⟩ := h.exists_merge (c := c) (by omega) hr
        obtain ⟨p, hp⟩ := ih (2 * N - 2 - (N + k)) (by omega) (N + k) (by omega)
        rcases hch with rfl | rfl
        · exact ⟨p ++ [true], follow_snoc.mpr ⟨_, hp, h.internal hk, h.childOf_true hk⟩⟩
        · exact ⟨p ++ [false], follow_snoc.mpr ⟨_, hp, h.internal hk, h.childOf_false hk⟩⟩
  exact key (2 * N - 2 - c) c (by omega)

/-- The search from the root finds the one path. -/
theorem pathTo_eq (h : IsRun arena N Q e1 e2) {c : Nat} {p : List Bool} (hp : follow arena (2 * N - 2) p = some c) :
    pathTo arena c arena.length (2 * N - 2) = some p := by
  have := h.follow_le h.root_lt hp
  have hpos := h.pos
  obtain ⟨q, hq⟩ := pathTo_complete (fuel := arena.length) hp (by rw [h.length]; omega)
  rw [hq, h.path_unique hp (pathTo_sound hq)]

/-- `depth` is the length of the path (42_builder.md R157). -/
theorem depthOf_eq (h : IsRun arena N Q e1 e2) {c : Nat} {p : List Bool} (hp : follow arena (2 * N - 2) p = some c) :
    depthOf arena (2 * N - 2) c = p.length := by
  rw [depthOf, h.pathTo_eq hp]

theorem depthOf_root (h : IsRun arena N Q e1 e2) : depthOf arena (2 * N - 2) (2 * N - 2) = 0 :=
  h.depthOf_eq (p := []) rfl

/-- The two nodes a merge extracts lie one below their parent. -/
theorem depthOf_child (h : IsRun arena N Q e1 e2) {j : Nat} (hj : j < N - 1) :
    depthOf arena (2 * N - 2) (e1 j) = depthOf arena (2 * N - 2) (N + j) + 1 ∧
      depthOf arena (2 * N - 2) (e2 j) = depthOf arena (2 * N - 2) (N + j) + 1 := by
  obtain ⟨p, hp⟩ := h.exists_path (c := N + j) (by omega)
  have h1 : follow arena (2 * N - 2) (p ++ [true]) = some (e1 j) :=
    follow_snoc.mpr ⟨_, hp, h.internal hj, h.childOf_true hj⟩
  have h2 : follow arena (2 * N - 2) (p ++ [false]) = some (e2 j) :=
    follow_snoc.mpr ⟨_, hp, h.internal hj, h.childOf_false hj⟩
  rw [h.depthOf_eq hp, h.depthOf_eq h1, h.depthOf_eq h2]
  simp

/-! ### Codes -/

/-- With two leaves or more, the code of a node's leaf is its path (42_builder.md R160). -/
theorem codeOfLeaf_eq (h : IsRun arena N Q e1 e2) (h2 : 2 ≤ N) {l : Nat} {p : List Bool} :
    codeOfLeaf arena (2 * N - 2) l = some p ↔ follow arena (2 * N - 2) p = some l := by
  have hlen : arena.length ≠ 1 := by rw [h.length]; omega
  rw [codeOfLeaf, if_neg hlen]
  exact ⟨pathTo_sound, h.pathTo_eq⟩

/-- A path to a leaf is not empty where there are two leaves or more (42_builder.md R160). -/
theorem path_ne_nil (_ : IsRun arena N Q e1 e2) (h2 : 2 ≤ N) {l : Nat} {p : List Bool} (hl : l < N)
    (hp : follow arena (2 * N - 2) p = some l) : p ≠ [] := by
  rintro rfl
  simp only [follow, Option.some.injEq] at hp
  omega

/-- Where the leaves' symbols differ, the leaf of a leaf's symbol is that leaf. -/
theorem leafOfSym_eq (h : IsRun arena N Q e1 e2)
    (hd : ∀ i < N, ∀ j < N, (arenaAt arena i).sym = (arenaAt arena j).sym → i = j) {l : Nat} (hl : l < N) :
    leafOfSym arena (arenaAt arena l).sym = some l := by
  have hpos := h.pos
  have hlen : l < arena.length := by rw [h.length]; omega
  rw [leafOfSym, List.findIdx?_eq_some_iff_getElem]
  refine ⟨hlen, ?_, fun j hj => ?_⟩
  · rw [← arenaAt_getElem hlen, h.leaf l hl]; simp
  · have hj' : j < arena.length := by omega
    rw [← arenaAt_getElem hj']
    simp only [h.leaf j (by omega), Bool.true_and, beq_iff_eq]
    intro he
    have := hd j (by omega) l hl he
    omega

/-- A symbol in no leaf has none. -/
theorem leafOfSym_none (h : IsRun arena N Q e1 e2) {sym : Half} (hs : ∀ i < N, (arenaAt arena i).sym ≠ sym) :
    leafOfSym arena sym = none := by
  rw [leafOfSym, List.findIdx?_eq_none_iff]
  intro x hx
  obtain ⟨n, hn, rfl⟩ := List.mem_iff_getElem.mp hx
  rw [← arenaAt_getElem hn]
  by_cases hl : (arenaAt arena n).isLeaf = true
  · have := hs n ((h.isLeaf_iff (by rw [h.length] at hn; exact hn)).mp hl)
    simp [this]
  · simp [hl]

end IsRun

end Sys2Proof.Machine
end

