-- ==== Sys2Proof/Laws/Built.lean ====
section
/-! SUPPORT. A state with a tree: what the invariant says of its node memory, in the terms of Laws/Tree. -/

namespace Sys2Proof.Machine

/-- A state with a tree, and the run that made it. -/
structure State.Built (s : State) (N : Nat) (Q : Nat → List Nat) (e1 e2 : Nat → Nat) : Prop where
  run : IsRun s.nodes N Q e1 e2
  ftCount : s.ftCount.toNat = N
  nodeCount : s.nodeCount.toNat = 2 * N - 1
  root : s.root.toNat = 2 * N - 2
  fits : 2 * N - 1 ≤ s.cfg.nodeMax
  leaf : ∀ i < N, s.nodeAt i = leafOf (s.ftAt i)
  node : ∀ n < 2 * N - 1, arenaAt s.nodes n = s.nodeAt n
  distinct : ∀ i < N, ∀ j < N, (arenaAt s.nodes i).sym = (arenaAt s.nodes j).sym → i = j
  total : s.ftTotal.toNat = ((List.range N).map (IsRun.freq s.nodes)).sum

theorem State.ftEntries_eq_map (s : State) : s.ftEntries = (List.range s.ftCount.toNat).map s.ftAt := rfl

theorem State.Inv.built {s : State} (h : s.Inv) (ht : s.treeValid = true) :
    ∃ Q e1 e2, s.Built s.ftCount.toNat Q e1 e2 := by
  obtain ⟨h1, h2, h3⟩ := h.spec.tree_counts ht
  have hN := h.spec.ftCount_le
  have hmax := nMax_le s.cfg
  have hne : s.ftEntries ≠ [] := by
    intro hc
    have := congrArg List.length hc
    rw [length_ftEntries] at this
    simp at this; omega
  have hlen : s.ftEntries.length = s.ftCount.toNat := length_ftEntries s
  obtain ⟨Q, e1, e2, hrun⟩ := exists_run hne (by omega)
  rw [← h.tree ht, hlen] at hrun
  have hleaf : ∀ i < s.ftCount.toNat, s.nodeAt i = leafOf (s.ftAt i) := by
    intro i hi
    rw [← arenaAt_nodes s (by omega), h.tree ht, arenaAt_buildArena_leaf (by omega), getElem_ftEntries]
  have hnode : ∀ n < 2 * s.ftCount.toNat - 1, arenaAt s.nodes n = s.nodeAt n := fun n hn => arenaAt_nodes s (by omega)
  refine ⟨Q, e1, e2, hrun, rfl, h2, h3, by rw [nodeMax_eq]; omega, hleaf, hnode, ?_, ?_⟩
  · intro i hi j hj he
    rw [hnode i (by omega), hnode j (by omega), hleaf i hi, hleaf j hj] at he
    have hnd := h.spec.syms_distinct
    rw [State.ftEntries_eq_map, List.map_map] at hnd
    exact List.inj_on_of_nodup_map hnd (List.mem_range.mpr hi) (List.mem_range.mpr hj) he
  · rw [h.spec.ftTotal_eq, State.ftEntries_eq_map, List.map_map]
    congr 1
    apply List.map_congr_left
    intro i hi
    have hi' := List.mem_range.mp hi
    rw [IsRun.freq, hnode i (by omega), hleaf i hi']
    rfl

namespace State.Built

variable {s : State} {N : Nat} {Q : Nat → List Nat} {e1 e2 : Nat → Nat}

theorem total_lt (h : s.Built N Q e1 e2) : ((List.range N).map (IsRun.freq s.nodes)).sum < 2 ^ 32 := by
  rw [← h.total]; exact s.ftTotal.isLt

theorem isLeaf_iff (h : s.Built N Q e1 e2) {n : Nat} (hn : n < 2 * N - 1) : (s.nodeAt n).isLeaf = true ↔ n < N := by
  rw [← h.node n hn]; exact h.run.isLeaf_iff hn

theorem small (h : s.Built N Q e1 e2) {n : Nat} (hn : n < 2 * N - 1) : n < 0xFFFF := by
  have := h.run.small; omega

/-- A child is there: it is not NIL (42_builder.md R153, 43_decoder.md R180). -/
theorem child_ne_nil (h : s.Built N Q e1 e2) {n : Nat} (hn : n < 2 * N - 1) (hl : (s.nodeAt n).isLeaf = false) (b : Bool) :
    (if b then (s.nodeAt n).right else (s.nodeAt n).left) ≠ NIL := by
  have hl' : (arenaAt s.nodes n).isLeaf = false := by rw [h.node n hn]; exact hl
  have hlt := h.run.child_lt hn hl' b
  have hs := h.small hn
  intro hc
  have : childOf s.nodes n b = 0xFFFF := by
    rw [childOf, h.node n hn]
    cases b
    · simp only [Bool.false_eq_true, if_false] at hc ⊢; rw [hc]; rfl
    · simp only [if_true] at hc ⊢; rw [hc]; rfl
  omega

end State.Built

end Sys2Proof.Machine
end

