-- ==== Sys2Proof/Laws/Exchange.lean ====
section
/-! SUPPORT. The exchange behind an optimal tree (42_builder.md R157): in any tree the two least leaves can be moved to two
sibling places at the greatest depth and merged there, at no more than the cost the merge saves. -/

namespace Sys2Proof.Machine.FreqTree

/-- The leaves' depths, left to right, of a tree whose root lies at a depth. -/
def depths (d : Nat) : FreqTree → List Nat
  | .leaf _ => [d]
  | .node l r => l.depths (d + 1) ++ r.depths (d + 1)

/-- The cost of a list of (frequency, depth) pairs. -/
def pairCost (ps : List (Nat × Nat)) : Nat := (ps.map (fun p => p.1 * p.2)).sum

theorem pairCost_perm {ps qs : List (Nat × Nat)} (h : ps.Perm qs) : pairCost ps = pairCost qs := (h.map _).sum_eq

@[simp] theorem pairCost_cons (p : Nat × Nat) (ps : List (Nat × Nat)) : pairCost (p :: ps) = p.1 * p.2 + pairCost ps := by
  simp [pairCost]

theorem pairCost_append (ps qs : List (Nat × Nat)) : pairCost (ps ++ qs) = pairCost ps + pairCost qs := by
  simp [pairCost]

theorem length_depths (t : FreqTree) : ∀ d, (t.depths d).length = t.leaves.length := by
  induction t with
  | leaf f => intro d; rfl
  | node l r hl hr => intro d; simp [depths, leaves, hl, hr]

theorem costAt_eq (t : FreqTree) : ∀ d, t.costAt d = pairCost (t.leaves.zip (t.depths d)) := by
  induction t with
  | leaf f => intro d; simp [costAt, leaves, depths, pairCost]
  | node l r hl hr =>
    intro d
    rw [costAt, leaves, depths, List.zip_append (length_depths l _).symm, pairCost_append, hl, hr]

/-- A tree's leaves can carry any frequencies. -/
theorem exists_relabel (t : FreqTree) : ∀ ws : List Nat, ws.length = t.leaves.length →
    ∃ u : FreqTree, u.leaves = ws ∧ ∀ d, u.depths d = t.depths d := by
  induction t with
  | leaf f =>
    intro ws h
    match ws, h with
    | [w], _ => exact ⟨.leaf w, rfl, fun d => rfl⟩
  | node l r hl hr =>
    intro ws h
    simp only [leaves, List.length_append] at h
    obtain ⟨u, u1, u2⟩ := hl (ws.take l.leaves.length) (by simp; omega)
    obtain ⟨v, v1, v2⟩ := hr (ws.drop l.leaves.length) (by simp; omega)
    exact ⟨.node u v, by rw [leaves, u1, v1, List.take_append_drop], fun d => by rw [depths, depths, u2, v2]⟩

/-- Pairs whose second components are a list's elements can be put in that list's order. -/
theorem exists_order : ∀ (ds : List Nat) (ps : List (Nat × Nat)), (ps.map Prod.snd).Perm ds →
    ∃ qs : List (Nat × Nat), qs.Perm ps ∧ qs.map Prod.snd = ds
  | [], ps, h => ⟨[], by rw [List.map_eq_nil_iff.mp h.eq_nil], rfl⟩
  | d :: ds, ps, h => by
    obtain ⟨p, hp, rfl⟩ := List.mem_map.mp (h.symm.subset (List.mem_cons_self ..))
    have h1 := List.perm_cons_erase hp
    obtain ⟨qs, h2, h3⟩ := exists_order ds (ps.erase p) ((List.perm_cons p.2).mp ((h1.map Prod.snd).symm.trans h))
    exact ⟨p :: qs, (h2.cons p).trans h1.symm, by simp [h3]⟩

/-- Any frequencies on any of a tree's leaves: a tree of the same shape with these leaves at these depths. -/
theorem exists_assign (t : FreqTree) (ps : List (Nat × Nat)) (h : (ps.map Prod.snd).Perm (t.depths 0)) :
    ∃ u : FreqTree, u.leaves.Perm (ps.map Prod.fst) ∧ u.costAt 0 = pairCost ps := by
  obtain ⟨qs, h1, h2⟩ := exists_order _ ps h
  obtain ⟨u, h3, h4⟩ := exists_relabel t (qs.map Prod.fst) (by rw [← length_depths t 0, ← h2]; simp)
  refine ⟨u, h3 ▸ h1.map _, ?_⟩
  rw [costAt_eq, h3, h4, ← h2, ← pairCost_perm h1]
  congr 1
  exact (List.zip_of_prod rfl rfl).symm

theorem leaves_pos (t : FreqTree) : 1 ≤ t.leaves.length := by
  induction t with
  | leaf f => simp [leaves]
  | node l r hl hr => simp [leaves]; omega

theorem eq_leaf {t : FreqTree} (h : ¬ 2 ≤ t.leaves.length) : ∃ f, t = .leaf f := by
  cases t with
  | leaf f => exact ⟨f, rfl⟩
  | node l r =>
    have := leaves_pos l; have := leaves_pos r
    simp [leaves] at h; omega

/-- A tree of two leaves or more has two sibling leaves that no leaf lies below; without them it has one leaf one level
higher. -/
theorem exists_deepest (t : FreqTree) : ∀ d, 2 ≤ t.leaves.length → ∃ (m : Nat) (rest : List Nat) (u : FreqTree),
    d ≤ m ∧ (t.depths d).Perm ((m + 1) :: (m + 1) :: rest) ∧ (∀ x ∈ t.depths d, x ≤ m + 1) ∧
    (u.depths d).Perm (m :: rest) := by
  induction t with
  | leaf f => intro d h; simp [leaves] at h
  | node l r hl hr =>
    intro d _
    have useL : ∀ m rest (u : FreqTree), d + 1 ≤ m → (l.depths (d + 1)).Perm ((m + 1) :: (m + 1) :: rest) →
        (∀ x ∈ l.depths (d + 1), x ≤ m + 1) → (u.depths (d + 1)).Perm (m :: rest) →
        (∀ x ∈ r.depths (d + 1), x ≤ m + 1) → ∃ (m : Nat) (rest : List Nat) (u : FreqTree), d ≤ m ∧
          ((FreqTree.node l r).depths d).Perm ((m + 1) :: (m + 1) :: rest) ∧
          (∀ x ∈ (FreqTree.node l r).depths d, x ≤ m + 1) ∧ (u.depths d).Perm (m :: rest) :=
      fun m rest u h1 h2 h3 h4 h5 => ⟨m, rest ++ r.depths (d + 1), .node u r, by omega, h2.append_right _,
        fun x hx => (List.mem_append.mp hx).elim (h3 x) (h5 x), h4.append_right _⟩
    have useR : ∀ m rest (u : FreqTree), d + 1 ≤ m → (r.depths (d + 1)).Perm ((m + 1) :: (m + 1) :: rest) →
        (∀ x ∈ r.depths (d + 1), x ≤ m + 1) → (u.depths (d + 1)).Perm (m :: rest) →
        (∀ x ∈ l.depths (d + 1), x ≤ m + 1) → ∃ (m : Nat) (rest : List Nat) (u : FreqTree), d ≤ m ∧
          ((FreqTree.node l r).depths d).Perm ((m + 1) :: (m + 1) :: rest) ∧
          (∀ x ∈ (FreqTree.node l r).depths d, x ≤ m + 1) ∧ (u.depths d).Perm (m :: rest) :=
      fun m rest u h1 h2 h3 h4 h5 => ⟨m, rest ++ l.depths (d + 1), .node l u, by omega,
        List.perm_append_comm.trans (h2.append_right _), fun x hx => (List.mem_append.mp hx).elim (h5 x) (h3 x),
        List.perm_append_comm.trans (h4.append_right _)⟩
    by_cases h1 : 2 ≤ l.leaves.length <;> by_cases h2 : 2 ≤ r.leaves.length
    · obtain ⟨m1, s1, u1, a1, a2, a3, a4⟩ := hl (d + 1) h1
      obtain ⟨m2, s2, u2, b1, b2, b3, b4⟩ := hr (d + 1) h2
      by_cases hm : m2 ≤ m1
      · exact useL m1 s1 u1 a1 a2 a3 a4 (fun x hx => (b3 x hx).trans (by omega))
      · exact useR m2 s2 u2 b1 b2 b3 b4 (fun x hx => (a3 x hx).trans (by omega))
    · obtain ⟨m1, s1, u1, a1, a2, a3, a4⟩ := hl (d + 1) h1
      obtain ⟨f, rfl⟩ := eq_leaf h2
      exact useL m1 s1 u1 a1 a2 a3 a4 (by simp [depths]; omega)
    · obtain ⟨m2, s2, u2, b1, b2, b3, b4⟩ := hr (d + 1) h2
      obtain ⟨f, rfl⟩ := eq_leaf h1
      exact useR m2 s2 u2 b1 b2 b3 b4 (by simp [depths]; omega)
    · obtain ⟨f, rfl⟩ := eq_leaf h1
      obtain ⟨g, rfl⟩ := eq_leaf h2
      exact ⟨d, [], .leaf 0, le_rfl, List.Perm.refl _, by simp [depths], List.Perm.refl _⟩

/-! ### The exchange -/

/-- A least frequency can be moved to a greatest depth at no cost. -/
theorem exists_exchange {ps : List (Nat × Nat)} {a m : Nat} {ws ds : List Nat} (h1 : (ps.map Prod.fst).Perm (a :: ws))
    (h2 : (ps.map Prod.snd).Perm (m :: ds)) (ha : ∀ w ∈ ws, a ≤ w) (hm : ∀ d ∈ ds, d ≤ m) :
    ∃ qs : List (Nat × Nat), (qs.map Prod.fst).Perm ws ∧ (qs.map Prod.snd).Perm ds ∧
      pairCost qs + a * m ≤ pairCost ps := by
  obtain ⟨⟨a', e⟩, hp, rfl⟩ := List.mem_map.mp (h1.symm.subset (List.mem_cons_self ..))
  obtain ⟨⟨x, m'⟩, hq, rfl⟩ := List.mem_map.mp (h2.symm.subset (List.mem_cons_self ..))
  simp only at *
  by_cases hx : (a', e) = (x, m')
  · cases hx
    have h3 := List.perm_cons_erase hp
    refine ⟨ps.erase (a', e), (List.perm_cons a').mp ((h3.map Prod.fst).symm.trans h1),
      (List.perm_cons e).mp ((h3.map Prod.snd).symm.trans h2), ?_⟩
    rw [pairCost_perm h3, pairCost_cons]
    simp only
    omega
  · have h3 := List.perm_cons_erase hp
    have hq' : (x, m') ∈ ps.erase (a', e) := (List.mem_erase_of_ne (fun h => hx h.symm)).mpr hq
    have h4 := List.perm_cons_erase hq'
    have h5 : ps.Perm ((a', e) :: (x, m') :: (ps.erase (a', e)).erase (x, m')) := h3.trans (h4.cons _)
    generalize (ps.erase (a', e)).erase (x, m') = rest at h5
    have hf : (x :: rest.map Prod.fst).Perm ws := (List.perm_cons a').mp ((h5.map Prod.fst).symm.trans h1)
    have hs : (e :: rest.map Prod.snd).Perm ds :=
      (List.perm_cons m').mp ((List.Perm.swap ..).trans ((h5.map Prod.snd).symm.trans h2))
    refine ⟨(x, e) :: rest, hf, hs, ?_⟩
    have hax := ha x (hf.subset (List.mem_cons_self ..))
    have hem := hm e (hs.subset (List.mem_cons_self ..))
    rw [pairCost_perm h5]
    simp only [pairCost_cons]
    obtain ⟨i, rfl⟩ := Nat.exists_eq_add_of_le hax
    obtain ⟨j, rfl⟩ := Nat.exists_eq_add_of_le hem
    ring_nf
    nlinarith [Nat.zero_le (i * j)]

/-- Merging the two least leaves of a tree (42_builder.md R157): some tree with the merged leaf costs less by at least the
merged frequency. -/
theorem exists_merge {t : FreqTree} {a b : Nat} {ws : List Nat} (h : t.leaves.Perm (a :: b :: ws)) (hab : a ≤ b)
    (hb : ∀ w ∈ ws, b ≤ w) : ∃ u : FreqTree, u.leaves.Perm ((a + b) :: ws) ∧ u.costAt 0 + (a + b) ≤ t.costAt 0 := by
  obtain ⟨m, rest, u, -, h1, h2, h3⟩ := exists_deepest t 0 (by rw [h.length_eq]; simp)
  have hlen := length_depths t 0
  have e1 : ((t.leaves.zip (t.depths 0)).map Prod.fst) = t.leaves := List.map_fst_zip (by omega)
  have e2 : ((t.leaves.zip (t.depths 0)).map Prod.snd) = t.depths 0 := List.map_snd_zip (by omega)
  have hmax : ∀ x ∈ (m + 1) :: rest, x ≤ m + 1 := fun x hx => h2 x (h1.symm.subset (List.mem_cons_of_mem _ hx))
  obtain ⟨ps, p1, p2, p3⟩ := exists_exchange (by rw [e1]; exact h) (by rw [e2]; exact h1)
    (fun w hw => by rcases List.mem_cons.mp hw with rfl | hw; exact hab; exact hab.trans (hb w hw)) hmax
  obtain ⟨qs, q1, q2, q3⟩ := exists_exchange p1 p2 hb (fun x hx => hmax x (List.mem_cons_of_mem _ hx))
  obtain ⟨v, v1, v2⟩ := exists_assign u ((a + b, m) :: qs) ((q2.cons m).trans h3.symm)
  refine ⟨v, v1.trans (by simpa using q1), ?_⟩
  rw [v2, costAt_eq t, pairCost_cons]
  simp only
  have : (a + b) * m + (a + b) = a * (m + 1) + b * (m + 1) := by ring
  omega

end Sys2Proof.Machine.FreqTree
end

