-- ==== Sys2Proof/Laws/Exec.lean ====
section
/-! SUPPORT. Performing a command, said once: its body's outcome, the codes it raises, and what no command touches. -/

namespace Sys2Proof.Machine

/-- The pseudocode of each command. -/
def commandBody : Instr → State → Cmd State
  | .nop, s => .ok s
  | .clear, s => .ok s.clearSession
  | .freqAdd sym, s => freqAddBody sym s.incOperand s
  | .freqRead idx, s => freqReadBody (idxOperand idx) s
  | .build, s => buildBody s
  | .nodeRead idx, s => nodeReadBody (idxOperand idx) s
  | .decClear, s => .ok s.clearDecoder
  | .decPush ch, s => decPushBody ch s
  | .decode, s => decodeBody s
  | .decRead idx, s => decReadBody (idxOperand idx) s

/-- The state a failing command completes: the one it started in, for DECODE without its text (43_decoder.md R177). -/
def failBase : Instr → State → State
  | .decode, s => s.withoutText
  | .nop, s | .clear, s | .freqAdd _, s | .freqRead _, s | .build, s | .nodeRead _, s | .decClear, s | .decPush _, s
  | .decRead _, s => s

theorem exec_eq_finish (i : Instr) (s : State) : exec i s = finish (failBase i s) (commandBody i s) := by
  cases i <;> rfl

/-- A command that answers a next state has completed what its body made, or raised an error. -/
theorem exec_next {i : Instr} {s t : State} (h : exec i s = .next t) :
    (∃ u, commandBody i s = .ok u ∧ t = u.complete) ∨
      (∃ c x, commandBody i s = .error (.error c x) ∧ t = (failBase i s).raiseError c x) :=
  finish_next (exec_eq_finish i s ▸ h)

theorem exec_not_refused (i : Instr) (s : State) (r : Refusal) : exec i s ≠ .refused r := by
  rw [exec_eq_finish]; exact finish_not_refused _ _ _

theorem exec_of_ok {i : Instr} {s u : State} (h : commandBody i s = .ok u) : exec i s = .next u.complete := by
  rw [exec_eq_finish, h, finish_ok]

theorem exec_of_raise {i : Instr} {s : State} {c : ErrCode} {x : Word} (h : commandBody i s = .error (.error c x)) :
    exec i s = .next ((failBase i s).raiseError c x) := by
  rw [exec_eq_finish, h, finish_raise]

@[simp] theorem incOperand_some {s : State} {p : Pending} (h : s.pending = some p) : s.incOperand = p.arg := by
  simp [State.incOperand, h]

/-! ### The errors each body raises -/

theorem freqAddBody_raises {sym : Half} {inc : Word} {s : State} {c : ErrCode} {x : Word}
    (h : freqAddBody sym inc s = .error (.error c x)) :
    (s.treeValid = true ∧ c = .tableLocked ∧ x = 0) ∨
    (s.treeValid = false ∧ findSym s.ftEntries sym = none ∧ s.ftCount.toNat = s.cfg.nMax ∧ c = .tableFull ∧
      x = zextHalf sym) ∨
    (s.treeValid = false ∧ ¬ (findSym s.ftEntries sym = none ∧ s.ftCount.toNat = s.cfg.nMax) ∧
      maxFreq < s.ftTotal.toNat + inc.toNat ∧ c = .freqOverflow ∧ x = zextHalf sym) := by
  rw [freqAddBody, cmd_bind_eq_error] at h
  rcases h with h | ⟨found, hc, h⟩
  · unfold freqAddChecks at h
    by_cases h1 : s.treeValid = true
    · simp only [h1, if_true, raise_def, Except.error.injEq, Stop.error.injEq] at h
      exact .inl ⟨h1, h.1.symm, h.2.symm⟩
    · simp only [h1, Bool.false_eq_true, if_false, readFtEntries, Cmd.needPrefix] at h
      by_cases h2 : s.ftCount.toNat ≤ s.cfg.nMax
      · simp only [h2, if_true, cmd_bind_ok, cmd_pure] at h
        split_ifs at h with h3 h4
        · simp only [raise_def, Except.error.injEq, Stop.error.injEq] at h
          exact .inr (.inl ⟨by simpa using h1, h3.1, h3.2, h.1.symm, h.2.symm⟩)
        · simp only [raise_def, Except.error.injEq, Stop.error.injEq] at h
          exact .inr (.inr ⟨by simpa using h1, h3, h4, h.1.symm, h.2.symm⟩)
      · simp [h2] at h
  · exfalso
    rw [cmd_bind_eq_error] at h
    rcases h with h | ⟨t, -, h⟩
    · cases found with
      | some i =>
        by_cases h2 : i < s.cfg.nMax <;> simp [freqAddEntry, readFt, writeFt, Cmd.needEntry, h2] at h
      | none =>
        by_cases h2 : s.ftCount.toNat < s.cfg.nMax <;> simp [freqAddEntry, writeFt, Cmd.needEntry, h2] at h
    · cases h

theorem freqReadBody_raises {idx : Word} {s : State} {c : ErrCode} {x : Word}
    (h : freqReadBody idx s = .error (.error c x)) : s.ftCount.toNat ≤ idx.toNat ∧ c = .badIndex ∧ x = idx := by
  unfold freqReadBody at h
  by_cases h1 : s.ftCount.toNat ≤ idx.toNat
  · simp only [h1, if_true, raise_def, Except.error.injEq, Stop.error.injEq] at h
    exact ⟨h1, h.1.symm, h.2.symm⟩
  · by_cases h2 : idx.toNat < s.cfg.nMax <;> simp [h1, readFt, Cmd.needEntry, h2] at h

theorem buildBody_raises {s : State} {c : ErrCode} {x : Word} (h : buildBody s = .error (.error c x)) :
    s.ftCount.toNat = 0 ∧ c = .emptyAlphabet ∧ x = 0 := by
  unfold buildBody at h
  by_cases h1 : s.ftCount.toNat = 0
  · simp only [h1, if_true, raise_def, Except.error.injEq, Stop.error.injEq] at h
    exact ⟨h1, h.1.symm, h.2.symm⟩
  · exfalso
    by_cases h2 : s.ftCount.toNat ≤ s.cfg.nMax
    · by_cases h3 : (buildArena s.ftEntries).length ≤ s.cfg.nodeMax
      · rw [if_neg h1, readFtEntries_of_le h2, cmd_bind_ok, writeNodes_of_le h3] at h
        cases h
      · rw [if_neg h1, readFtEntries_of_le h2, cmd_bind_ok, writeNodes, Cmd.needPrefix, if_neg h3] at h
        cases h
    · rw [if_neg h1, readFtEntries, Cmd.needPrefix, if_neg h2] at h
      cases h

theorem nodeReadBody_raises {idx : Word} {s : State} {c : ErrCode} {x : Word}
    (h : nodeReadBody idx s = .error (.error c x)) :
    (s.treeValid = false ∧ c = .noTree ∧ x = 0) ∨
    (s.treeValid = true ∧ s.nodeCount.toNat ≤ idx.toNat ∧ c = .badIndex ∧ x = idx) := by
  unfold nodeReadBody at h
  by_cases h0 : s.treeValid = false
  · simp only [h0, if_true, raise_def, Except.error.injEq, Stop.error.injEq] at h
    exact .inl ⟨h0, h.1.symm, h.2.symm⟩
  · by_cases h1 : s.nodeCount.toNat ≤ idx.toNat
    · rw [if_neg h0, if_pos h1] at h
      cases h
      exact .inr ⟨by simpa using h0, h1, rfl, rfl⟩
    · by_cases h2 : idx.toNat < s.cfg.nodeMax <;> simp [h0, h1, readNode, Cmd.needEntry, h2] at h

theorem decPushBody_raises {ch : Half} {s : State} {c : ErrCode} {x : Word}
    (h : decPushBody ch s = .error (.error c x)) : s.binLen.toNat = s.cfg.lMax ∧ c = .bufferFull ∧ x = zextHalf ch := by
  unfold decPushBody at h
  by_cases h1 : s.binLen.toNat = s.cfg.lMax
  · simp only [h1, if_true, raise_def, Except.error.injEq, Stop.error.injEq] at h
    exact ⟨h1, h.1.symm, h.2.symm⟩
  · by_cases h2 : s.binLen.toNat < s.cfg.lMax <;> simp [h1, writeBin, Cmd.needEntry, h2] at h

theorem decReadBody_raises {idx : Word} {s : State} {c : ErrCode} {x : Word}
    (h : decReadBody idx s = .error (.error c x)) : s.soutLen.toNat ≤ idx.toNat ∧ c = .badIndex ∧ x = idx := by
  unfold decReadBody at h
  by_cases h1 : s.soutLen.toNat ≤ idx.toNat
  · simp only [h1, if_true, raise_def, Except.error.injEq, Stop.error.injEq] at h
    exact ⟨h1, h.1.symm, h.2.symm⟩
  · by_cases h2 : idx.toNat < s.cfg.lMax <;> simp [h1, readSout, Cmd.needEntry, h2] at h

/-- Validation raises nothing but MALFORMED_BITSTRING. -/
theorem validateFrom_raises {j : Nat} {cs : List Half} {e : Stop} (h : validateFrom j cs = .error e) :
    ∃ k, e = .error .malformedBitstring (BitVec.ofNat 32 k) := by
  induction cs generalizing j with
  | nil => cases h
  | cons c cs ih =>
    rw [validateFrom] at h
    cases hb : bitval c with
    | none =>
      rw [hb] at h
      simp only [raise_def, Except.error.injEq] at h
      exact ⟨j, h.symm⟩
    | some b =>
      rw [hb] at h
      rcases cmd_bind_eq_error.mp h with h | ⟨_, -, h⟩
      · exact ih h
      · cases h

/-- One bit of the walk raises nothing but UNDECODABLE_SEQUENCE at that bit. -/
theorem walkBit_raises {s : State} {j : Nat} {b : Bool} {w : Walk} {c : ErrCode} {x : Word}
    (h : walkBit s j b w = .error (.error c x)) : c = .undecodableSequence ∧ x = BitVec.ofNat 32 j := by
  unfold walkBit at h
  rcases cmd_bind_eq_error.mp h with h | ⟨here, -, h⟩
  · by_cases hl : w.cur < s.cfg.nodeMax <;> simp [readNode, Cmd.needEntry, hl] at h
  · by_cases hleaf : here.isLeaf = true
    · cases b
      · simp [hleaf] at h
      · simp only [hleaf, if_true, raise_def, Except.error.injEq, Stop.error.injEq] at h
        exact ⟨h.1.symm, h.2.symm⟩
    · simp only [hleaf, Bool.false_eq_true, if_false] at h
      split_ifs at h with h1 h1
      all_goals first
        | (simp only [raise_def, Except.error.injEq, Stop.error.injEq] at h; exact ⟨h.1.symm, h.2.symm⟩)
        | (exfalso
           rcases cmd_bind_eq_error.mp h with h | ⟨there, -, h⟩
           · simp only [readNode, Cmd.needEntry] at h
             split_ifs at h <;> simp at h
           · split_ifs at h <;> simp at h)

theorem walkFrom_raises {s : State} {j : Nat} {bs : List Bool} {w : Walk} {c : ErrCode} {x : Word}
    (h : walkFrom s j bs w = .error (.error c x)) : c = .undecodableSequence ∧ ∃ k, x = BitVec.ofNat 32 k := by
  induction bs generalizing j w with
  | nil => cases h
  | cons b bs ih =>
    rcases cmd_bind_eq_error.mp h with h | ⟨w', -, h⟩
    · exact ⟨(walkBit_raises h).1, j, (walkBit_raises h).2⟩
    · exact ih h

theorem decodeBody_raises {s : State} {c : ErrCode} {x : Word} (h : decodeBody s = .error (.error c x)) :
    c = .noTree ∨ c = .malformedBitstring ∨ c = .undecodableSequence := by
  unfold decodeBody at h
  by_cases h0 : s.treeValid = false
  · simp only [h0, if_true, raise_def, Except.error.injEq, Stop.error.injEq] at h
    exact .inl h.1.symm
  · rw [if_neg h0] at h
    rcases cmd_bind_eq_error.mp h with h | ⟨cs, -, h⟩
    · simp only [readBinChars, Cmd.needPrefix] at h
      split_ifs at h <;> simp at h
    · rcases cmd_bind_eq_error.mp h with h | ⟨bits, -, h⟩
      · obtain ⟨k, hk⟩ := validateFrom_raises h
        simp only [Stop.error.injEq] at hk
        exact .inr (.inl hk.1)
      · rcases cmd_bind_eq_error.mp h with h | ⟨w, -, h⟩
        · exact .inr (.inr (walkFrom_raises h).1)
        · split_ifs at h with h1
          · simp only [raise_def, Except.error.injEq, Stop.error.injEq] at h
            exact .inr (.inr h.1.symm)
          · rcases cmd_bind_eq_error.mp h with h | ⟨_, -, h⟩
            · simp only [writeSout, Cmd.needPrefix] at h
              split_ifs at h <;> simp at h
            · cases h

/-- The codes the commands raise (60_exceptions.md R201). -/
theorem commandBody_raises {i : Instr} {s : State} {c : ErrCode} {x : Word}
    (h : commandBody i s = .error (.error c x)) : c ≠ .ok ∧ c ≠ .unknownSymbol ∧ c ≠ .emptyInput := by
  cases i with
  | nop => cases h
  | clear => cases h
  | decClear => cases h
  | freqAdd sym => rcases freqAddBody_raises h with ⟨-, rfl, -⟩ | ⟨-, -, -, rfl, -⟩ | ⟨-, -, -, rfl, -⟩ <;> decide
  | freqRead idx => obtain ⟨-, rfl, -⟩ := freqReadBody_raises h; decide
  | build => obtain ⟨-, rfl, -⟩ := buildBody_raises h; decide
  | nodeRead idx => rcases nodeReadBody_raises h with ⟨-, rfl, -⟩ | ⟨-, -, rfl, -⟩ <;> decide
  | decPush ch => obtain ⟨-, rfl, -⟩ := decPushBody_raises h; decide
  | decode => rcases decodeBody_raises h with rfl | rfl | rfl <;> decide
  | decRead idx => obtain ⟨-, rfl, -⟩ := decReadBody_raises h; decide

/-! ### What no command touches -/

/-- A body that succeeds leaves the sizes, the host's side, the control bits and the completion fields alone. -/
theorem commandBody_frame {i : Instr} {s u : State} (h : commandBody i s = .ok u) :
    u = { u with
      cfg := s.cfg, irqEn := s.irqEn, busy := s.busy, done := s.done, overrun := s.overrun, errCode := s.errCode,
      arg0 := s.arg0, errInfo := s.errInfo, pending := s.pending, host := s.host, schedule := s.schedule,
      draws := s.draws } := by
  cases i with
  | nop => cases h; rfl
  | clear => cases h; rfl
  | decClear => cases h; rfl
  | freqAdd sym => obtain ⟨-, -, -, ⟨_, -, -, -, rfl⟩ | ⟨-, -, rfl⟩⟩ := freqAddBody_eq_ok h <;> rfl
  | freqRead idx => obtain ⟨-, -, rfl⟩ := freqReadBody_eq_ok h; rfl
  | build => obtain ⟨-, -, -, rfl⟩ := buildBody_eq_ok h; rfl
  | nodeRead idx => obtain ⟨-, -, -, rfl⟩ := nodeReadBody_eq_ok h; rfl
  | decPush ch => obtain ⟨-, rfl⟩ := decPushBody_eq_ok h; rfl
  | decode => obtain ⟨-, -, _, _, -, -, -, -, rfl⟩ := decodeBody_eq_ok h; rfl
  | decRead idx => obtain ⟨-, -, rfl⟩ := decReadBody_eq_ok h; rfl

/-- Every command that answers a next state completes, and leaves the sizes, the host's side and the control bits
alone. -/
theorem exec_frame {i : Instr} {s t : State} (h : exec i s = .next t) :
    t = { t with
      cfg := s.cfg, irqEn := s.irqEn, busy := false, done := true, overrun := s.overrun, arg0 := s.arg0,
      pending := none, host := s.host, schedule := s.schedule, draws := s.draws } := by
  rcases exec_next h with ⟨u, hu, rfl⟩ | ⟨c, x, -, rfl⟩
  · rw [commandBody_frame hu]; rfl
  · cases i <;> rfl

/-- The same of a command word, legal or not. -/
theorem performWord_frame {w : Word} {s t : State} (h : performWord w s = .next t) :
    t = { t with
      cfg := s.cfg, irqEn := s.irqEn, busy := false, done := true, overrun := s.overrun, arg0 := s.arg0,
      pending := none, host := s.host, schedule := s.schedule, draws := s.draws } := by
  unfold performWord at h
  split at h
  · cases h; rfl
  · exact exec_frame h

/-! ### What no command looks at -/

/-- The walk looks at the sizes, the node memory and the root. -/
theorem walkFrom_congr {s t : State} (hc : t.cfg = s.cfg) (hn : t.node = s.node) (hr : t.root = s.root) :
    ∀ (j : Nat) (bits : List Bool) (w : Walk), walkFrom t j bits w = walkFrom s j bits w
  | _, [], _ => rfl
  | j, b :: bits, w => by
    have h : walkBit t j b w = walkBit s j b w := by
      unfold walkBit readNode State.nodeAt
      rw [hc, hn, hr]
    rw [walkFrom, walkFrom, h]
    congr 1; funext w'; exact walkFrom_congr hc hn hr _ _ _

/-- No body looks at `ARG0` or at `PENDING`, but for FREQ_ADD's increment (40_control.md R105). -/
theorem commandBody_congr (i : Instr) (s : State) (p : Option Pending) (a : Word)
    (hinc : ∀ sym, i = .freqAdd sym → ({ s with pending := p, arg0 := a } : State).incOperand = s.incOperand) :
    commandBody i { s with pending := p, arg0 := a } =
      (commandBody i s).map (fun u => { u with pending := p, arg0 := a }) := by
  cases i with
  | nop => rfl
  | clear => rfl
  | decClear => rfl
  | freqAdd sym =>
    simp only [commandBody, hinc sym rfl]
    generalize s.incOperand = inc
    have hck : freqAddChecks sym inc { s with pending := p, arg0 := a } = freqAddChecks sym inc s := rfl
    simp only [freqAddBody, hck]
    cases freqAddChecks sym inc s with
    | error e => rfl
    | ok found =>
      simp only [cmd_bind_ok]
      cases found with
      | none => simp only [freqAddEntry, writeFt, Cmd.needEntry]; split_ifs <;> rfl
      | some i => simp only [freqAddEntry, readFt, writeFt, Cmd.needEntry]; split_ifs <;> rfl
  | freqRead idx => simp only [commandBody, freqReadBody, readFt, Cmd.needEntry]; split_ifs <;> rfl
  | build =>
    have he : readFtEntries { s with pending := p, arg0 := a } = readFtEntries s := rfl
    simp only [commandBody, buildBody]
    rw [he]
    by_cases h0 : s.ftCount.toNat = 0
    · rw [if_pos h0, if_pos h0]; rfl
    · rw [if_neg h0, if_neg h0]
      cases readFtEntries s with
      | error e => rfl
      | ok es => simp only [cmd_bind_ok, writeNodes, Cmd.needPrefix]; split_ifs <;> rfl
  | nodeRead idx => simp only [commandBody, nodeReadBody, readNode, Cmd.needEntry]; split_ifs <;> rfl
  | decPush ch => simp only [commandBody, decPushBody, writeBin, Cmd.needEntry]; split_ifs <;> rfl
  | decRead idx => simp only [commandBody, decReadBody, readSout, Cmd.needEntry]; split_ifs <;> rfl
  | decode =>
    have he : readBinChars { s with pending := p, arg0 := a } = readBinChars s := rfl
    have hs : State.walkStart { s with pending := p, arg0 := a } = s.walkStart := rfl
    simp only [commandBody, decodeBody]
    rw [he, hs]
    simp only [walkFrom_congr (s := s) (t := { s with pending := p, arg0 := a }) rfl rfl rfl]
    by_cases h0 : s.treeValid = false
    · rw [if_pos h0, if_pos h0]; rfl
    · rw [if_neg h0, if_neg h0]
      cases readBinChars s with
      | error e => rfl
      | ok cs =>
        simp only [cmd_bind_ok]
        cases validateFrom 0 cs with
        | error e => rfl
        | ok bits =>
          simp only [cmd_bind_ok]
          cases walkFrom s 0 bits s.walkStart with
          | error e => rfl
          | ok w => simp only [cmd_bind_ok, writeSout, Cmd.needPrefix]; split_ifs <;> rfl

end Sys2Proof.Machine
end

