-- ==== Sys2Proof/Laws/PerInstr.lean ====
section
/-! SUPPORT. The families of statements made per command: `EncodeLegal`, that the encoder makes a legal word of the
command's own row. -/

namespace Sys2Proof.Laws.EncodeLegal

open Sys2Proof.Machine

/-- A command's word is legal: it selects the row of the opcode map with the command's mnemonic, and its `RSV` is 0
(30_encoding.md R85, R87). -/
def Statement (i : Instr) : Prop :=
  rsvField (encodeCmd i) = 0 ∧ ∃ r ∈ opcodeRows, r.mnemonic = i.mnemonic ∧ r.selects (encodeCmd i) = true

/-- Formats S and I: the upper half of the word is the opcode and a zero byte, whatever the operand. -/
theorem selects_of_upperHalf (i : Instr) (name : String) (c : Word) (hc : c.toNat = (opcodeOf i).toNat * 16777216) :
    OpcodeRow.selects { mnemonic := name, pattern := c, mask := 0xFFFF0000 } (encodeCmd i) = true := by
  have h1 := (operandOf i).isLt
  have h2 := toNat_encodeCmd i
  simp only [OpcodeRow.selects, beq_iff_eq]
  apply BitVec.eq_of_toNat_eq
  rw [toNat_and_upperHalf, hc]
  omega

theorem nop : Statement .nop := ⟨by decide, opcodeRows[0], by decide, by decide, by decide⟩

theorem clear : Statement .clear := ⟨by decide, opcodeRows[1], by decide, by decide, by decide⟩

theorem freqAdd (sym : Half) : Statement (.freqAdd sym) :=
  ⟨by simp, opcodeRows[2], by decide, rfl, selects_of_upperHalf _ _ _ (by simp [opcodeOf])⟩

theorem freqRead (idx : Half) : Statement (.freqRead idx) :=
  ⟨by simp, opcodeRows[3], by decide, rfl, selects_of_upperHalf _ _ _ (by simp [opcodeOf])⟩

theorem build : Statement .build := ⟨by decide, opcodeRows[4], by decide, by decide, by decide⟩

theorem nodeRead (idx : Half) : Statement (.nodeRead idx) :=
  ⟨by simp, opcodeRows[5], by decide, rfl, selects_of_upperHalf _ _ _ (by simp [opcodeOf])⟩

theorem decClear : Statement .decClear := ⟨by decide, opcodeRows[6], by decide, by decide, by decide⟩

theorem decPush (ch : Half) : Statement (.decPush ch) :=
  ⟨by simp, opcodeRows[7], by decide, rfl, selects_of_upperHalf _ _ _ (by simp [opcodeOf])⟩

theorem decode : Statement .decode := ⟨by decide, opcodeRows[8], by decide, by decide, by decide⟩

theorem decRead (idx : Half) : Statement (.decRead idx) :=
  ⟨by simp, opcodeRows[9], by decide, rfl, selects_of_upperHalf _ _ _ (by simp [opcodeOf])⟩

end Sys2Proof.Laws.EncodeLegal
end

