-- ==== Sys2Proof/Laws/Window.lean ====
section
/-! SUPPORT. The register window: what a read and a write do at each register's offset and at an unmapped one, so that no
later proof searches the register map. -/

namespace Sys2Proof.Machine

@[simp] theorem Reg.at?_offset (r : Reg) : Reg.at? r.offset = some r := by cases r <;> rfl

/-- Past the last register, and inside a word, the window is unmapped (20_memory.md R61). -/
theorem Reg.at?_eq_none {offset : Nat} (h : ∀ r : Reg, r.offset ≠ offset) : Reg.at? offset = none := by
  simp only [Reg.at?, List.find?_eq_none, beq_iff_eq]
  exact fun r _ => h r

theorem Reg.offset_lt (r : Reg) : r.offset < 0x4C := by cases r <;> decide

theorem Reg.at?_unmapped {k : Nat} (h : 0x13 ≤ k) : Reg.at? (4 * k) = none :=
  Reg.at?_eq_none fun r hr => by have := r.offset_lt; omega

/-! ### Reads -/

theorem readIsDraw_offset (s : State) (r : Reg) : s.readIsDraw r.offset = (s.busy && r.volatile) := by
  simp [State.readIsDraw]

theorem readWord_exact (s : State) {r : Reg} (h : r.volatile = false) : s.readWord r.offset = s.regValue r := by
  simp [State.readWord, readIsDraw_offset, h]

theorem readWord_idle {s : State} (h : s.busy = false) (r : Reg) : s.readWord r.offset = s.regValue r := by
  simp [State.readWord, readIsDraw_offset, h]

theorem readWord_draw {s : State} (hb : s.busy = true) {r : Reg} (h : r.volatile = true) :
    s.readWord r.offset = Config.busyRead s.draws := by
  simp [State.readWord, readIsDraw_offset, h, hb]

theorem countDraw_draw {s : State} (hb : s.busy = true) {r : Reg} (h : r.volatile = true) :
    s.countDraw r.offset = { s with draws := s.draws + 1 } := by
  simp [State.countDraw, readIsDraw_offset, h, hb]

theorem readWord_unmapped (s : State) {offset : Nat} (h : Reg.at? offset = none) : s.readWord offset = 0 := by
  simp [State.readWord, State.readIsDraw, h]

theorem readWord_status (s : State) : s.readWord 0x14 = s.statusWord := readWord_exact s (r := .status) rfl

theorem readWord_ctrl (s : State) : s.readWord 0x10 = s.ctrlWord := readWord_exact s (r := .ctrl) rfl

theorem readWord_arg0 (s : State) : s.readWord 0x18 = s.arg0 := readWord_exact s (r := .arg0) rfl

/-- A read counts a draw or nothing. -/
theorem countDraw_eq (s : State) (offset : Nat) : s.countDraw offset = { s with draws := (s.countDraw offset).draws } := by
  unfold State.countDraw
  split <;> rfl

/-! ### Writes -/

theorem writeWord_ctrl (s : State) (v : Word) : s.writeWord 0x10 v = s.writeCtrl v := rfl

theorem writeWord_status (s : State) (v : Word) : s.writeWord 0x14 v = s.writeStatus v := rfl

theorem writeWord_arg0 (s : State) (v : Word) : s.writeWord 0x18 v = { s with arg0 := v } := rfl

theorem writeWord_cmd (s : State) (v : Word) : s.writeWord 0x1C v = s.issue v := rfl

theorem writeWord_unmapped (s : State) {offset : Nat} (h : Reg.at? offset = none) (v : Word) :
    s.writeWord offset v = s := by simp [State.writeWord, h]

theorem issue_idle {s : State} (h : s.busy = false) (w : Word) : s.issue w = s.accept w := by simp [State.issue, h]

theorem issue_busy {s : State} (h : s.busy = true) (w : Word) : s.issue w = s.markOverrun := by simp [State.issue, h]

/-- Everything a host write can do: one of the four registers that act, or nothing (40_control.md R104). -/
theorem writeWord_cases (s : State) (offset : Nat) (v : Word) :
    (offset = 0x10 ∧ s.writeWord offset v = s.writeCtrl v) ∨ (offset = 0x14 ∧ s.writeWord offset v = s.writeStatus v) ∨
    (offset = 0x18 ∧ s.writeWord offset v = { s with arg0 := v }) ∨
    (offset = 0x1C ∧ s.busy = false ∧ s.writeWord offset v = s.accept v) ∨
    (offset = 0x1C ∧ s.busy = true ∧ s.writeWord offset v = s.markOverrun) ∨ s.writeWord offset v = s := by
  cases h : Reg.at? offset with
  | none => simp [writeWord_unmapped s h]
  | some r =>
    have ho : r.offset = offset := by
      have := List.find?_some h
      simpa using this
    subst ho
    cases r <;> first
      | exact .inl ⟨rfl, rfl⟩
      | exact .inr (.inl ⟨rfl, rfl⟩)
      | exact .inr (.inr (.inl ⟨rfl, rfl⟩))
      | exact .inr (.inr (.inr (.inr (.inr rfl))))
      | skip
    cases hb : s.busy
    · exact .inr (.inr (.inr (.inl ⟨rfl, rfl, issue_idle hb v⟩)))
    · exact .inr (.inr (.inr (.inr (.inl ⟨rfl, rfl, issue_busy hb v⟩))))

/-- The accesses HUFF has (20_memory.md R60, R61). -/
theorem accessRefusal_eq_none {size : AccessSize} {offset : Nat} :
    accessRefusal size offset = none ↔ size = .word ∧ offset % 4 = 0 ∧ offset < 256 := by
  unfold accessRefusal
  split_ifs <;> simp_all

end Sys2Proof.Machine
end

