-- ==== Sys2Proof/Laws/Step.lean ====
section
/-! SUPPORT. What a host step and a step of the machine can do, said once. -/

namespace Sys2Proof.Machine

/-- A host step moves the host and counts draws, or is a write that HUFF has. -/
theorem hostStep_next {s t : State} (h : hostStep s = .next t) :
    t = { s with host := t.host, draws := t.draws } ∨
      ∃ offset v, s.host.current = some (.wr .word offset v) ∧ t = { s.writeWord offset v with host := t.host } := by
  unfold hostStep at h
  split at h
  · cases h; exact .inl rfl
  · rename_i sz offset v hc
    unfold hostWrite at h
    split at h
    · cases h
    · rename_i hr
      cases h
      obtain ⟨rfl, -, -⟩ := accessRefusal_eq_none.mp hr
      exact .inr ⟨offset, v, hc, rfl⟩
  · unfold hostRead at h
    split at h
    · cases h
    · cases h
      left
      rename_i offset _ _ _ _
      rw [countDraw_eq]; rfl
  · cases h; exact .inl rfl
  · unfold hostBranch at h
    split at h
    · split at h <;> cases h
      exact .inl rfl
    · cases h; exact .inl rfl
  · unfold hostBranch at h
    split at h
    · split at h <;> cases h
      exact .inl rfl
    · cases h; exact .inl rfl
  · cases h; exact .inl rfl
  · cases h; exact .inl rfl

/-- Everything a step of the machine can be: a host step, the engine idle or performing its word, or reset. -/
theorem step_next {s t : State} (h : step s = .next t) :
    (s.nextTurn = .host ∧ hostStep s.takeTurn = .next t) ∨
    (s.nextTurn = .engine ∧ s.pending = none ∧ t = s.takeTurn) ∨
    (s.nextTurn = .engine ∧ ∃ p, s.pending = some p ∧ performWord p.word s.takeTurn = .next t) ∨
    (s.nextTurn = .reset ∧ t = s.takeTurn.hardReset) := by
  unfold step at h
  cases ht : s.nextTurn with
  | host => rw [ht] at h; exact .inl ⟨rfl, h⟩
  | engine =>
    rw [ht] at h
    have hp : s.takeTurn.pending = s.pending := rfl
    simp only [engineStep, hp] at h
    cases hq : s.pending with
    | none => rw [hq] at h; cases h; exact .inr (.inl ⟨rfl, rfl, rfl⟩)
    | some p => rw [hq] at h; exact .inr (.inr (.inl ⟨rfl, p, rfl, h⟩))
  | reset => rw [ht] at h; cases h; exact .inr (.inr (.inr ⟨rfl, rfl⟩))

end Sys2Proof.Machine
end

