-- ==== Sys2Proof/Laws/Walk.lean ====
section
/-! SUPPORT. DECODE's two passes (43_decoder.md R173–R176): what validation and the walk answer, and that the walk over a
built tree reads whole codes and then a path that ends inside the tree. -/

namespace Sys2Proof.Machine

/-! ### Validation -/

@[simp] theorem bitval_charOfBit (b : Bool) : bitval (charOfBit b) = some b := by cases b <;> decide

theorem bitval_eq_some {c : Half} {b : Bool} : bitval c = some b ↔ c = charOfBit b := by
  unfold bitval charOfBit charZero charOne
  split_ifs with h1 h2 <;> cases b <;> simp_all

theorem bitval_eq_none {c : Half} : bitval c = none ↔ c ≠ 0x0030 ∧ c ≠ 0x0031 := by
  unfold bitval charZero charOne
  split_ifs with h1 h2 <;> simp_all

/-- Validation succeeds exactly on strings of bit characters, and reads their bits. -/
theorem validateFrom_eq_ok {bits : List Bool} : ∀ {cs : List Half} {j : Nat},
    validateFrom j cs = .ok bits ↔ cs = bits.map charOfBit := by
  intro cs
  induction cs generalizing bits with
  | nil => intro j; cases bits <;> simp [validateFrom]
  | cons c cs ih =>
    intro j
    rw [validateFrom]
    cases hb : bitval c with
    | none =>
      have hn := bitval_eq_none.mp hb
      constructor
      · intro h; cases h
      · intro h
        cases bits with
        | nil => cases h
        | cons b bs =>
          simp only [List.map_cons, List.cons.injEq] at h
          rw [h.1, bitval_charOfBit] at hb; cases hb
    | some b =>
      have hc := bitval_eq_some.mp hb
      simp only [cmd_bind_eq_ok, cmd_pure, Except.ok.injEq]
      constructor
      · rintro ⟨bs, h1, rfl⟩
        rw [List.map_cons, ← hc, ih.mp h1]
      · intro h
        cases bits with
        | nil => cases h
        | cons d bs =>
          simp only [List.map_cons, List.cons.injEq] at h
          have hd : d = b := by rw [hc] at h; revert h; cases b <;> cases d <;> simp [charOfBit]
          exact ⟨bs, ih.mpr h.2, by rw [hd]⟩

/-- Validation fails at the first malformed character. -/
theorem validateFrom_malformed : ∀ {cs : List Half} {j k : Nat} (hk : k < cs.length), bitval cs[k] = none →
    (∀ (i : Nat) (hi : i < k), bitval (cs[i]'(by omega)) ≠ none) →
    validateFrom j cs = .error (.error .malformedBitstring (BitVec.ofNat 32 (j + k)))
  | c :: cs, j, 0, _, hn, _ => by
    simp only [List.getElem_cons_zero] at hn
    rw [validateFrom, hn]; rfl
  | c :: cs, j, k + 1, hk, hn, hb => by
    have h0 := hb 0 (by omega)
    simp only [List.getElem_cons_zero] at h0
    obtain ⟨b, hb0⟩ := Option.ne_none_iff_exists'.mp h0
    rw [validateFrom, hb0]
    have := validateFrom_malformed (cs := cs) (j := j + 1) (k := k) (by simpa using hk) (by simpa using hn)
      (fun i hi => by simpa using hb (i + 1) (by omega))
    simp only
    rw [this, show j + 1 + k = j + (k + 1) by omega]; rfl

/-- A string that validation refuses has a first malformed character. -/
theorem exists_first_malformed {cs : List Half} (h : ¬ ∃ bits : List Bool, cs = bits.map charOfBit) :
    ∃ (k : Nat) (hk : k < cs.length), bitval cs[k] = none ∧ ∀ (i : Nat) (hi : i < k), bitval (cs[i]'(by omega)) ≠ none := by
  induction cs with
  | nil => exact absurd ⟨[], rfl⟩ h
  | cons c cs ih =>
    cases hb : bitval c with
    | none => exact ⟨0, by simp, hb, fun i hi => absurd hi (Nat.not_lt_zero i)⟩
    | some b =>
      obtain ⟨k, hk, h1, h2⟩ := ih (fun ⟨bits, hbits⟩ => h ⟨b :: bits, by rw [List.map_cons, ← hbits, ← bitval_eq_some.mp hb]⟩)
      refine ⟨k + 1, by simpa using hk, by simpa using h1, fun i hi => ?_⟩
      cases i with
      | zero => simp [hb]
      | succ i => simpa using h2 i (by omega)

/-! ### One bit of the walk -/

namespace State.Built

variable {s : State} {N : Nat} {Q : Nat → List Nat} {e1 e2 : Nat → Nat}

/-- From an internal node: to the child, and on to the root with its symbol where that is a leaf (43_decoder.md R175). -/
theorem walkBit_internal (h : s.Built N Q e1 e2) (j : Nat) (b : Bool) {w : Walk} (hw : w.cur < 2 * N - 1)
    (hi : (arenaAt s.nodes w.cur).isLeaf = false) :
    walkBit s j b w = .ok (
      if childOf s.nodes w.cur b < N then
        { cur := 2 * N - 2, out := w.out ++ [(arenaAt s.nodes (childOf s.nodes w.cur b)).sym], last := j + 1 }
      else { w with cur := childOf s.nodes w.cur b }) := by
  have hfit := h.fits
  have hi' : (s.nodeAt w.cur).isLeaf = false := by rw [← h.node _ hw]; exact hi
  have hnil := h.child_ne_nil hw hi' b
  have hlt := h.run.child_lt hw hi b
  have hchild : (if b then (s.nodeAt w.cur).right else (s.nodeAt w.cur).left).toNat = childOf s.nodes w.cur b := by
    rw [childOf, h.node _ hw]; cases b <;> rfl
  have hleaf := h.isLeaf_iff (n := childOf s.nodes w.cur b) (by omega)
  rw [walkBit, readNode_of_lt (by omega), cmd_bind_ok]
  simp only [hi', Bool.false_eq_true, if_false, if_neg hnil, hchild]
  rw [readNode_of_lt (by omega), cmd_bind_ok]
  by_cases hc : childOf s.nodes w.cur b < N
  · rw [if_pos (hleaf.mpr hc), if_pos hc, h.root, h.node _ (by omega)]; rfl
  · rw [if_neg (fun hh => hc (hleaf.mp hh)), if_neg hc]; rfl

/-! ### Codes of a built tree -/

/-- The code of a leaf's symbol is the leaf's path, with two leaves or more. -/
theorem codeOfSym_eq (h : s.Built N Q e1 e2) (h2 : 2 ≤ N) {l : Nat} (hl : l < N) {p : List Bool}
    (hp : follow s.nodes (2 * N - 2) p = some l) :
    codeOfSym s.nodes (2 * N - 2) (arenaAt s.nodes l).sym = some p := by
  rw [codeOfSym, h.run.leafOfSym_eq h.distinct hl]
  exact (h.run.codeOfLeaf_eq h2).mpr hp

/-! ### The walk -/

/-- The walk over a tree of two leaves or more, from an internal node: either it stays inside the tree, or it reaches a
leaf and then reads whole codes and a path that ends inside the tree (43_decoder.md R175, R176). -/
theorem walk_internal (h : s.Built N Q e1 e2) (h2 : 2 ≤ N) : ∀ (bits : List Bool) (j : Nat) (w : Walk),
    w.cur < 2 * N - 1 → (arenaAt s.nodes w.cur).isLeaf = false →
    ∃ w', walkFrom s j bits w = .ok w' ∧ w'.cur < 2 * N - 1 ∧ (arenaAt s.nodes w'.cur).isLeaf = false ∧
      ((follow s.nodes w.cur bits = some w'.cur ∧ w'.out = w.out ∧ w'.last = w.last) ∨
        ∃ p l syms codes rest, bits = p ++ (codes ++ rest) ∧ follow s.nodes w.cur p = some l ∧ l < N ∧
          encodeSyms s.nodes (2 * N - 2) syms = some codes ∧ follow s.nodes (2 * N - 2) rest = some w'.cur ∧
          w'.out = w.out ++ (arenaAt s.nodes l).sym :: syms ∧ w'.last = j + p.length + codes.length)
  | [], j, w, hw, hi => ⟨w, rfl, hw, hi, .inl ⟨rfl, rfl, rfl⟩⟩
  | b :: bits, j, w, hw, hi => by
    have hlt := h.run.child_lt hw hi b
    rw [walkFrom, h.walkBit_internal j b hw hi, cmd_bind_ok]
    by_cases hc : childOf s.nodes w.cur b < N
    · rw [if_pos hc]
      have hroot : (arenaAt s.nodes (2 * N - 2)).isLeaf = false := by
        have := h.run.internal (j := N - 2) (by omega)
        rwa [show N + (N - 2) = 2 * N - 2 by omega] at this
      obtain ⟨w', hwalk, hw', hi', hor⟩ := h.walk_internal h2 bits (j + 1)
        { cur := 2 * N - 2, out := w.out ++ [(arenaAt s.nodes (childOf s.nodes w.cur b)).sym], last := j + 1 }
        h.run.root_lt hroot
      refine ⟨w', hwalk, hw', hi', .inr ?_⟩
      have hone : follow s.nodes w.cur [b] = some (childOf s.nodes w.cur b) := follow_cons.mpr ⟨hi, rfl⟩
      rcases hor with ⟨g1, g2, g3⟩ | ⟨p, l, syms, codes, rest, g1, g2, g3, g4, g5, g6, g7⟩
      · exact ⟨[b], _, [], [], bits, rfl, hone, hc, rfl, g1, g2, by simp [g3]⟩
      · refine ⟨[b], _, (arenaAt s.nodes l).sym :: syms, p ++ codes, rest, by simp [g1], hone, hc, ?_, g5, ?_, ?_⟩
        · rw [encodeSyms, h.codeOfSym_eq h2 g3 g2, g4]
        · rw [g6]; simp
        · rw [g7]; simp; omega
    · rw [if_neg hc]
      have hi2 : (arenaAt s.nodes (childOf s.nodes w.cur b)).isLeaf = false := by
        have := h.run.isLeaf_iff (n := childOf s.nodes w.cur b) (by omega)
        rw [← Bool.not_eq_true, this]; exact hc
      obtain ⟨w', hwalk, hw', hi', hor⟩ := h.walk_internal h2 bits (j + 1) { w with cur := childOf s.nodes w.cur b }
        (by simp only; omega) hi2
      refine ⟨w', hwalk, hw', hi', ?_⟩
      rcases hor with ⟨g1, g2, g3⟩ | ⟨p, l, syms, codes, rest, g1, g2, g3, g4, g5, g6, g7⟩
      · exact .inl ⟨follow_cons.mpr ⟨hi, g1⟩, g2, g3⟩
      · exact .inr ⟨b :: p, l, syms, codes, rest, by simp [g1], follow_cons.mpr ⟨hi, g2⟩, g3, g4, g5, g6,
          by rw [g7]; simp; omega⟩

/-- The walk from the root over a tree of two leaves or more (43_decoder.md R174–R176). -/
theorem walk_root (h : s.Built N Q e1 e2) (h2 : 2 ≤ N) (bits : List Bool) :
    ∃ w syms codes rest, walkFrom s 0 bits s.walkStart = .ok w ∧ bits = codes ++ rest ∧
      encodeSyms s.nodes (2 * N - 2) syms = some codes ∧ follow s.nodes (2 * N - 2) rest = some w.cur ∧
      w.cur < 2 * N - 1 ∧ (arenaAt s.nodes w.cur).isLeaf = false ∧ w.out = syms ∧ w.last = codes.length := by
  have hroot : (arenaAt s.nodes (2 * N - 2)).isLeaf = false := by
    have := h.run.internal (j := N - 2) (by omega)
    rwa [show N + (N - 2) = 2 * N - 2 by omega] at this
  have hstart : s.walkStart = { cur := 2 * N - 2, out := [], last := 0 } := by rw [State.walkStart, h.root]
  obtain ⟨w, h1, h3, h4, hor⟩ := h.walk_internal h2 bits 0 s.walkStart (by rw [hstart]; exact h.run.root_lt)
    (by rw [hstart]; exact hroot)
  rw [hstart] at hor
  rcases hor with ⟨g1, g2, g3⟩ | ⟨p, l, syms, codes, rest, g1, g2, g3, g4, g5, g6, g7⟩
  · exact ⟨w, [], [], bits, h1, rfl, rfl, g1, h3, h4, g2, g3⟩
  · refine ⟨w, (arenaAt s.nodes l).sym :: syms, p ++ codes, rest, h1, by simp [g1], ?_, g5, h3, h4, by simpa using g6, ?_⟩
    · rw [encodeSyms, h.codeOfSym_eq h2 g3 g2, g4]
    · rw [g7]; simp

/-- In the one-leaf tree every '0' emits the symbol (43_decoder.md R175). -/
theorem walk_zeros (h : s.Built 1 Q e1 e2) : ∀ (n j : Nat) (w : Walk), w.cur = 0 →
    walkFrom s j (List.replicate n false) w = .ok { w with
      out := w.out ++ List.replicate n (s.nodeAt 0).sym, last := if n = 0 then w.last else j + n }
  | 0, j, w, _ => by simp [walkFrom]
  | n + 1, j, w, hw => by
    have hfit := h.fits
    have hl : (s.nodeAt 0).isLeaf = true := (h.isLeaf_iff (n := 0) (by omega)).mpr (by omega)
    rw [List.replicate_succ, walkFrom, walkBit, hw, readNode_of_lt (by omega), cmd_bind_ok]
    simp only [hl, if_true, Bool.false_eq_true, if_false, cmd_pure, cmd_bind_ok]
    rw [h.walk_zeros n (j + 1) _ rfl]
    congr 1
    simp only [Walk.mk.injEq]
    refine ⟨trivial, by rw [List.append_assoc, List.singleton_append, ← List.replicate_succ], ?_⟩
    split <;> simp <;> omega

/-- In the one-leaf tree the first '1' has no child (43_decoder.md R175, R180). -/
theorem walk_one (h : s.Built 1 Q e1 e2) (rest : List Bool) : ∀ (n j : Nat) (w : Walk), w.cur = 0 →
    walkFrom s j (List.replicate n false ++ true :: rest) w =
      .error (.error .undecodableSequence (BitVec.ofNat 32 (j + n)))
  | 0, j, w, hw => by
    have hfit := h.fits
    have hl : (s.nodeAt 0).isLeaf = true := (h.isLeaf_iff (n := 0) (by omega)).mpr (by omega)
    rw [List.replicate_zero, List.nil_append, walkFrom, walkBit, hw, readNode_of_lt (by omega), cmd_bind_ok]
    simp [hl]
  | n + 1, j, w, hw => by
    have hfit := h.fits
    have hl : (s.nodeAt 0).isLeaf = true := (h.isLeaf_iff (n := 0) (by omega)).mpr (by omega)
    rw [List.replicate_succ, List.cons_append, walkFrom, walkBit, hw, readNode_of_lt (by omega), cmd_bind_ok]
    simp only [hl, if_true, Bool.false_eq_true, if_false, cmd_pure, cmd_bind_ok]
    rw [h.walk_one rest n (j + 1) _ rfl, show j + 1 + n = j + (n + 1) by omega]

end State.Built

/-! ### The command -/

/-- The bit-string has as many bits as `BIN_LEN` says. -/
theorem length_bits {s : State} {bits : List Bool} (h : s.binChars = bits.map charOfBit) :
    bits.length = s.binLen.toNat := by
  rw [← length_binChars, h, List.length_map]

/-- DECODE of a well-formed bit-string is the walk, and then the text (43_decoder.md R174). -/
theorem decodeBody_of_bits {s : State} {bits : List Bool} (hl : s.binLen.toNat ≤ s.cfg.lMax) (ht : s.treeValid = true)
    (h : s.binChars = bits.map charOfBit) :
    decodeBody s = (do
      let w ← walkFrom s 0 bits s.walkStart
      if 0 < bits.length ∧ w.out.length = 0 then Cmd.raise .undecodableSequence (BitVec.ofNat 32 bits.length)
      else
        let t ← writeSout s w.out
        return { t with
          soutLen := BitVec.ofNat 32 w.out.length
          decTrail := BitVec.ofNat 32 (bits.length - w.last) }) := by
  rw [decodeBody, if_neg (by simp [ht]), readBinChars_of_le hl, cmd_bind_ok, validateFrom_eq_ok.mpr h, cmd_bind_ok]

/-- DECODE of a malformed bit-string fails at its first malformed character (43_decoder.md R174). -/
theorem decodeBody_of_malformed {s : State} (hl : s.binLen.toNat ≤ s.cfg.lMax) (ht : s.treeValid = true) {j : Nat}
    (hj : j < s.binLen.toNat) (hn : bitval (s.binAt j) = none) (hk : ∀ k < j, bitval (s.binAt k) ≠ none) :
    decodeBody s = .error (.error .malformedBitstring (BitVec.ofNat 32 j)) := by
  rw [decodeBody, if_neg (by simp [ht]), readBinChars_of_le hl, cmd_bind_ok,
    validateFrom_malformed (k := j) (by simpa using hj) (by rw [getElem_binChars]; exact hn)
      (fun i hi => by rw [getElem_binChars]; exact hk i hi)]
  simp

end Sys2Proof.Machine
end

