-- ==== Sys2Proof/Tests/Slice0.lean ====
section
/-! SUPPORT. Small tests: ill-formed terms refused; one word per command, written out from the spec; one step per command
against the vectors of spec/95_test_vectors.md; and for every statement with hypotheses a state that meets them. -/

namespace Sys2Proof.Tests

open Sys2Proof.Machine

/-! ### Ill-formed terms are refused -/

theorem test_words_refused :
    legalWord 0x00000001 = false ∧ legalWord 0x02010061 = false ∧ legalWord 0x7F000000 = false ∧
    legalWord 0xFFFFFFFF = false ∧ legalWord 0x04000000 = false ∧ legalWord 0x22000001 = false := by decide

theorem test_words_rejected_by_name :
    decodeCmd 0x00000001 = .illegal .operandOnFormatN ∧ decodeCmd 0x02010061 = .illegal .reservedBits ∧
    decodeCmd 0x7F000000 = .illegal .unlistedOpcode := by decide

theorem test_accesses_refused :
    accessWellFormed .byte 0x14 = false ∧ accessWellFormed .half 0x14 = false ∧ accessWellFormed .word 0x16 = false ∧
    accessWellFormed .word 0x100 = false ∧ accessWellFormed .word 0xFC = true := by decide

theorem test_programs_refused :
    hostProgramWellFormed [.wr .byte 0x1C 0] = false ∧ hostProgramWellFormed [.rd .word .h0 0x15] = false ∧
    hostProgramWellFormed [.label 1, .bnez .h0 2] = false ∧ hostProgramWellFormed [.beqz .h0 1] = false ∧
    hostProgramWellFormed [.label 1, .bnez .h0 1, .halt] = true := by decide

theorem test_sizes_refused :
    Config.Params.ofSizes? 0 1 = none ∧ Config.Params.ofSizes? 32768 1 = none ∧ Config.Params.ofSizes? 1 0 = none ∧
    Config.Params.ofSizes? 1 65536 = none ∧ Config.Params.ofSizes? 256 4096 = some Config.Params.default := by decide

/-! ### One word per command: opcode, eight zero bits, operand (30_encoding.md R80–R85) -/

theorem test_decode_nop : decodeTableWord 32 0b00000000000000000000000000000000 = some .nop := by decide
theorem test_decode_clear : decodeTableWord 32 0b00000001000000000000000000000000 = some .clear := by decide
theorem test_decode_freqAdd : decodeTableWord 32 0b00000010000000000000000001100001 = some (.freqAdd 0x0061) := by decide
theorem test_decode_freqRead : decodeTableWord 32 0b00000011000000000000000000000010 = some (.freqRead 2) := by decide
theorem test_decode_build : decodeTableWord 32 0b00010000000000000000000000000000 = some .build := by decide
theorem test_decode_nodeRead : decodeTableWord 32 0b00010001000000000000000000000100 = some (.nodeRead 4) := by decide
theorem test_decode_decClear : decodeTableWord 32 0b00100000000000000000000000000000 = some .decClear := by decide
theorem test_decode_decPush : decodeTableWord 32 0b00100001000000000000000000110000 = some (.decPush 0x0030) := by decide
theorem test_decode_decode : decodeTableWord 32 0b00100010000000000000000000000000 = some .decode := by decide
theorem test_decode_decRead : decodeTableWord 32 0b00100011000000001111111111111111 = some (.decRead 0xFFFF) := by decide

/-- A word wider than a command word is none; bits above `nbits` are taken as 0. -/
theorem test_decode_width :
    decodeTableWord 40 0x0100000000 = none ∧ decodeTableWord 32 0x0110000000 = some .build ∧
    decodeTableWord 32 0x00000001 = none := by decide

/-! ### States -/

/-- The machine's invariant from its clauses, so that a concrete state is checked by evaluation. -/
theorem inv_of_clauses {s : State}
    (h : (s.ftCount.toNat ≤ s.cfg.nMax ∧ s.binLen.toNat ≤ s.cfg.lMax ∧
        s.ftTotal.toNat = (s.ftEntries.map (fun e => e.freq.toNat)).sum ∧
        (s.ftEntries.map (fun e => e.sym)).Nodup ∧
        (s.treeValid = true → 1 ≤ s.ftCount.toNat ∧ s.nodeCount.toNat = 2 * s.ftCount.toNat - 1 ∧
          s.root.toNat = 2 * s.ftCount.toNat - 2) ∧
        (s.treeValid = false → s.nodeCount = 0 ∧ s.root = 0) ∧ s.soutLen.toNat ≤ s.cfg.lMax ∧
        (s.busy = true ↔ s.pending ≠ none) ∧ s.soutLen.toNat + s.decTrail.toNat ≤ s.binLen.toNat ∧
        (0 < s.soutLen.toNat → s.treeValid = true)) ∧
      (Memory.wf FtEntry.blank s.ft = true ∧ Memory.wf Node.blank s.node = true ∧ Memory.wf blankHalf s.bin = true ∧
        Memory.wf blankHalf s.sout = true) ∧
      (Memory.within s.cfg.nMax s.ft = true ∧ Memory.within s.cfg.nodeMax s.node = true ∧
        Memory.within s.cfg.lMax s.bin = true ∧ Memory.within s.cfg.lMax s.sout = true) ∧
      (s.treeValid = true → s.nodes = buildArena s.ftEntries) ∧
      s.errCode ≠ .unknownSymbol ∧ s.errCode ≠ .emptyInput) : s.Inv := by
  obtain ⟨⟨a1, a2, a3, a4, a5, a6, a7, a8, a9, a10⟩, ⟨b1, b2, b3, b4⟩, ⟨c1, c2, c3, c4⟩, d, e⟩ := h
  exact ⟨⟨a1, a2, a3, a4, a5, a6, a7, a8, a9, a10⟩, ⟨b1, b2, b3, b4, c1, c2, c3, c4⟩, d, e⟩

/-- N_MAX = 2 and L_MAX = 2 (vectors F8, F12 and D23). -/
def tiny : Config.Params := { sizeN := 1, sizeL := 1 }

/-- A pending command. -/
def busyWith (s : State) (w a : Word) : State := { s with pending := some { word := w, arg := a }, busy := true }

/-- The table of "aab", no tree. -/
def tableAab : State :=
  { State.reset with ftCount := 2, ftTotal := 3, ft := [(0, { sym := 0x61, freq := 2 }), (1, { sym := 0x62, freq := 1 })] }

/-- A full table of two symbols at N_MAX = 2, no tree, two characters at L_MAX = 2 (vectors F8, D23). -/
def full : State :=
  { State.resetWith tiny with
    ftCount := 2, ftTotal := 2, ft := [(0, { sym := 0x61, freq := 1 }), (1, { sym := 0x62, freq := 1 })]
    binLen := 2, bin := [(0, 0x30), (1, 0x31)] }

/-- The table at the largest total (vector F5). -/
def heavy : State :=
  { State.reset with ftCount := 1, ftTotal := 0xFFFFFFFF, ft := [(0, { sym := 0x61, freq := 0xFFFFFFFF })] }

/-- The "aaabbc" tree with the bit-string "01" decoded: 'a' and a trailing '1' (vectors B1, D4). -/
def treeT1 : State :=
  { State.reset with
    ftCount := 3, ftTotal := 6
    ft := [(0, { sym := 0x61, freq := 3 }), (1, { sym := 0x62, freq := 2 }), (2, { sym := 0x63, freq := 1 })]
    treeValid := true, root := 4, nodeCount := 5
    node := [(0, { freq := 3, isLeaf := true, sym := 0x61, left := 0xFFFF, right := 0xFFFF }),
      (1, { freq := 2, isLeaf := true, sym := 0x62, left := 0xFFFF, right := 0xFFFF }),
      (2, { freq := 1, isLeaf := true, sym := 0x63, left := 0xFFFF, right := 0xFFFF }),
      (3, { freq := 3, isLeaf := false, sym := 0, left := 1, right := 2 }),
      (4, { freq := 6, isLeaf := false, sym := 0, left := 0, right := 3 })]
    binLen := 2, bin := [(0, 0x30), (1, 0x31)], soutLen := 1, sout := [(0, 0x61)], decTrail := 1 }

/-- A tree with another bit-string, nothing decoded. -/
def withBits (s : State) (cs : List Half) : State :=
  { s with binLen := BitVec.ofNat 32 cs.length, bin := Memory.setAll blankHalf [] 0 cs, soutLen := 0, decTrail := 0 }

/-- The one-leaf tree x:3 with the bit-string "00" decoded (vector B11, program P3). -/
def treeT2 : State :=
  { State.reset with
    ftCount := 1, ftTotal := 3, ft := [(0, { sym := 0x78, freq := 3 })]
    treeValid := true, root := 0, nodeCount := 1
    node := [(0, { freq := 3, isLeaf := true, sym := 0x78, left := 0xFFFF, right := 0xFFFF })]
    binLen := 2, bin := [(0, 0x30), (1, 0x30)], soutLen := 2, sout := [(0, 0x78), (1, 0x78)] }

theorem inv_reset : State.reset.Inv := inv_of_clauses (by decide)
theorem inv_tableAab : tableAab.Inv := inv_of_clauses (by decide)
theorem inv_full : full.Inv := inv_of_clauses (by decide)
theorem inv_heavy : heavy.Inv := inv_of_clauses (by decide)
theorem inv_treeT1 : treeT1.Inv := inv_of_clauses (by decide)
theorem inv_treeT2 : treeT2.Inv := inv_of_clauses (by decide)

/-! ### One step per command -/

/-- Whether a step answers a next state that satisfies a check. -/
def nextIs (o : Host.Outcome State Fault Refusal) (p : State → Bool) : Bool :=
  match o with
  | .next t => p t
  | .fault _ => false
  | .refused _ => false

/-- The state a test leaves; reset where the command stops. -/
def after (i : Instr) (s : State) : State :=
  match exec i s with
  | .next t => t
  | .fault _ => State.reset
  | .refused _ => State.reset

/-- 40_control.md R110, the example: NOP clears an error. -/
theorem test_nop : nextIs (exec .nop { busyWith State.reset 0 0 with errCode := .emptyAlphabet, errInfo := 7 })
    (fun t => t.statusWord == 0x00000002 && t.errInfo == 0 && t.pending == none) = true := by decide

/-- 40_control.md R111, vector Q8: CLEAR keeps OVERRUN. -/
theorem test_clear : nextIs (exec .clear { busyWith treeT1 0x01000000 0 with overrun := true, res0 := 5 })
    (fun t => t.statusWord == 0x0000000A && t.ftCount == 0 && t.nodeCount == 0 && t.root == 0 && t.binLen == 0 &&
      t.soutLen == 0 && t.decTrail == 0 && t.ftTotal == 0 && t.res0 == 5) = true := by decide

/-- Vector F8: the third symbol does not fit at N_MAX = 2. -/
theorem test_freqAdd_full : nextIs (exec (.freqAdd 0x63) (busyWith full 0x02000063 1))
    (fun t => t.errCode.number == 0x11 && t.errInfo == 0x63 && t.ftCount == 2 && t.ftTotal == 2) = true := by decide

/-- Vector F9: a symbol of the table does; the operand is the latched one, not ARG0. -/
theorem test_freqAdd_present : nextIs (exec (.freqAdd 0x61) { busyWith full 0x02000061 1 with arg0 := 9 })
    (fun t => t.errCode.number == 0 && t.ftAt 0 == { sym := 0x61, freq := 2 } && t.ftTotal == 3) = true := by decide

/-- 41_freq_table.md R125: the entry's symbol and frequency. -/
theorem test_freqRead : nextIs (exec (.freqRead 1) tableAab)
    (fun t => t.res0 == 0x62 && t.res1 == 1 && t.res2 == 0) = true := by decide

/-- 41_freq_table.md R125: an index at FT_COUNT. -/
theorem test_freqRead_past : nextIs (exec (.freqRead 2) { tableAab with res0 := 8 })
    (fun t => t.errCode.number == 0x14 && t.errInfo == 2 && t.res0 == 8) = true := by decide

/-- Vector B3: all frequencies equal, so that only the tie-break decides. -/
theorem test_build_ties : (buildArena [{ sym := 0x61, freq := 1 }, { sym := 0x62, freq := 1 }, { sym := 0x63, freq := 1 },
      { sym := 0x64, freq := 1 }]).map (fun n => (n.freq, n.left, n.right)) =
    [(1, 0xFFFF, 0xFFFF), (1, 0xFFFF, 0xFFFF), (1, 0xFFFF, 0xFFFF), (1, 0xFFFF, 0xFFFF), (2, 1, 0), (2, 3, 2), (4, 5, 4)] := by
  decide

/-- Vector B2: two symbols. -/
theorem test_build : nextIs (exec .build (busyWith tableAab 0x10000000 0))
    (fun t => t.statusWord == 0x00000012 && t.root == 2 && t.nodeCount == 3 &&
      t.nodeAt 2 == { freq := 3, isLeaf := false, sym := 0, left := 0, right := 1 }) = true := by decide

/-- Vector N5: the root of the example tree. -/
theorem test_nodeRead_root : nextIs (exec (.nodeRead 4) treeT1)
    (fun t => t.res0 == 6 && t.res1 == 0 && t.res2 == 0x00030000) = true := by decide

/-- Vector N2: a leaf. -/
theorem test_nodeRead_leaf : nextIs (exec (.nodeRead 1) treeT1)
    (fun t => t.res0 == 2 && t.res1 == 0x80000062 && t.res2 == 0xFFFFFFFF) = true := by decide

/-- Vector D24. -/
theorem test_decClear : nextIs (exec .decClear treeT1)
    (fun t => t.binLen == 0 && t.soutLen == 0 && t.decTrail == 0 && t.treeValid && t.root == 4) = true := by decide

/-- Vector D23: the buffer is full at L_MAX = 2. -/
theorem test_decPush_full : nextIs (exec (.decPush 0x30) full)
    (fun t => t.errCode.number == 0x16 && t.errInfo == 0x30 && t.binLen == 2) = true := by decide

/-- 43_decoder.md R172: any character is stored, and the decoded text stays (vector D18). -/
theorem test_decPush : nextIs (exec (.decPush 0x0130) treeT1)
    (fun t => t.binLen == 3 && t.binAt 2 == 0x0130 && t.soutLen == 1 && t.decTrail == 1) = true := by decide

/-- Vector D1: the source's example. -/
theorem test_decode : nextIs (exec .decode (withBits treeT1 [0x30, 0x30, 0x30, 0x31, 0x30, 0x31, 0x30, 0x31, 0x31]))
    (fun t => t.soutSyms == [0x61, 0x61, 0x61, 0x62, 0x62, 0x63] && t.decTrail == 0 && t.statusWord == 0x12) = true := by
  decide

/-- Vector D15: validation runs before the walk. -/
theorem test_decode_malformed : nextIs (exec .decode (withBits treeT2 [0x31, 0x32]))
    (fun t => t.errCode.number == 0x03 && t.errInfo == 1 && t.soutLen == 0) = true := by decide

/-- Vector D21: a symbol of the text, and an index past it. -/
theorem test_decRead : nextIs (exec (.decRead 0) treeT1) (fun t => t.res0 == 0x61 && t.errCode.number == 0) = true := by
  decide

theorem test_decRead_past : nextIs (exec (.decRead 1) { treeT1 with res0 := 0x63 })
    (fun t => t.errCode.number == 0x14 && t.errInfo == 1 && t.res0 == 0x63) = true := by decide

/-! ### One step of the machine, the window and the host -/

/-- The first instruction after reset. -/
theorem test_withFetchWord : nextIs (step (State.reset.withFetchWord 32 0x10000000))
    (fun t => t.errCode == .emptyAlphabet && t.done && t.pending == none) = true := by decide

/-- An illegal word completes with its own bits as detail (30_encoding.md R86). -/
theorem test_illegal_word : nextIs (step (State.reset.withFetchWord 32 0x22000001))
    (fun t => t.errCode.number == 0x10 && t.errInfo == 0x22000001) = true := by decide

/-- Program P4's line 3 after line 2: the NOP is dropped, or accepted, by whose turn came between. -/
theorem test_overrun : nextIs (hostStep { busyWith State.reset 0x10000000 0 with
      host := { program := [.wr .word 0x1C 0], place := 0, vars := HostVars.zero } })
    (fun t => t.overrun && t.pending == some { word := 0x10000000, arg := 0 } && t.host.place == 1) = true := by decide

/-- Vectors Q1 and Q7. -/
theorem test_status_and_irq :
    ((State.reset.writeWord 0x10 1).complete).irq = true ∧
    (({ State.reset with overrun := true, done := true, errCode := .emptyAlphabet } : State).writeWord 0x14
      0xFFFFFFFF).readWord 0x14 = 0x00000104 := by decide

theorem test_identity : State.reset.readWord 0x00 = 0x48554601 ∧ State.reset.readWord 0x04 = 256 ∧
    State.reset.readWord 0x08 = 4096 ∧ State.reset.readWord 0x0C = 0x00102010 ∧ State.reset.readWord 0x4C = 0 := by decide

theorem test_host_refusals :
    accessRefusal .half 0x14 = some (.subWordAccess 0x14) ∧ accessRefusal .word 0x15 = some (.misalignedAccess 0x15) ∧
    accessRefusal .word 0x100 = some (.outsideWindow 0x100) ∧ accessRefusal .word 0xFC = none := by decide

/-- 30_encoding.md R91, R92: `DO NOP` written out. -/
theorem test_assemble : assemble [.doCommand .nop, .errchk .h0] =
    [.wr .word 0x1C 0, .label 0, .rd .word .h7 0x14, .andi .h7 .h7 1, .bnez .h7 0, .rd .word .h0 0x14,
      .andi .h0 .h0 0xFF00] := by decide

/-- The reset input drops a pending command and keeps nothing of the session (70_reset_and_hazards.md R230, R232). -/
theorem test_reset_turn : nextIs (step { busyWith treeT1 0x10000000 0 with schedule := [.reset], irqEn := true })
    (fun t => t.statusWord == 0 && t.pending == none && t.ftCount == 0 && !t.irqEn) = true := by decide

/-! ### Witnesses: a state and operands that meet the hypotheses of each statement -/

/-- The outcome is the next state `after` names. -/
theorem next_after {i : Instr} {s : State} (h : nextIs (exec i s) (fun _ => true) = true) : exec i s = .next (after i s) := by
  unfold after
  cases hx : exec i s <;> simp_all [nextIs]

/-- The host of a state is about to run one statement. -/
def withStmt (s : State) (st : HostStmt) : State :=
  { s with host := { program := [st], place := 0, vars := HostVars.zero } }

theorem witness_DecodeAndEncodeAreInverse :
    (Instr.freqAdd 0xFFFF).wellFormed = true ∧ legalWord 0x0200FFFF = true ∧ legalWord 0x22000000 = true := by decide

theorem witness_IllegalWordIsAcceptedAndCompletes :
    decodeCmd 0x22000001 = .illegal .operandOnFormatN ∧ State.reset.busy = false := by decide

theorem witness_StepPerformsThePendingCommand :
    (busyWith State.reset 0x10000000 0).nextTurn = .engine ∧
    (busyWith State.reset 0x10000000 0).pending = some { word := 0x10000000, arg := 0 } ∧
    decodeCmd 0x10000000 = .command .build ∧ decodeCmd 0x10000001 = .illegal .operandOnFormatN ∧
    ({ State.reset with schedule := [.engine] } : State).nextTurn = .engine ∧ State.reset.pending = none := by decide

theorem witness_AcceptanceLatchesWordAndArgument : State.reset.busy = false := by decide

theorem witness_BusyCommandWriteIsDropped :
    (busyWith State.reset 0x10000000 0).busy = true ∧
    nextIs (step { State.reset with overrun := true, schedule := [.reset] }) (fun t => !t.overrun) = true ∧
    nextIs (step { withStmt State.reset (.wr .word 0x14 0x8) with overrun := true }) (fun t => !t.overrun) = true := by
  decide

theorem witness_CompletionFieldsAndAtomicFailure :
    nextIs (performWord 0x10000000 tableAab) (fun t => t.errCode == .ok) = true ∧
    nextIs (performWord 0x10000000 State.reset) (fun t => t.errCode != .ok) = true ∧
    nextIs (performWord 0x22000000 (withBits treeT1 [0x31])) (fun t => t.errCode != .ok) = true := by decide

theorem witness_Arg0IsPlainStorage :
    exec (.freqAdd 0x61) (busyWith full 0x02000061 1) = .next (after (.freqAdd 0x61) (busyWith full 0x02000061 1)) ∧
    full.busy = false ∧ Instr.build ≠ .freqAdd 0 ∧
    nextIs (performWord 0x02000061 (busyWith full 0x02000061 1)) (fun _ => true) = true :=
  ⟨next_after (by decide), by decide, by decide, by decide⟩

theorem witness_FirstFailingCheckIsReported :
    (busyWith tableAab 0x02000061 5).Inv ∧ treeT1.Inv ∧
    nextIs (performWord 0x01000001 tableAab) (fun _ => true) = true ∧ nextIs (exec .nop tableAab) (fun _ => true) = true ∧
    nextIs (exec (.freqAdd 0x61) (busyWith tableAab 0x02000061 5)) (fun _ => true) = true ∧
    nextIs (exec (.freqAdd 0x61) (busyWith heavy 0x02000061 1)) (fun t => t.errCode == .freqOverflow) = true ∧
    nextIs (exec (.freqRead 2) tableAab) (fun t => t.errCode == .badIndex) = true ∧
    nextIs (exec .build State.reset) (fun t => t.errCode == .emptyAlphabet) = true ∧
    nextIs (exec (.nodeRead 0) tableAab) (fun t => t.errCode == .noTree) = true ∧
    nextIs (exec (.nodeRead 5) treeT1) (fun t => t.errCode == .badIndex) = true ∧
    nextIs (exec (.decPush 0x30) full) (fun t => t.errCode == .bufferFull) = true ∧
    nextIs (exec .decode (withBits treeT1 [0x31])) (fun t => t.errCode == .undecodableSequence) = true ∧
    nextIs (exec (.decRead 1) treeT1) (fun t => t.errCode == .badIndex) = true :=
  ⟨inv_of_clauses (by decide), inv_treeT1, by decide, by decide, by decide, by decide, by decide, by decide, by decide,
    by decide, by decide, by decide, by decide⟩

/-- A pending BUILD, a host that polls once, and two turns of the host. -/
def polling : State :=
  { busyWith tableAab 0x10000000 0 with
    schedule := [.host, .host]
    host := { program := [.label 0, .rd .word .h7 0x14, .andi .h7 .h7 1, .bnez .h7 0], place := 0, vars := HostVars.zero } }

theorem inv_polling : polling.Inv := inv_of_clauses (by decide)

theorem witness_EveryAcceptedCommandCompletes :
    polling.Inv ∧ polling.pending ≠ none ∧ hostProgramWellFormed polling.host.program = true ∧
    (∀ u ∈ polling.schedule, u ≠ .reset) ∧ nextIs (hostStep polling) (fun _ => true) = true :=
  ⟨inv_polling, by decide, by decide, by decide, by decide⟩

theorem witness_ErrorReportLastsUntilTheNextCompletion :
    nextIs (step (busyWith State.reset 0x10000000 0)) (fun t => t.errCode != .ok) = true ∧
    nextIs (step { withStmt State.reset (.wr .word 0x14 2) with done := true }) (fun t => !t.done) = true ∧
    nextIs (step { withStmt State.reset (.wr .word 0x1C 0) with done := true }) (fun t => !t.done) = true := by decide

theorem witness_TurnsFollowTheSchedule :
    polling.schedule = .host :: [.host] ∧ polling.nextTurn = .host ∧ State.reset.schedule = [] ∧
    State.reset.pending = none ∧ (busyWith State.reset 0 0).pending ≠ none := by decide

theorem witness_ClearStartsANewSession :
    Instr.decode ≠ .clear ∧ treeT1.treeValid = true ∧ nextIs (exec .decode treeT1) (fun _ => true) = true := by decide

theorem witness_FreqAddAddsTheLatchedIncrement :
    (busyWith treeT1 0x02000061 1).Inv ∧ treeT1.treeValid = true ∧
    ((busyWith full 0x02000063 1).Inv ∧ full.treeValid = false ∧ (∀ i < full.ftCount.toNat, (full.ftAt i).sym ≠ 0x63) ∧
      full.ftCount.toNat = full.cfg.nMax) ∧
    ((busyWith heavy 0x02000061 1).Inv ∧ heavy.treeValid = false ∧ heavy.ftCount.toNat ≠ heavy.cfg.nMax ∧
      0xFFFFFFFF < heavy.ftTotal.toNat + (1 : Word).toNat) ∧
    ((busyWith heavy 0x02000061 0).Inv ∧ heavy.ftTotal.toNat + (0 : Word).toNat ≤ 0xFFFFFFFF ∧
      0 < heavy.ftCount.toNat ∧ (heavy.ftAt 0).sym = 0x61) ∧
    ((busyWith State.reset 0x02000061 0xFFFFFFFF).Inv ∧
      State.reset.ftTotal.toNat + (0xFFFFFFFF : Word).toNat ≤ 0xFFFFFFFF ∧
      (∀ i < State.reset.ftCount.toNat, (State.reset.ftAt i).sym ≠ 0x61) ∧
      State.reset.ftCount.toNat < State.reset.cfg.nMax) :=
  ⟨inv_of_clauses (by decide), by decide, ⟨inv_of_clauses (by decide), by decide, by decide, by decide⟩,
    ⟨inv_of_clauses (by decide), by decide, by decide, by decide⟩, ⟨inv_of_clauses (by decide), by decide, by decide, by decide⟩,
    ⟨inv_of_clauses (by decide), by decide, by decide, by decide⟩⟩

theorem witness_TableIsLockedWhileATreeExists :
    nextIs (exec .build tableAab) (fun t => t.errCode == .ok) = true ∧
    nextIs (step (busyWith treeT1 0x01000000 0)) (fun t => !t.treeValid) = true ∧
    nextIs (step { treeT1 with schedule := [.reset] }) (fun t => !t.treeValid) = true ∧
    State.reset.ftCount = 0 ∧ nextIs (exec (.freqRead 0) treeT1) (fun _ => true) = true := by decide

theorem witness_TableHoldsTheSumsInFirstSeenOrder :
    State.reset.Inv ∧ State.reset.ftCount = 0 ∧ State.reset.treeValid = false ∧
    (runAdds [(0x61, 3), (0x62, 2), (0x61, 0xFFFFFFFF), (0x61, 1)] State.reset).2.ftEntries =
      [{ sym := 0x61, freq := 4 }, { sym := 0x62, freq := 2 }] :=
  ⟨inv_reset, by decide, by decide, by decide⟩

theorem witness_FreqReadReturnsTheEntry :
    tableAab.Inv ∧ tableAab.ftCount.toNat ≤ (2 : Half).toNat ∧ (1 : Half).toNat < tableAab.ftCount.toNat :=
  ⟨inv_tableAab, by decide, by decide⟩

theorem witness_BuildMergesTheTwoLeastNodes :
    State.reset.Inv ∧ State.reset.ftCount = 0 ∧ treeT2.Inv ∧ treeT2.ftCount ≠ 0 ∧ treeT1.Inv ∧ treeT1.ftCount ≠ 0 :=
  ⟨inv_reset, by decide, inv_treeT2, by decide, inv_treeT1, by decide⟩

theorem witness_BuildWritesOnlyTheTreeAndItStays :
    full.Inv ∧ nextIs (exec .build full) (fun t => t.errCode == .ok) = true ∧ treeT1.Inv ∧ treeT1.treeValid = true ∧
    nextIs (exec .build treeT1) (fun _ => true) = true :=
  ⟨inv_full, by decide, inv_treeT1, by decide, by decide⟩

theorem witness_EmptyAndRepeatedBuildChangeNothing :
    State.reset.Inv ∧ State.reset.ftCount = 0 ∧ treeT1.Inv ∧ treeT1.treeValid = true :=
  ⟨inv_reset, by decide, inv_treeT1, by decide⟩

theorem witness_OneSymbolGivesAOneLeafTree : heavy.Inv ∧ heavy.ftCount = 1 := ⟨inv_heavy, by decide⟩

theorem witness_NodeReadReturnsTheNode :
    tableAab.Inv ∧ tableAab.treeValid = false ∧ treeT1.Inv ∧ treeT1.treeValid = true ∧
    treeT1.nodeCount.toNat ≤ (5 : Half).toNat ∧ (4 : Half).toNat < treeT1.nodeCount.toNat ∧
    (treeT1.nodeAt 4).isLeaf = false ∧ (treeT1.nodeAt 0).isLeaf = true :=
  ⟨inv_tableAab, by decide, inv_treeT1, by decide, by decide, by decide, by decide, by decide⟩

/-- The hypotheses of every law of the built tree, with three leaves and with one. -/
theorem witness_laws_of_the_tree :
    treeT1.Inv ∧ treeT1.treeValid = true ∧ 2 ≤ treeT1.ftCount.toNat ∧ treeT1.nodeCount ≠ 1 ∧
    treeT2.Inv ∧ treeT2.treeValid = true ∧ treeT2.ftCount = 1 ∧ treeT2.nodeCount = 1 :=
  ⟨inv_treeT1, by decide, by decide, by decide, inv_treeT2, by decide, by decide, by decide⟩

theorem witness_TreeMinimisesWeightedPathLength :
    ((FreqTree.node (.node (.leaf 3) (.leaf 1)) (.leaf 2)).leaves).Perm (treeT1.ftEntries.map (fun e => e.freq.toNat)) ∧
    weightedPathLength treeT1.nodes treeT1.root.toNat treeT1.ftCount.toNat = 9 ∧
    (FreqTree.node (.node (.leaf 3) (.leaf 1)) (.leaf 2)).costAt 0 = 10 := by decide

theorem witness_CodeLengthsAreMonotone :
    (treeT1.ftAt 2).freq.toNat < (treeT1.ftAt 0).freq.toNat ∧ 2 < treeT1.ftCount.toNat ∧
    depthOf treeT1.nodes treeT1.root.toNat 0 = 1 ∧ depthOf treeT1.nodes treeT1.root.toNat 2 = 2 := by decide

theorem witness_EveryLeafHasItsCode :
    follow treeT1.nodes treeT1.root.toNat [true, false] = some 1 ∧
    (∀ l < treeT1.ftCount.toNat, (treeT1.ftAt l).sym ≠ 0x7A) := by decide

theorem witness_CodesArePrefixFree :
    codeOfLeaf treeT1.nodes treeT1.root.toNat 1 = some [true, false] ∧
    codeOfLeaf treeT1.nodes treeT1.root.toNat 2 = some [true, true] := by decide

theorem witness_TreeIsAFunctionOfTheTable :
    tableAab.MemoriesWf ∧ ({ tableAab with binLen := 1, arg0 := 4 } : State).MemoriesWf ∧
    nextIs (exec .build tableAab) (fun t => t.errCode == .ok) = true :=
  ⟨inv_tableAab.memories, ⟨by decide, by decide, by decide, by decide, by decide, by decide, by decide, by decide⟩, by decide⟩

theorem witness_DecPushAppendsTheCharacter :
    full.Inv ∧ full.binLen.toNat = full.cfg.lMax ∧ treeT1.Inv ∧ treeT1.binLen.toNat ≠ treeT1.cfg.lMax :=
  ⟨inv_full, by decide, inv_treeT1, by decide⟩

theorem witness_DecodeChecksTreeThenCharacters :
    full.Inv ∧ full.treeValid = false ∧ (withBits treeT1 [0x30, 0x0130]).Inv ∧ 1 < (withBits treeT1 [0x30, 0x0130]).binLen.toNat ∧
    (withBits treeT1 [0x30, 0x0130]).binAt 0 = 0x0030 ∧ (withBits treeT1 [0x30, 0x0130]).binAt 1 = 0x0130 :=
  ⟨inv_full, by decide, inv_of_clauses (by decide), by decide, by decide, by decide⟩

theorem witness_DecodeReadsWholeCodes :
    treeT1.Inv ∧ 2 ≤ treeT1.ftCount.toNat ∧ treeT1.binChars = [false, true].map charOfBit ∧
    (withBits treeT1 [0x31]).Inv ∧ (withBits treeT1 [0x31]).binChars = [true].map charOfBit ∧
    (withBits treeT1 []).Inv ∧ (withBits treeT1 []).binChars = ([] : List Bool).map charOfBit :=
  ⟨inv_treeT1, by decide, by decide, inv_of_clauses (by decide), by decide, inv_of_clauses (by decide), by decide⟩

theorem witness_OneLeafTreeDecodesZeros :
    treeT2.Inv ∧ treeT2.ftCount = 1 ∧ treeT2.binChars = [false, false].map charOfBit ∧
    (withBits treeT2 [0x30, 0x31]).Inv ∧ (withBits treeT2 [0x30, 0x31]).binChars = [false, true].map charOfBit :=
  ⟨inv_treeT2, by decide, by decide, inv_of_clauses (by decide), by decide⟩

theorem witness_FailedDecodeReturnsNoText :
    nextIs (exec .decode (withBits treeT2 [0x30, 0x31])) (fun t => t.errCode == .undecodableSequence) = true := by decide

theorem witness_DecodeInvertsTheEncoding :
    treeT1.Inv ∧ treeT1.treeValid = true ∧ (∀ x ∈ [(0x61 : Half), 0x63], ∃ i < treeT1.ftCount.toNat, (treeT1.ftAt i).sym = x) ∧
    (withBits treeT1 [0x30, 0x31, 0x31]).Inv ∧
    encodeSyms treeT1.nodes treeT1.root.toNat [0x61, 0x63] = some [false, true, true] ∧
    (withBits treeT1 [0x30, 0x31, 0x31]).binChars = [false, true, true].map charOfBit :=
  ⟨inv_treeT1, by decide, by
    rintro x hx
    rcases List.mem_cons.mp hx with rfl | hx
    · exact ⟨0, by decide, by decide⟩
    · exact ⟨2, by decide, (List.mem_singleton.mp hx).symm⟩, inv_of_clauses (by decide), by decide, by decide⟩

/-- A tree no BUILD makes, whose root lacks a child on '1': only here does the walk's guard act. -/
def broken : State := { treeT1 with node := [(4, { freq := 6, isLeaf := false, sym := 0, left := 0, right := 0xFFFF })] }

theorem witness_UndecodableSequenceHasThreeCauses :
    broken.root.toNat < broken.cfg.nodeMax ∧ (broken.nodeAt broken.root.toNat).isLeaf = false ∧
    (broken.nodeAt broken.root.toNat).right = 0xFFFF ∧
    (withBits treeT2 [0x31]).Inv ∧
    nextIs (exec .decode (withBits treeT2 [0x31])) (fun t => t.errCode == .undecodableSequence && t.errInfo == 0) = true ∧
    (withBits treeT1 [0x31]).Inv ∧
    nextIs (exec .decode (withBits treeT1 [0x31])) (fun t => t.errCode == .undecodableSequence && t.errInfo == 1) = true :=
  ⟨by decide, by decide, by decide, inv_of_clauses (by decide), by decide, inv_of_clauses (by decide), by decide⟩

theorem witness_DecReadReturnsTheSymbol :
    treeT1.Inv ∧ treeT1.soutLen.toNat ≤ (1 : Half).toNat ∧ (0 : Half).toNat < treeT1.soutLen.toNat :=
  ⟨inv_treeT1, by decide, by decide⟩

theorem witness_BitStringPersists :
    nextIs (step (busyWith treeT1 0x21000031 0)) (fun t => t.binLen == 3) = true ∧
    nextIs (step (busyWith treeT1 0x20000000 0)) (fun t => t.binLen == 0) = true ∧
    treeT1.Inv ∧ nextIs (exec .decode treeT1) (fun _ => true) = true :=
  ⟨by decide, by decide, inv_treeT1, by decide⟩

theorem witness_CtrlHoldsTheInterruptEnable :
    nextIs (performWord 0x00000000 State.reset) (fun _ => true) = true := by decide

theorem witness_InterruptIsEnableAndDone :
    (0x2 : Word).getLsbD 1 = true ∧ State.reset.busy = false ∧ (0x0 : Word).getLsbD 0 = false ∧
    nextIs (performWord 0x10000000 { State.reset with irqEn := true }) (fun t => t.irq) = true := by decide

theorem witness_ByteLanesAreLittleEndian : (0 : Nat) < 4 ∧ (3 : Nat) < 4 ∧ (0 : Nat) < 8 ∧ (7 : Nat) < 8 := by decide

theorem witness_WindowReadsAndIgnoredWrites :
    State.reset.busy = false ∧ (busyWith State.reset 0 0).busy = true ∧
    (0x3F < 0x40 ∧ 0x3F ≠ 4 ∧ 0x3F ≠ 5 ∧ 0x3F ≠ 6 ∧ 0x3F ≠ 7) := by decide

theorem witness_HostReadsChangeNothing :
    (withStmt (busyWith State.reset 0 0) (.rd .word .h0 0x20)).host.current = some (.rd .word .h0 0x20) ∧
    nextIs (hostStep (withStmt (busyWith State.reset 0 0) (.rd .word .h0 0x20))) (fun _ => true) = true ∧
    HVar.h1 ≠ .h0 := by decide

theorem witness_OnlyAlignedWordAccessesRun :
    (withStmt State.reset (.wr .word 0xFC 1)).host.current = some (.wr .word (4 * 0x3F) 1) ∧
    (withStmt State.reset (.wr .word 0x100 1)).host.current = some (.wr .word 0x100 1) ∧
    (withStmt State.reset (.rd .word .h0 0xFC)).host.current = some (.rd .word .h0 (4 * 0x3F)) ∧
    (withStmt State.reset (.rd .byte .h0 0x14)).host.current = some (.rd .byte .h0 0x14) := by decide

/-- The host that polls, at another of its statements. -/
def pollingAt (place : Nat) : State := { polling with host := { polling.host with place := place } }

theorem witness_WaitPollsBusy :
    (∀ k < 4, (pollingAt k).host.program = [] ++ waitStmts 0 ++ [] ∧
      (pollingAt k).host.place = ([] : List HostStmt).length + k) ∧
    (.label 0) ∉ ([] : List HostStmt) := by decide

/-- A host at a branch back to a label. -/
def branching : State :=
  { State.reset with host := { program := [.label 0, .beqz .h7 0], place := 1, vars := HostVars.zero } }

theorem witness_HostStatementsAct :
    (withStmt State.reset (.andi .h0 .h1 7)).host.current = some (.andi .h0 .h1 7) ∧
    polling.host.program[0]? = some (.label 0) ∧
    (pollingAt 0).host.current = some (.label 0) ∧ (pollingAt 3).host.current = some (.bnez .h7 0) ∧
    branching.host.current = some (.beqz .h7 0) ∧ branching.host.program[0]? = some (.label 0) ∧
    (withStmt State.reset .halt).host.current = some .halt ∧ State.reset.host.current = none := by decide

theorem witness_ResetGivesEveryRegisterItsValue :
    ({ busyWith treeT1 0 0 with schedule := [.reset] } : State).nextTurn = .reset := by decide

theorem witness_EveryStepKeepsTheInvariant :
    polling.Inv ∧ nextIs (step polling) (fun _ => true) = true ∧ (busyWith treeT1 0x22000000 0).Inv ∧
    nextIs (step (busyWith treeT1 0x22000000 0)) (fun _ => true) = true :=
  ⟨inv_polling, by decide, inv_of_clauses (by decide), by decide⟩

/-- A stale node above NODE_COUNT, a stale character above BIN_LEN. -/
def stale : State := { treeT2 with bin := [(0, 0x30), (1, 0x30), (7, 0x39)], node := treeT2.node ++ [(5, { Node.blank with sym := 9 })] }

theorem witness_StaleEntriesAreUnobservable :
    treeT2.Inv ∧ stale.Inv ∧ treeT2.SameVisible stale ∧ stale ≠ treeT2 ∧ nextIs (step treeT2) (fun _ => true) = true :=
  ⟨inv_treeT2, inv_of_clauses (by decide), ⟨rfl, by decide, by decide, by decide, by decide⟩, by decide, by decide⟩

theorem witness_NoStepFaults :
    (busyWith treeT1 0x22000000 0).Inv ∧ nextIs (engineStep (busyWith treeT1 0x22000000 0)) (fun _ => true) = true ∧
    (busyWith treeT1 0x22000000 0).pending ≠ none :=
  ⟨inv_of_clauses (by decide), by decide, by decide⟩

theorem witness_AgentsKeepToTheirOwnState :
    nextIs (step polling) (fun _ => true) = true ∧ nextIs (engineStep polling) (fun _ => true) = true ∧
    nextIs (hostStep polling) (fun _ => true) = true := by decide

end Sys2Proof.Tests
end

section
/-! PROOFS of 00_scope.md. What each agent's step leaves alone, once per agent; the sizes follow for every step. -/

namespace Sys2Proof.Machine

/-- The registers that a host write can change (40_control.md R104); all else stays. -/
theorem writeWord_frame (s : State) (offset : Nat) (v : Word) :
    s.writeWord offset v = { s with
      irqEn := (s.writeWord offset v).irqEn, done := (s.writeWord offset v).done,
      overrun := (s.writeWord offset v).overrun, arg0 := (s.writeWord offset v).arg0,
      pending := (s.writeWord offset v).pending, busy := (s.writeWord offset v).busy } := by
  obtain ⟨-, h⟩ | ⟨-, h⟩ | ⟨-, h⟩ | ⟨-, -, h⟩ | ⟨-, -, h⟩ | h := writeWord_cases s offset v <;> rw [h] <;> rfl

/-- A host step changes the host, the draws and what a host write can change (40_control.md R104). -/
theorem hostStep_frame {s t : State} (h : hostStep s = .next t) :
    t = { s with host := t.host, draws := t.draws, irqEn := t.irqEn, done := t.done, overrun := t.overrun,
                 arg0 := t.arg0, pending := t.pending, busy := t.busy } := by
  obtain ht | ⟨offset, v, -, ht⟩ := hostStep_next h
  · rw [ht]
  · rw [ht, writeWord_frame]

/-- The engine is idle, or performs the pending word (40_control.md R101). -/
theorem engineStep_next {s t : State} (h : engineStep s = .next t) :
    (s.pending = none ∧ t = s) ∨ ∃ p, s.pending = some p ∧ performWord p.word s = .next t := by
  unfold engineStep at h
  cases hp : s.pending with
  | none => rw [hp] at h; cases h; exact .inl ⟨rfl, rfl⟩
  | some p => rw [hp] at h; exact .inr ⟨p, rfl, h⟩

/-- An engine step leaves alone the sizes, the host and what only the host writes (40_control.md R101). -/
theorem engineStep_frame {s t : State} (h : engineStep s = .next t) :
    t = { t with cfg := s.cfg, irqEn := s.irqEn, overrun := s.overrun, arg0 := s.arg0, host := s.host,
                 schedule := s.schedule, draws := s.draws } := by
  obtain ⟨-, rfl⟩ | ⟨p, -, hp⟩ := engineStep_next h
  · rfl
  · rw [performWord_frame hp]

/-- No agent and no reset changes the sizes (00_scope.md R16). -/
theorem step_cfg {s t : State} (h : step s = .next t) : t.cfg = s.cfg := by
  obtain ⟨-, h⟩ | ⟨-, -, rfl⟩ | ⟨-, p, -, h⟩ | ⟨-, rfl⟩ := step_next h
  · rw [hostStep_frame h]; rfl
  · rfl
  · rw [performWord_frame h]; rfl
  · rfl

/-- Settles O60, from the frame of each agent's step. -/
theorem agentsKeepToTheirOwnState : Obligations.AgentsKeepToTheirOwnState := by
  unfold Obligations.AgentsKeepToTheirOwnState
  refine ⟨fun s t => step_cfg, fun s t h => ?_, fun s t => hostStep_frame⟩
  rw [engineStep_frame h]
  exact ⟨rfl, rfl, rfl, rfl, rfl, rfl⟩

end Sys2Proof.Machine
end

section
/-! PROOFS of 10_state.md. Every step keeps the invariant: what a step leaves outside the table, the tree and the
buffers cannot break it, and each command that writes one of these three keeps the clauses about it.
Then the registers of the window: what each reads, and what a write to it does. -/

namespace Sys2Proof.Machine

/-! ### Slices and sums after a write -/

/-- A block written at one index is the block with that entry replaced; past its end nothing is. -/
theorem Memory.slice_set {α : Type} [DecidableEq α] {blank : α} {m : Memory α} (hm : Memory.wf blank m = true)
    (n i : Nat) (v : α) : Memory.slice blank (Memory.set blank m i v) n = (Memory.slice blank m n).set i v := by
  apply List.ext_getElem (by simp)
  intro j _ _
  rw [Memory.getElem_slice, List.getElem_set, Memory.getElem_slice]
  by_cases h : i = j
  · rw [if_pos h, ← h, Memory.get_set_same hm]
  · rw [if_neg h, Memory.get_set_other blank (Ne.symm h)]

/-- A block and the entry after it, written in one go. -/
theorem Memory.slice_set_succ {α : Type} [DecidableEq α] {blank : α} {m : Memory α} (hm : Memory.wf blank m = true)
    (n : Nat) (v : α) : Memory.slice blank (Memory.set blank m n v) (n + 1) = Memory.slice blank m n ++ [v] := by
  have hsucc : Memory.slice blank (Memory.set blank m n v) (n + 1) =
      Memory.slice blank (Memory.set blank m n v) n ++ [Memory.get blank (Memory.set blank m n v) n] := by
    simp [Memory.slice, List.range_succ]
  rw [hsucc, Memory.get_set_same hm, Memory.slice_set hm, List.set_eq_of_length_le (by simp)]

/-- Replacing one summand. -/
theorem sum_set_add {l : List Nat} {i : Nat} (hi : i < l.length) (b : Nat) : (l.set i b).sum + l[i] = l.sum + b := by
  induction l generalizing i with
  | nil => simp at hi
  | cons x l ih =>
    cases i with
    | zero => simp; omega
    | succ i => have := ih (i := i) (by simpa using hi); simp; omega

/-! ### What the invariant does not look at -/

/-- The invariant looks at no register but the counts, the lengths, `ROOT` and `TREE_VALID`; of the control bits it asks
that `BUSY` says whether a command is pending, and of `ERRCODE` that it holds a code that is raised. -/
theorem State.Inv.of_frame {s t : State} (h : s.Inv)
    (ht : t = { s with
      irqEn := t.irqEn, busy := t.busy, done := t.done, overrun := t.overrun, errCode := t.errCode, arg0 := t.arg0,
      res0 := t.res0, res1 := t.res1, res2 := t.res2, errInfo := t.errInfo, pending := t.pending, host := t.host,
      schedule := t.schedule, draws := t.draws })
    (hb : t.busy = true ↔ t.pending ≠ none) (hc : t.CodeRaised) : t.Inv := by
  rw [ht]
  exact ⟨{ h.spec with busy_iff := hb }, { h.memories with }, h.tree, hc⟩

/-- Completion with a code that is raised keeps the invariant. -/
theorem State.Inv.completeWith {s : State} (h : s.Inv) {c : ErrCode} (hc : c ≠ .unknownSymbol ∧ c ≠ .emptyInput)
    (x : Word) : (s.completeWith c x).Inv :=
  h.of_frame rfl (by simp) hc

theorem State.Inv.takeTurn {s : State} (h : s.Inv) : s.takeTurn.Inv := h.of_frame rfl h.spec.busy_iff h.code

/-- The result registers are free (10_state.md R32–R34). -/
theorem State.Inv.withResults {s : State} (h : s.Inv) (x y z : Word) :
    ({ s with res0 := x, res1 := y, res2 := z } : State).Inv := h.of_frame rfl h.spec.busy_iff h.code

/-! ### The empty session -/

/-- With every session register 0 nothing but the memories' form is left to ask (40_control.md R111). -/
theorem State.MemoriesWf.inv_clearSession {s : State} (h : s.MemoriesWf) (hb : s.busy = true ↔ s.pending ≠ none)
    (hc : s.CodeRaised) : s.clearSession.Inv where
  spec := {
    ftCount_le := Nat.zero_le _, binLen_le := Nat.zero_le _, ftTotal_eq := rfl, syms_distinct := List.nodup_nil
    tree_counts := by simp
    no_tree_counts := fun _ => ⟨rfl, rfl⟩
    soutLen_le := Nat.zero_le _, busy_iff := hb, trail_le := Nat.zero_le _
    text_needs_tree := by simp }
  memories := { h with }
  tree := by simp [State.TreeOfTable]
  code := hc

theorem inv_resetWith (cfg : Config.Params) : (State.resetWith cfg).Inv :=
  State.MemoriesWf.inv_clearSession (s := State.resetWith cfg) ⟨rfl, rfl, rfl, rfl, rfl, rfl, rfl, rfl⟩
    (by simp [State.resetWith]) (by simp [State.CodeRaised, State.resetWith])

/-- The reset input leaves an empty session over the memories there were (70_reset_and_hazards.md R230, R231). -/
theorem State.Inv.hardReset {s : State} (h : s.Inv) : s.hardReset.Inv :=
  (h.memories.inv_clearSession h.spec.busy_iff h.code).of_frame rfl (by simp) (by simp [State.CodeRaised])

/-! ### The table -/

/-- Without a tree the table may become any table that fits, with its symbols distinct and its total the sum of its
frequencies. -/
theorem State.Inv.withTable {s : State} (h : s.Inv) (hl : s.treeValid = false) {m : Memory FtEntry}
    {count total : Word} (hwf : Memory.wf FtEntry.blank m = true) (hin : Memory.within s.cfg.nMax m = true)
    (hle : count.toNat ≤ s.cfg.nMax)
    (htotal : total.toNat = ((Memory.slice FtEntry.blank m count.toNat).map (fun e => e.freq.toNat)).sum)
    (hsyms : ((Memory.slice FtEntry.blank m count.toNat).map (fun e => e.sym)).Nodup) :
    ({ s with ft := m, ftCount := count, ftTotal := total } : State).Inv where
  spec := { h.spec with
    ftCount_le := hle, ftTotal_eq := htotal, syms_distinct := hsyms
    tree_counts := fun ht => absurd ht (by simp [hl]) }
  memories := { h.memories with ft_wf := hwf, ft_within := hin }
  tree := fun ht => absurd ht (by simp [hl])
  code := h.code

/-- Adding to an entry, where the total does not overflow: the entry does not either, and no symbol changes
(41_freq_table.md R120, R122). -/
theorem State.Inv.withRaisedEntry {s : State} (h : s.Inv) (hl : s.treeValid = false) {i : Nat}
    (hi : i < s.ftCount.toNat) {inc : Word} (hfit : s.ftTotal.toNat + inc.toNat ≤ maxFreq) :
    ({ s with
      ft := Memory.set FtEntry.blank s.ft i { s.ftAt i with freq := (s.ftAt i).freq + inc },
      ftTotal := s.ftTotal + inc } : State).Inv := by
  have hle := h.spec.ftCount_le
  have hwf := h.memories.ft_wf
  have hsum := h.spec.ftTotal_eq
  have hi' : i < s.ftEntries.length := by simpa using hi
  have hget : s.ftEntries[i] = s.ftAt i := getElem_ftEntries s i hi'
  have hset := sum_set_add (l := s.ftEntries.map (fun e => e.freq.toNat)) (i := i) (by simpa using hi)
    ((s.ftAt i).freq + inc).toNat
  have hold := List.single_le_sum (l := s.ftEntries.map (fun e => e.freq.toNat)) (by simp) (s.ftAt i).freq.toNat
    (List.mem_map.mpr ⟨s.ftAt i, hget ▸ List.getElem_mem hi', rfl⟩)
  rw [List.getElem_map, hget] at hset
  simp only [maxFreq] at hfit
  have htotal : (s.ftTotal + inc).toNat = s.ftTotal.toNat + inc.toNat := toNat_add_of_lt (by omega)
  have hfreq : ((s.ftAt i).freq + inc).toNat = (s.ftAt i).freq.toNat + inc.toNat := toNat_add_of_lt (by omega)
  refine h.withTable hl (Memory.wf_set hwf _ _) (Memory.within_set _ (by omega) _ h.memories.ft_within) hle ?_ ?_
  · rw [Memory.slice_set hwf, List.map_set]
    change _ = ((s.ftEntries.map (fun e => e.freq.toNat)).set i ((s.ftAt i).freq + inc).toNat).sum
    omega
  · rw [Memory.slice_set hwf, List.map_set]
    change ((s.ftEntries.map (fun e => e.sym)).set i (s.ftAt i).sym).Nodup
    have hsym : (s.ftEntries.map (fun e => e.sym))[i]'(by simpa using hi) = (s.ftAt i).sym := by
      rw [List.getElem_map, hget]
    rw [← hsym, List.set_getElem_self]
    exact h.spec.syms_distinct

/-- A new entry for a symbol the table does not hold (41_freq_table.md R120). -/
theorem State.Inv.withNewEntry {s : State} (h : s.Inv) (hl : s.treeValid = false) {sym : Half}
    (hnew : findSym s.ftEntries sym = none) (hlt : s.ftCount.toNat < s.cfg.nMax) {inc : Word}
    (hfit : s.ftTotal.toNat + inc.toNat ≤ maxFreq) :
    ({ s with
      ft := Memory.set FtEntry.blank s.ft s.ftCount.toNat { sym := sym, freq := inc },
      ftCount := s.ftCount + 1, ftTotal := s.ftTotal + inc } : State).Inv := by
  have hwf := h.memories.ft_wf
  have hmax := nMax_le s.cfg
  have hcount : (s.ftCount + 1).toNat = s.ftCount.toNat + 1 := toNat_add_of_lt (b := 1) (by simp; omega)
  refine h.withTable hl (Memory.wf_set hwf _ _) (Memory.within_set _ hlt _ h.memories.ft_within) (by omega) ?_ ?_
  · have htotal : (s.ftTotal + inc).toNat = s.ftTotal.toNat + inc.toNat :=
      toNat_add_of_lt (by simp only [maxFreq] at hfit; omega)
    rw [hcount, Memory.slice_set_succ hwf, htotal, h.spec.ftTotal_eq, List.map_append, List.sum_append]
    simp [State.ftEntries]
  · rw [hcount, Memory.slice_set_succ hwf, List.map_append]
    change (s.ftEntries.map (fun e => e.sym) ++ [sym]).Nodup
    rw [List.nodup_append]
    exact ⟨h.spec.syms_distinct, by simp, by simpa using findSym_eq_none.mp hnew⟩

theorem freqAddBody_keeps_inv {sym : Half} {inc : Word} {s u : State} (h : s.Inv)
    (hu : freqAddBody sym inc s = .ok u) : u.Inv := by
  obtain ⟨hl, -, hfit, ⟨i, -, hi, -, rfl⟩ | ⟨hnew, hlt, rfl⟩⟩ := freqAddBody_eq_ok hu
  · exact h.withRaisedEntry hl hi hfit
  · exact h.withNewEntry hl hnew hlt hfit

/-! ### The tree -/

/-- A BUILD that succeeds leaves the tree of the table (42_builder.md R144). -/
theorem buildBody_keeps_inv {s u : State} (h : s.Inv) (hu : buildBody s = .ok u) : u.Inv := by
  obtain ⟨hpos, hle, hfit, rfl⟩ := buildBody_eq_ok hu
  have hmax := nMax_le s.cfg
  have hcount : (BitVec.ofNat 32 (2 * s.ftCount.toNat - 1)).toNat = 2 * s.ftCount.toNat - 1 := toNat_ofNat32 (by omega)
  have hroot : (BitVec.ofNat 32 (2 * s.ftCount.toNat - 2)).toNat = 2 * s.ftCount.toNat - 2 := toNat_ofNat32 (by omega)
  have hlen : (buildArena s.ftEntries).length = 2 * s.ftCount.toNat - 1 := by simp
  exact {
    spec := { h.spec with
      tree_counts := fun _ => ⟨hpos, hcount, hroot⟩
      no_tree_counts := fun ht => nomatch ht
      text_needs_tree := fun _ => rfl }
    memories := { h.memories with
      node_wf := Memory.wf_setAll _ _ h.memories.node_wf
      node_within := Memory.within_setAll _ _ _ (by simpa using hfit) h.memories.node_within }
    tree := fun _ => by
      change Memory.slice _ (Memory.setAll _ s.node 0 (buildArena s.ftEntries)) (BitVec.ofNat 32 _).toNat = _
      rw [hcount, ← hlen]
      exact Memory.slice_setAll _ h.memories.node_wf
    code := h.code }

/-! ### The decoder's buffers -/

/-- The buffers may hold any bit-string and text that fit, with a text only under a tree, and the text and the trailing
bits no longer than the bit-string. -/
theorem State.Inv.withBuffers {s : State} (h : s.Inv) {b x : Memory Half} {binLen soutLen trail : Word}
    (hb : Memory.wf blankHalf b = true ∧ Memory.within s.cfg.lMax b = true)
    (hx : Memory.wf blankHalf x = true ∧ Memory.within s.cfg.lMax x = true)
    (hle : binLen.toNat ≤ s.cfg.lMax) (htrail : soutLen.toNat + trail.toNat ≤ binLen.toNat)
    (htext : 0 < soutLen.toNat → s.treeValid = true) :
    ({ s with bin := b, sout := x, binLen := binLen, soutLen := soutLen, decTrail := trail } : State).Inv where
  spec := { h.spec with
    binLen_le := hle, soutLen_le := (Nat.le_of_add_right_le htrail).trans hle, trail_le := htrail
    text_needs_tree := htext }
  memories := { h.memories with bin_wf := hb.1, bin_within := hb.2, sout_wf := hx.1, sout_within := hx.2 }
  tree := h.tree
  code := h.code

section
variable {s : State} (h : s.Inv)
include h

theorem State.Inv.bin_ok : Memory.wf blankHalf s.bin = true ∧ Memory.within s.cfg.lMax s.bin = true :=
  ⟨h.memories.bin_wf, h.memories.bin_within⟩

theorem State.Inv.sout_ok : Memory.wf blankHalf s.sout = true ∧ Memory.within s.cfg.lMax s.sout = true :=
  ⟨h.memories.sout_wf, h.memories.sout_within⟩

theorem State.Inv.clearDecoder : s.clearDecoder.Inv :=
  h.withBuffers h.bin_ok h.sout_ok (Nat.zero_le _) (by simp) (by simp)

theorem State.Inv.withoutText : s.withoutText.Inv :=
  h.withBuffers h.bin_ok h.sout_ok h.spec.binLen_le (by simp) (by simp)

/-- A DEC_PUSH that succeeds makes the bit-string one longer (43_decoder.md R172). -/
theorem decPushBody_keeps_inv {ch : Half} {u : State} (hu : decPushBody ch s = .ok u) : u.Inv := by
  obtain ⟨hlt, rfl⟩ := decPushBody_eq_ok hu
  have hlen : (s.binLen + 1).toNat = s.binLen.toNat + 1 :=
    toNat_add_of_lt (b := 1) (by have := lMax_le s.cfg; simp; omega)
  have htrail := h.spec.trail_le
  exact h.withBuffers ⟨Memory.wf_set h.memories.bin_wf _ _, Memory.within_set _ hlt _ h.memories.bin_within⟩ h.sout_ok
    (by omega) (by omega) h.spec.text_needs_tree

end

/-- One bit of the walk emits nothing, or one symbol, and then every bit so far is consumed (43_decoder.md R174). -/
theorem walkBit_emits {s : State} {j : Nat} {b : Bool} {w w' : Walk} (h : walkBit s j b w = .ok w') :
    (w'.out = w.out ∧ w'.last = w.last) ∨ ∃ x, w'.out = w.out ++ [x] ∧ w'.last = j + 1 := by
  unfold walkBit at h
  obtain ⟨here, -, h⟩ := cmd_bind_eq_ok.mp h
  by_cases hleaf : here.isLeaf = true
  · rw [if_pos hleaf] at h
    cases b <;> cases h
    exact .inr ⟨here.sym, rfl, rfl⟩
  · rw [if_neg hleaf] at h
    by_cases hnil : (if b then here.right else here.left) = NIL
    · rw [if_pos hnil] at h; cases h
    · rw [if_neg hnil] at h
      obtain ⟨there, -, h⟩ := cmd_bind_eq_ok.mp h
      by_cases hl : there.isLeaf = true
      · rw [if_pos hl] at h; cases h; exact .inr ⟨there.sym, rfl, rfl⟩
      · rw [if_neg hl] at h; cases h; exact .inl ⟨rfl, rfl⟩

/-- The walk emits at most one symbol a bit, and has consumed at most the bits it has read. -/
theorem walkFrom_bounds {s : State} {bits : List Bool} : ∀ {j : Nat} {w w' : Walk},
    walkFrom s j bits w = .ok w' → w.out.length ≤ w.last → w.last ≤ j →
      w'.out.length ≤ w'.last ∧ w'.last ≤ j + bits.length := by
  induction bits with
  | nil => intro j w w' h h1 h2; cases h; exact ⟨h1, h2⟩
  | cons b bits ih =>
    intro j w w' h h1 h2
    obtain ⟨v, hv, h⟩ := cmd_bind_eq_ok.mp h
    have hbound : v.out.length ≤ v.last ∧ v.last ≤ j + 1 := by
      rcases walkBit_emits hv with ⟨ho, hl⟩ | ⟨x, ho, hl⟩
      · rw [ho, hl]; omega
      · rw [ho, hl, List.length_append, List.length_singleton]; omega
    have := ih h hbound.1 hbound.2
    simp only [List.length_cons]; omega

/-- A DECODE that succeeds leaves a text no longer than the bits it consumed (43_decoder.md R174). -/
theorem decodeBody_keeps_inv {s u : State} (h : s.Inv) (hu : decodeBody s = .ok u) : u.Inv := by
  obtain ⟨ht, hbin, bits, w, hbits, hwalk, -, hfit, rfl⟩ := decodeBody_eq_ok hu
  obtain ⟨hout, hlast⟩ := walkFrom_bounds hwalk (Nat.le_refl _) (Nat.le_refl _)
  have hlen := length_bits (validateFrom_eq_ok.mp hbits)
  have hmax := lMax_le s.cfg
  have htext : (BitVec.ofNat 32 w.out.length).toNat = w.out.length := toNat_ofNat32 (by omega)
  have htrail : (BitVec.ofNat 32 (bits.length - w.last)).toNat = bits.length - w.last := toNat_ofNat32 (by omega)
  exact h.withBuffers h.bin_ok
    ⟨Memory.wf_setAll _ _ h.memories.sout_wf, Memory.within_setAll _ _ _ (by omega) h.memories.sout_within⟩
    hbin (by omega) (fun _ => ht)

/-! ### Every step -/

/-- A command's body that succeeds keeps the invariant. -/
theorem commandBody_keeps_inv {i : Instr} {s u : State} (h : s.Inv) (hu : commandBody i s = .ok u) : u.Inv := by
  cases i with
  | nop => cases hu; exact h
  | clear => cases hu; exact h.memories.inv_clearSession h.spec.busy_iff h.code
  | freqAdd sym => exact freqAddBody_keeps_inv h hu
  | freqRead idx => obtain ⟨-, -, rfl⟩ := freqReadBody_eq_ok hu; exact h.withResults _ _ _
  | build => exact buildBody_keeps_inv h hu
  | nodeRead idx => obtain ⟨-, -, -, rfl⟩ := nodeReadBody_eq_ok hu; exact h.withResults _ _ _
  | decClear => cases hu; exact h.clearDecoder
  | decPush ch => exact decPushBody_keeps_inv h hu
  | decode => exact decodeBody_keeps_inv h hu
  | decRead idx => obtain ⟨-, -, rfl⟩ := decReadBody_eq_ok hu; exact h.withResults _ _ _

theorem State.Inv.failBase {s : State} (h : s.Inv) (i : Instr) : (Machine.failBase i s).Inv := by
  cases i
  case decode => exact h.withoutText
  all_goals exact h

/-- A command word keeps the invariant, legal or not (60_exceptions.md R205). -/
theorem performWord_keeps_inv {w : Word} {s t : State} (h : s.Inv) (ht : performWord w s = .next t) : t.Inv := by
  unfold performWord at ht
  split at ht
  · cases ht; exact h.completeWith (by decide) w
  · obtain ⟨u, hu, rfl⟩ | ⟨c, x, hc, rfl⟩ := exec_next ht
    · exact (commandBody_keeps_inv h hu).completeWith (by decide) 0
    · exact (h.failBase _).completeWith (commandBody_raises hc).2 x

/-- A host write sets `BUSY` and `PENDING` together or neither (40_control.md R100, R103). -/
theorem writeWord_busy_iff {s : State} (h : s.busy = true ↔ s.pending ≠ none) (offset : Nat) (v : Word) :
    (s.writeWord offset v).busy = true ↔ (s.writeWord offset v).pending ≠ none := by
  obtain ⟨-, hw⟩ | ⟨-, hw⟩ | ⟨-, hw⟩ | ⟨-, -, hw⟩ | ⟨-, -, hw⟩ | hw := writeWord_cases s offset v <;> rw [hw]
  case inr.inr.inr.inl => simp
  all_goals exact h

theorem hostStep_keeps_inv {s t : State} (h : s.Inv) (ht : hostStep s = .next t) : t.Inv := by
  have hframe := hostStep_frame ht
  have hcode : t.CodeRaised := by rw [hframe]; exact h.code
  have hbusy : t.busy = true ↔ t.pending ≠ none := by
    obtain ht | ⟨offset, v, -, ht⟩ := hostStep_next ht
    · rw [ht]; exact h.spec.busy_iff
    · rw [ht]; exact writeWord_busy_iff h.spec.busy_iff offset v
  exact h.of_frame (by rw [hframe]) hbusy hcode

/-- Settles O57, by the four things a step can be. -/
theorem everyStepKeepsTheInvariant : Obligations.EveryStepKeepsTheInvariant := by
  intro s t h ht
  obtain ⟨-, hs⟩ | ⟨-, -, rfl⟩ | ⟨-, p, -, hp⟩ | ⟨-, rfl⟩ := step_next ht
  · exact hostStep_keeps_inv h.takeTurn hs
  · exact h.takeTurn
  · exact performWord_keeps_inv h.takeTurn hp
  · exact h.takeTurn.hardReset

/-- Settles O56. -/
theorem invariantHoldsAtReset : Obligations.InvariantHoldsAtReset := ⟨inv_resetWith, inv_resetWith _⟩

/-! ### The hardwired registers -/

theorem readWord_id (s : State) : s.readWord 0x00 = 0x48554601 := readWord_exact s (r := .id) rfl

theorem readWord_paramS (s : State) : s.readWord 0x0C = 0x00102010 := readWord_exact s (r := .paramS) rfl

theorem toNat_readWord_paramN (s : State) : (s.readWord 0x04).toNat = s.cfg.nMax := by
  have h : s.readWord 0x04 = BitVec.ofNat 32 s.cfg.nMax := readWord_exact s (r := .paramN) rfl
  rw [h, toNat_ofNat32 (by have := nMax_le s.cfg; omega)]

theorem toNat_readWord_paramL (s : State) : (s.readWord 0x08).toNat = s.cfg.lMax := by
  have h : s.readWord 0x08 = BitVec.ofNat 32 s.cfg.lMax := readWord_exact s (r := .paramL) rfl
  rw [h, toNat_ofNat32 (by have := lMax_le s.cfg; omega)]

/-- Settles O45: two words are fixed, and each of the two sizes fits its word. -/
theorem hardwiredRegistersRead : Obligations.HardwiredRegistersRead := by
  intro s
  rw [readWord_id, readWord_paramS, toNat_readWord_paramN, toNat_readWord_paramL]
  exact ⟨rfl, by decide, by decide, rfl, nMax_le _, rfl, lMax_le _, rfl, by decide, by decide, by decide, by decide⟩

/-! ### STATUS and CTRL -/

theorem getLsbD_of_div {n i : Nat} {w : BitVec n} {b : Bool} (h : w.toNat / 2 ^ i % 2 = b.toNat) :
    w.getLsbD i = b := by
  rw [getLsbD_eq_div, h]; cases b <;> rfl

/-- The fields of the `STATUS` word (10_state.md R26). -/
theorem statusWord_fields (s : State) :
    s.statusWord.getLsbD 0 = s.busy ∧ s.statusWord.getLsbD 1 = s.done ∧ s.statusWord.getLsbD 2 = s.errFlag ∧
    s.statusWord.getLsbD 3 = s.overrun ∧ s.statusWord.getLsbD 4 = s.treeValid ∧
    s.statusWord.extractLsb' 5 3 = 0 ∧ s.statusWord.extractLsb' 8 8 = s.errCode.number ∧
    s.statusWord.extractLsb' 16 16 = 0 := by
  have hw : s.statusWord.toNat = s.errCode.number.toNat * 256 + s.treeValid.toNat * 16 + s.overrun.toNat * 8 +
      s.errFlag.toNat * 4 + s.done.toNat * 2 + s.busy.toNat := by
    rw [toNat_statusWord]; simp [Bool.toNat, Bool.cond_eq_ite]
  have he := s.errCode.number.isLt
  have ht := s.treeValid.toNat_lt
  have ho := s.overrun.toNat_lt
  have hf := s.errFlag.toNat_lt
  have hd := s.done.toNat_lt
  have hb := s.busy.toNat_lt
  refine ⟨getLsbD_of_div (by omega), getLsbD_of_div (by omega), getLsbD_of_div (by omega), getLsbD_of_div (by omega),
    getLsbD_of_div (by omega), BitVec.eq_of_toNat_eq ?_, BitVec.eq_of_toNat_eq ?_, BitVec.eq_of_toNat_eq ?_⟩
  · rw [toNat_field, toNat_zero_literal]; omega
  · rw [toNat_field]; omega
  · rw [toNat_field, toNat_zero_literal]; omega

/-- Settles O46, from the fields of the `STATUS` word and the write's two ifs. -/
theorem statusReadsItsFieldsAndClearsByOnes : Obligations.StatusReadsItsFieldsAndClearsByOnes := by
  refine ⟨fun s => ?_, fun s w => ?_⟩
  · obtain ⟨h0, h1, h2, h3, h4, hrsv, herr, hup⟩ := statusWord_fields s
    rw [readWord_status, herr]
    exact ⟨h0, h1, h2, h3, h4, hrsv, rfl, hup⟩
  · rw [writeWord_status, State.writeStatus]
    cases w.getLsbD 1 <;> cases w.getLsbD 3 <;> simp

theorem performWord_irqEn {w : Word} {s t : State} (h : performWord w s = .next t) : t.irqEn = s.irqEn := by
  rw [performWord_frame h]

theorem performWord_done {w : Word} {s t : State} (h : performWord w s = .next t) : t.done = true := by
  rw [performWord_frame h]

/-- Settles O47. -/
theorem ctrlHoldsTheInterruptEnable : Obligations.CtrlHoldsTheInterruptEnable := by
  refine ⟨writeWord_ctrl, fun s => ?_, fun w s t => performWord_irqEn, rfl⟩
  have hw : s.ctrlWord.toNat = s.irqEn.toNat := by rw [toNat_ctrlWord]; cases s.irqEn <;> rfl
  have hb := s.irqEn.toNat_lt
  rw [readWord_ctrl]
  refine ⟨getLsbD_of_div (by omega), BitVec.eq_of_toNat_eq ?_⟩
  rw [toNat_field, toNat_zero_literal]; omega

/-- Settles O48: a completion sets `DONE`, and each of the three writes clears `DONE` or `IRQ_EN`. -/
theorem interruptIsEnableAndDone : Obligations.InterruptIsEnableAndDone := by
  refine ⟨fun s => rfl, rfl, fun w s t h => ?_, fun s v h => ?_, fun s v h => ?_, fun s v h => ?_⟩
  · rw [State.irq, performWord_irqEn h, performWord_done h, Bool.and_true]
  · rw [writeWord_status, State.irq, State.writeStatus_done, if_pos h, Bool.and_false]
  · rw [writeWord_cmd, issue_idle h, State.irq, State.accept_done, Bool.and_false]
  · rw [writeWord_ctrl, State.irq, State.writeCtrl_irqEn, h, Bool.false_and]

/-! ### The rest of the window -/

/-- Only `CTRL`, `STATUS`, `ARG0` and `CMD` act on a write (40_control.md R104). -/
theorem writeWord_ignored (s : State) {offset : Nat} (v : Word)
    (h : offset ≠ 0x10 ∧ offset ≠ 0x14 ∧ offset ≠ 0x18 ∧ offset ≠ 0x1C) : s.writeWord offset v = s := by
  obtain ⟨h1, h2, h3, h4⟩ := h
  obtain ⟨ho, -⟩ | ⟨ho, -⟩ | ⟨ho, -⟩ | ⟨ho, -⟩ | ⟨ho, -⟩ | hw := writeWord_cases s offset v
  case inr.inr.inr.inr.inr => exact hw
  all_goals contradiction

/-- The volatile registers are those from 0x20 on (20_memory.md R73). -/
theorem volatile_of_offset_mem {o : Nat} (h : o ∈ [0x20, 0x24, 0x28, 0x2C, 0x30, 0x34, 0x38, 0x3C, 0x40, 0x44, 0x48]) :
    ∃ r : Reg, r.offset = o ∧ r.volatile = true := by
  have hall : ∀ o ∈ [0x20, 0x24, 0x28, 0x2C, 0x30, 0x34, 0x38, 0x3C, 0x40, 0x44, 0x48],
    ∃ r ∈ Reg.all, r.offset = o ∧ r.volatile = true := by decide
  obtain ⟨r, -, hr⟩ := hall o h
  exact ⟨r, hr⟩

/-- Settles O49, register by register, and past the last register by the unmapped window. -/
theorem windowReadsAndIgnoredWrites : Obligations.WindowReadsAndIgnoredWrites := by
  intro s
  refine ⟨readWord_id s, toNat_readWord_paramN s, toNat_readWord_paramL s, readWord_paramS s, readWord_ctrl s,
    readWord_status s, readWord_arg0 s, readWord_exact s (r := .cmd) rfl, fun h => ?_, fun h o ho => ?_, fun k hk _ => ?_,
    fun k v _ h4 h5 h6 h7 => writeWord_ignored s v (by omega)⟩
  · exact ⟨readWord_idle h .res0, readWord_idle h .res1, readWord_idle h .res2, readWord_idle h .errInfo,
      readWord_idle h .ftCount, readWord_idle h .ftTotal, readWord_idle h .root, readWord_idle h .nodeCount,
      readWord_idle h .binLen, readWord_idle h .soutLen, readWord_idle h .decTrail⟩
  · obtain ⟨r, rfl, hr⟩ := volatile_of_offset_mem ho
    exact ⟨readWord_draw h hr, by rw [countDraw_draw h hr]⟩
  · exact readWord_unmapped s (Reg.at?_unmapped hk)

/-! ### ARG0 -/

/-- An outcome with `ARG0` set to a value. -/
def outcomeWithArg0 (a : Word) : Host.Outcome State Fault Refusal → Host.Outcome State Fault Refusal
  | .next t => .next { t with arg0 := a }
  | .fault f => .fault f
  | .refused r => .refused r

/-- A command's outcome depends neither on `ARG0` nor on `PENDING`, but for FREQ_ADD's increment; and `ARG0` goes through
unchanged (40_control.md R105). -/
theorem exec_withLatch (i : Instr) (s : State) (p : Option Pending) (a : Word)
    (hinc : ∀ sym, i = .freqAdd sym → ({ s with pending := p, arg0 := a } : State).incOperand = s.incOperand) :
    exec i { s with pending := p, arg0 := a } = outcomeWithArg0 a (exec i s) := by
  have hbase : failBase i { s with pending := p, arg0 := a } = { failBase i s with pending := p, arg0 := a } := by
    cases i <;> rfl
  rw [exec_eq_finish, exec_eq_finish, commandBody_congr i s p a hinc, hbase]
  match commandBody i s with
  | .ok u => rfl
  | .error (.error c x) => rfl
  | .error (.fault f) => rfl

/-- A host write to `ARG0` is invisible to a command word performed after it (40_control.md R105). -/
theorem performWord_withArg0 (w v : Word) (s : State) :
    performWord w { s with arg0 := v } = outcomeWithArg0 v (performWord w s) := by
  unfold performWord
  cases decodeCmd w with
  | illegal why => rfl
  | command i => exact exec_withLatch i s s.pending v fun _ _ => rfl

/-- A FREQ_ADD that succeeds adds the latched argument to the total (41_freq_table.md R120). -/
theorem exec_freqAdd_ftTotal {s t : State} {sym : Half} {p : Pending} (hp : s.pending = some p)
    (h : exec (.freqAdd sym) s = .next t) (hok : t.errCode = .ok) : t.ftTotal = s.ftTotal + p.arg := by
  obtain ⟨u, hu, rfl⟩ | ⟨c, x, hc, rfl⟩ := exec_next h
  · rw [← incOperand_some hp]
    obtain ⟨-, -, -, ⟨_, -, -, -, rfl⟩ | ⟨-, -, rfl⟩⟩ := freqAddBody_eq_ok hu <;> rfl
  · exact absurd hok (commandBody_raises hc).1

/-- Settles O9: the port's rules, the frame of a command, and that no command looks at `ARG0`. -/
theorem arg0IsPlainStorage : Obligations.Arg0IsPlainStorage := by
  refine ⟨fun s v => ⟨writeWord_arg0 s v, readWord_arg0 _⟩, fun i s t h => ?_, fun s w h => ?_,
    fun i s w a b hi => ?_, fun s t sym p => exec_freqAdd_ftTotal, rfl, fun w v s t h => ?_⟩
  · rw [exec_frame h]
  · rw [writeWord_cmd, issue_idle h, State.accept_pending]
  · have hlatch : ∀ x, exec i { s with pending := some { word := w, arg := x } } = outcomeWithArg0 s.arg0 (exec i s) :=
      fun x => exec_withLatch i s (some { word := w, arg := x }) s.arg0 fun sym h => absurd h (hi sym)
    rw [hlatch a, hlatch b]
  · rw [writeWord_arg0, performWord_withArg0, h]; rfl

end Sys2Proof.Machine
end

section
/-! PROOFS of 20_memory.md. The host's accesses and the byte lanes of a word. Then that nothing at or above the counts is
observable: two states that differ in stale entries alone pass the same checks, read the same entries and write the same
ones, so that their steps have outcomes of the same kind, and again differ in stale entries alone. -/

namespace Sys2Proof.Machine

/-! ### The host's accesses -/

theorem hostStep_wr {s : State} {size : AccessSize} {offset : Nat} {v : Word}
    (h : s.host.current = some (.wr size offset v)) : hostStep s = hostWrite size offset v s := by
  rw [hostStep, h]

theorem hostStep_rd {s : State} {size : AccessSize} {dst : HVar} {offset : Nat}
    (h : s.host.current = some (.rd size dst offset)) : hostStep s = hostRead size dst offset s := by
  rw [hostStep, h]

theorem hostWrite_of_access {size : AccessSize} {offset : Nat} (h : accessRefusal size offset = none) (v : Word)
    (s : State) : hostWrite size offset v s = .next ((s.writeWord offset v).withHost s.host.advance) := by
  rw [hostWrite, h]

theorem hostRead_of_access {size : AccessSize} {offset : Nat} (h : accessRefusal size offset = none) (dst : HVar)
    (s : State) : hostRead size dst offset s = .next ((s.countDraw offset).withHost
      { s.host.advance with vars := s.host.vars.set dst (s.readWord offset) }) := by
  rw [hostRead, h]

theorem hostWrite_of_refusal {size : AccessSize} {offset : Nat} {r : Refusal} (h : accessRefusal size offset = some r)
    (v : Word) (s : State) : hostWrite size offset v s = .refused r := by
  rw [hostWrite, h]

theorem hostRead_of_refusal {size : AccessSize} {offset : Nat} {r : Refusal} (h : accessRefusal size offset = some r)
    (dst : HVar) (s : State) : hostRead size dst offset s = .refused r := by
  rw [hostRead, h]

/-- A host read that runs is one of the accesses HUFF has. -/
theorem hostRead_next {size : AccessSize} {dst : HVar} {offset : Nat} {s t : State}
    (h : hostRead size dst offset s = .next t) :
    t = (s.countDraw offset).withHost { s.host.advance with vars := s.host.vars.set dst (s.readWord offset) } := by
  cases hr : accessRefusal size offset with
  | none => rw [hostRead_of_access hr] at h; cases h; rfl
  | some r => rw [hostRead_of_refusal hr] at h; cases h

/-- The accesses HUFF does not have (20_memory.md R60, R61). -/
theorem exists_accessRefusal {size : AccessSize} {offset : Nat}
    (h : size ≠ .word ∨ offset % 4 ≠ 0 ∨ 256 ≤ offset) : ∃ r, accessRefusal size offset = some r := by
  apply Option.ne_none_iff_exists'.mp
  intro hn
  obtain ⟨hsize, halign, hlt⟩ := accessRefusal_eq_none.mp hn
  rcases h with h | h | h
  · exact h hsize
  · exact h halign
  · omega

/-- The word offsets of the window (20_memory.md R60). -/
theorem accessRefusal_wordOffset {k : Nat} (h : k < 0x40) : accessRefusal .word (4 * k) = none :=
  accessRefusal_eq_none.mpr ⟨rfl, by omega, by omega⟩

/-- Settles O51: each access is one HUFF has, or has its refusal. -/
theorem onlyAlignedWordAccessesRun : Obligations.OnlyAlignedWordAccessesRun := by
  refine ⟨fun s v k hk h => ?_, fun s dst k hk h => ?_, fun s size offset v hbad h => ?_,
    fun s size dst offset hbad h => ?_⟩
  · rw [hostStep_wr h, hostWrite_of_access (accessRefusal_wordOffset hk)]; rfl
  · exact ⟨_, (hostStep_rd h).trans (hostRead_of_access (accessRefusal_wordOffset hk) dst s)⟩
  · obtain ⟨r, hr⟩ := exists_accessRefusal hbad
    exact ⟨r, (hostStep_wr h).trans (hostWrite_of_refusal hr v s)⟩
  · obtain ⟨r, hr⟩ := exists_accessRefusal hbad
    exact ⟨r, (hostStep_rd h).trans (hostRead_of_refusal hr dst s)⟩

/-- A write to a host variable changes that one (30_encoding.md R90). -/
theorem HostVars.get_set (vars : HostVars) (h k : HVar) (x : Word) :
    (vars.set h x).get k = if k = h then x else vars.get k := by
  cases h <;> cases k <;> rfl

/-- Settles O50: a read counts a draw, and writes the host's variable. -/
theorem hostReadsChangeNothing : Obligations.HostReadsChangeNothing := by
  intro s t size dst offset hcur h
  rw [hostStep_rd hcur] at h
  obtain rfl := hostRead_next h
  refine ⟨?_, (HostVars.get_set _ dst dst _).trans (if_pos rfl),
    fun k hk => (HostVars.get_set _ dst k _).trans (if_neg hk), rfl, rfl⟩
  rw [countDraw_eq]; rfl

/-! ### Byte lanes -/

theorem wordOfLanes_byteLane (w : Word) :
    wordOfLanes (byteLane w 0) (byteLane w 1) (byteLane w 2) (byteLane w 3) = w := by
  apply BitVec.eq_of_toNat_eq
  have hw := w.isLt
  rw [toNat_wordOfLanes]
  simp only [byteLane, toNat_field]
  omega

theorem getLsbD_byteLane (w : Word) (k : Nat) {i : Nat} (hi : i < 8) :
    (byteLane w k).getLsbD i = w.getLsbD (8 * k + i) := by
  rw [byteLane, BitVec.getLsbD_extractLsb', decide_eq_true hi, Bool.true_and]

/-- Settles O52. -/
theorem byteLanesAreLittleEndian : Obligations.ByteLanesAreLittleEndian :=
  ⟨wordOfLanes_byteLane, fun w k _ => ⟨rfl, fun _ hi => getLsbD_byteLane w k hi⟩, fun _ _ _ => rfl,
    Nat.mul_mod_right 256 Config.huffPage⟩

/-! ### What two states have in common that differ in stale entries alone

Memories are alike below a bound where they read the same there. -/

/-- A write at one index keeps memories alike below a bound, and makes them alike at that index. -/
theorem Memory.get_set_alike {α : Type} [DecidableEq α] {blank : α} {m m' : Memory α}
    (hm : Memory.wf blank m = true) (hm' : Memory.wf blank m' = true) {n : Nat}
    (h : ∀ j, j < n → Memory.get blank m' j = Memory.get blank m j) (i : Nat) (v : α) {j : Nat}
    (hj : j = i ∨ j < n) :
    Memory.get blank (Memory.set blank m' i v) j = Memory.get blank (Memory.set blank m i v) j := by
  by_cases hi : j = i
  · rw [hi, Memory.get_set_same hm, Memory.get_set_same hm']
  · rw [Memory.get_set_other blank hi, Memory.get_set_other blank hi, h j (hj.resolve_left hi)]

/-- A block written from index 0 on makes memories alike as far as it reaches. -/
theorem Memory.get_setAll_alike {α : Type} [DecidableEq α] {blank : α} {m m' : Memory α}
    (hm : Memory.wf blank m = true) (hm' : Memory.wf blank m' = true) (vs : List α) {j : Nat} (hj : j < vs.length) :
    Memory.get blank (Memory.setAll blank m' 0 vs) j = Memory.get blank (Memory.setAll blank m 0 vs) j := by
  have hs := Memory.get_setAll_same vs 0 j hj hm
  have ht := Memory.get_setAll_same vs 0 j hj hm'
  rw [Nat.zero_add] at hs ht
  rw [hs, ht]

namespace State.SameVisible

variable {s t : State} (h : s.SameVisible t)
include h

theorem cfg : t.cfg = s.cfg := by rw [h.1]
theorem busy : t.busy = s.busy := by rw [h.1]
theorem treeValid : t.treeValid = s.treeValid := by rw [h.1]
theorem ftCount : t.ftCount = s.ftCount := by rw [h.1]
theorem ftTotal : t.ftTotal = s.ftTotal := by rw [h.1]
theorem root : t.root = s.root := by rw [h.1]
theorem nodeCount : t.nodeCount = s.nodeCount := by rw [h.1]
theorem binLen : t.binLen = s.binLen := by rw [h.1]
theorem soutLen : t.soutLen = s.soutLen := by rw [h.1]
theorem pending : t.pending = s.pending := by rw [h.1]
theorem host : t.host = s.host := by rw [h.1]
theorem nextTurn : t.nextTurn = s.nextTurn := by rw [h.1]; rfl
theorem incOperand : t.incOperand = s.incOperand := by rw [h.1]; rfl
theorem readWord (offset : Nat) : t.readWord offset = s.readWord offset := by rw [h.1]; rfl
theorem readIsDraw (offset : Nat) : t.readIsDraw offset = s.readIsDraw offset := by rw [h.1]; rfl
theorem walkStart : t.walkStart = s.walkStart := by rw [h.1]; rfl

/-! What they read. -/

theorem ftAt {i : Nat} (hi : i < s.ftCount.toNat) : t.ftAt i = s.ftAt i := by
  obtain ⟨-, hft, -⟩ := h; exact hft i hi

theorem nodeAt {n : Nat} (hn : n < s.nodeCount.toNat) : t.nodeAt n = s.nodeAt n := by
  obtain ⟨-, -, hnode, -⟩ := h; exact hnode n hn

theorem binAt {j : Nat} (hj : j < s.binLen.toNat) : t.binAt j = s.binAt j := by
  obtain ⟨-, -, -, hbin, -⟩ := h; exact hbin j hj

theorem soutAt {j : Nat} (hj : j < s.soutLen.toNat) : t.soutAt j = s.soutAt j := by
  obtain ⟨-, -, -, -, hsout⟩ := h; exact hsout j hj

theorem ftEntries : t.ftEntries = s.ftEntries := by
  rw [State.ftEntries, h.ftCount]; exact Memory.slice_congr _ fun _ => h.ftAt

theorem readFtEntries : Machine.readFtEntries t = Machine.readFtEntries s := by
  rw [Machine.readFtEntries, h.cfg, h.ftCount, h.ftEntries]; rfl

theorem readBinChars : Machine.readBinChars t = Machine.readBinChars s := by
  have hchars : t.binChars = s.binChars := by
    rw [State.binChars, h.binLen]; exact Memory.slice_congr _ fun _ => h.binAt
  rw [Machine.readBinChars, h.cfg, h.binLen, hchars]; rfl

theorem readFt {i : Nat} (hi : i < s.ftCount.toNat) : Machine.readFt t i = Machine.readFt s i := by
  rw [Machine.readFt, h.cfg, h.ftAt hi]; rfl

theorem readNode {n : Nat} (hn : n < s.nodeCount.toNat) : Machine.readNode t n = Machine.readNode s n := by
  rw [Machine.readNode, h.cfg, h.nodeAt hn]; rfl

theorem readSout {j : Nat} (hj : j < s.soutLen.toNat) : Machine.readSout t j = Machine.readSout s j := by
  rw [Machine.readSout, h.cfg, h.soutAt hj]; rfl

/-! What leaves the memories and their counts alone. -/

theorem takeTurn : s.takeTurn.SameVisible t.takeTurn := ⟨by rw [h.1]; rfl, h.2⟩

theorem withHost (host : HostAgent) : (s.withHost host).SameVisible (t.withHost host) := ⟨by rw [h.1]; rfl, h.2⟩

theorem countDraw (offset : Nat) : (s.countDraw offset).SameVisible (t.countDraw offset) := by
  unfold State.countDraw
  rw [h.readIsDraw]
  split
  · exact ⟨by rw [h.1], h.2⟩
  · exact h

theorem completeWith (c : ErrCode) (x : Word) : (s.completeWith c x).SameVisible (t.completeWith c x) :=
  ⟨by rw [h.1]; rfl, h.2⟩

theorem issue (w : Word) : (s.issue w).SameVisible (t.issue w) := by
  unfold State.issue
  rw [h.busy]
  split <;> exact ⟨by rw [h.1]; rfl, h.2⟩

theorem writeWord (offset : Nat) (v : Word) : (s.writeWord offset v).SameVisible (t.writeWord offset v) := by
  unfold State.writeWord
  cases Reg.at? offset with
  | none => exact h
  | some r =>
    cases r
    case ctrl => exact ⟨by rw [h.1]; rfl, h.2⟩
    case status => exact ⟨by rw [h.1]; rfl, h.2⟩
    case arg0 => exact ⟨by rw [h.1], h.2⟩
    case cmd => exact h.issue v
    all_goals exact h

/-! What empties a memory leaves it nothing to agree on. -/

theorem clearSession : s.clearSession.SameVisible t.clearSession :=
  ⟨by rw [h.1]; rfl, by simp, by simp, by simp, by simp⟩

theorem hardReset : s.hardReset.SameVisible t.hardReset :=
  ⟨by rw [h.1]; rfl, by simp, by simp, by simp, by simp⟩

theorem clearDecoder : s.clearDecoder.SameVisible t.clearDecoder :=
  ⟨by rw [h.1]; rfl, fun _ => h.ftAt, fun _ => h.nodeAt, by simp, by simp⟩

theorem withoutText : s.withoutText.SameVisible t.withoutText :=
  ⟨by rw [h.1]; rfl, fun _ => h.ftAt, fun _ => h.nodeAt, fun _ => h.binAt, by simp⟩

theorem failBase (i : Instr) : (Machine.failBase i s).SameVisible (Machine.failBase i t) := by
  cases i
  case decode => exact h.withoutText
  all_goals exact h

/-! What writes a memory, and moves its count over no entry but those written. -/

theorem withTable (hs : s.Inv) (ht : t.Inv) (i : Nat) (e : FtEntry) {count : Word} (total : Word)
    (hcount : ∀ j, j < count.toNat → j = i ∨ j < s.ftCount.toNat) :
    ({ s with ft := Memory.set FtEntry.blank s.ft i e, ftCount := count, ftTotal := total } : State).SameVisible
      { t with ft := Memory.set FtEntry.blank t.ft i e, ftCount := count, ftTotal := total } :=
  ⟨by rw [h.1],
    fun j hj => Memory.get_set_alike hs.memories.ft_wf ht.memories.ft_wf (fun _ => h.ftAt) i e (hcount j hj),
    fun _ => h.nodeAt, fun _ => h.binAt, fun _ => h.soutAt⟩

theorem withTree (hs : s.Inv) (ht : t.Inv) (nodes : List Node) {count : Word} (root : Word)
    (hcount : count.toNat = nodes.length) :
    ({ s with node := Memory.setAll Node.blank s.node 0 nodes, root := root, nodeCount := count, treeValid := true } :
      State).SameVisible
      { t with node := Memory.setAll Node.blank t.node 0 nodes, root := root, nodeCount := count, treeValid := true } :=
  ⟨by rw [h.1], fun _ => h.ftAt,
    fun _ hj => Memory.get_setAll_alike hs.memories.node_wf ht.memories.node_wf nodes (hcount ▸ hj),
    fun _ => h.binAt, fun _ => h.soutAt⟩

theorem withChar (hs : s.Inv) (ht : t.Inv) (i : Nat) (c : Half) {len : Word}
    (hlen : ∀ j, j < len.toNat → j = i ∨ j < s.binLen.toNat) :
    ({ s with bin := Memory.set blankHalf s.bin i c, binLen := len } : State).SameVisible
      { t with bin := Memory.set blankHalf t.bin i c, binLen := len } :=
  ⟨by rw [h.1], fun _ => h.ftAt, fun _ => h.nodeAt,
    fun j hj => Memory.get_set_alike hs.memories.bin_wf ht.memories.bin_wf (fun _ => h.binAt) i c (hlen j hj),
    fun _ => h.soutAt⟩

theorem withText (hs : s.Inv) (ht : t.Inv) (text : List Half) {len : Word} (trail : Word)
    (hlen : len.toNat = text.length) :
    ({ s with sout := Memory.setAll blankHalf s.sout 0 text, soutLen := len, decTrail := trail } : State).SameVisible
      { t with sout := Memory.setAll blankHalf t.sout 0 text, soutLen := len, decTrail := trail } :=
  ⟨by rw [h.1], fun _ => h.ftAt, fun _ => h.nodeAt, fun _ => h.binAt,
    fun _ hj => Memory.get_setAll_alike hs.memories.sout_wf ht.memories.sout_wf text (hlen ▸ hj)⟩

end State.SameVisible

/-! ### The walk stays below NODE_COUNT -/

section
variable {s : State} (h : s.Inv) (hv : s.treeValid = true)
include h hv

/-- The root is a valid node (42_builder.md R150). -/
theorem State.Inv.root_lt : s.root.toNat < s.nodeCount.toNat := by
  obtain ⟨hpos, hcount, hroot⟩ := h.spec.tree_counts hv
  omega

/-- A valid node's children are valid nodes (42_builder.md R153). -/
theorem State.Inv.child_lt {n : Nat} (hn : n < s.nodeCount.toNat) (hl : (s.nodeAt n).isLeaf = false) (b : Bool) :
    (if b then (s.nodeAt n).right else (s.nodeAt n).left).toNat < s.nodeCount.toNat := by
  obtain ⟨Q, e1, e2, hb⟩ := h.built hv
  have hlt := hb.run.child_lt (hb.nodeCount ▸ hn) (by rw [arenaAt_nodes s hn]; exact hl) b
  rw [childOf, arenaAt_nodes s hn, ← apply_ite BitVec.toNat] at hlt
  exact hlt.trans hn

end

/-- Where a bit of the walk leads: it stays at the leaf, goes back to the root, or down to the child (43_decoder.md
R174). -/
theorem walkBit_cur {s : State} {j : Nat} {b : Bool} {w w' : Walk} (h : walkBit s j b w = .ok w') :
    w'.cur = w.cur ∨ w'.cur = s.root.toNat ∨ ((s.nodeAt w.cur).isLeaf = false ∧
      w'.cur = (if b then (s.nodeAt w.cur).right else (s.nodeAt w.cur).left).toNat) := by
  unfold walkBit at h
  obtain ⟨here, hhere, h⟩ := cmd_bind_eq_ok.mp h
  obtain ⟨-, rfl⟩ := readNode_eq_ok.mp hhere
  by_cases hleaf : (s.nodeAt w.cur).isLeaf = true
  · rw [if_pos hleaf] at h
    cases b <;> cases h
    exact .inl rfl
  · rw [if_neg hleaf] at h
    by_cases hnil : (if b then (s.nodeAt w.cur).right else (s.nodeAt w.cur).left) = NIL
    · rw [if_pos hnil] at h; cases h
    · rw [if_neg hnil] at h
      obtain ⟨there, -, h⟩ := cmd_bind_eq_ok.mp h
      by_cases hl : there.isLeaf = true
      · rw [if_pos hl] at h; cases h; exact .inr (.inl rfl)
      · rw [if_neg hl] at h; cases h; exact .inr (.inr ⟨by simpa using hleaf, rfl⟩)

/-- The walk pointer stays on valid nodes. -/
theorem walkBit_cur_lt {s : State} (hs : s.Inv) (hv : s.treeValid = true) {j : Nat} {b : Bool} {w w' : Walk}
    (hw : w.cur < s.nodeCount.toNat) (h : walkBit s j b w = .ok w') : w'.cur < s.nodeCount.toNat := by
  obtain hc | hc | ⟨hl, hc⟩ := walkBit_cur h <;> rw [hc]
  · exact hw
  · exact hs.root_lt hv
  · exact hs.child_lt hv hw hl b

/-- One bit of the walk reads the pointer's node and, below an internal one, its child. -/
theorem State.SameVisible.walkBit {s t : State} (h : s.SameVisible t) (hs : s.Inv) (hv : s.treeValid = true) {w : Walk}
    (hw : w.cur < s.nodeCount.toNat) (j : Nat) (b : Bool) : Machine.walkBit t j b w = Machine.walkBit s j b w := by
  unfold Machine.walkBit
  rw [h.readNode hw, h.root]
  cases hhere : Machine.readNode s w.cur with
  | error e => rfl
  | ok here =>
    obtain ⟨-, rfl⟩ := readNode_eq_ok.mp hhere
    simp only [cmd_bind_ok]
    by_cases hleaf : (s.nodeAt w.cur).isLeaf = true
    · rw [if_pos hleaf, if_pos hleaf]
    · rw [if_neg hleaf, if_neg hleaf, h.readNode (hs.child_lt hv hw (by simpa using hleaf) b)]

theorem State.SameVisible.walkFrom {s t : State} (h : s.SameVisible t) (hs : s.Inv) (hv : s.treeValid = true) :
    ∀ (bits : List Bool) (j : Nat) (w : Walk), w.cur < s.nodeCount.toNat →
      Machine.walkFrom t j bits w = Machine.walkFrom s j bits w
  | [], _, _, _ => rfl
  | b :: bits, j, w, hw => by
    rw [Machine.walkFrom, Machine.walkFrom, h.walkBit hs hv hw]
    cases hb : Machine.walkBit s j b w with
    | error e => rfl
    | ok w' => exact h.walkFrom hs hv bits (j + 1) w' (walkBit_cur_lt hs hv hw hb)

/-! ### Each command -/

/-- Two bodies that stop in the same way, or leave states that differ in stale entries alone. -/
inductive Cmd.Alike : Cmd State → Cmd State → Prop
  | ok {u v : State} (h : u.SameVisible v) : Alike (.ok u) (.ok v)
  | error (e : Stop) : Alike (.error e) (.error e)

/-- After a common first part it is enough that the rest is alike. -/
theorem Cmd.Alike.bind {α : Type} {x : Cmd α} {f g : α → Cmd State}
    (h : ∀ a, x = .ok a → Cmd.Alike (f a) (g a)) : Cmd.Alike (x >>= f) (x >>= g) := by
  cases x with
  | error e => exact .error e
  | ok a => exact h a rfl

/-- Two outcomes of the same kind and reason, with next states that differ in stale entries alone. -/
inductive OutcomesAlike : Host.Outcome State Fault Refusal → Host.Outcome State Fault Refusal → Prop
  | next {u v : State} (h : u.SameVisible v) : OutcomesAlike (.next u) (.next v)
  | fault (f : Fault) : OutcomesAlike (.fault f) (.fault f)
  | refused (r : Refusal) : OutcomesAlike (.refused r) (.refused r)

namespace State.SameVisible

variable {s t : State} (h : s.SameVisible t)
include h

/-- Both complete, or both fail from the states they started in. -/
theorem finish {x y : Cmd State} (hxy : Cmd.Alike x y) : OutcomesAlike (Machine.finish s x) (Machine.finish t y) := by
  cases hxy with
  | ok huv => exact .next (huv.completeWith .ok 0)
  | error e =>
    cases e with
    | error c x => exact .next (h.completeWith c x)
    | fault f => exact .fault f

theorem freqAddChecks (sym : Half) (inc : Word) : Machine.freqAddChecks sym inc t = Machine.freqAddChecks sym inc s := by
  rw [Machine.freqAddChecks, h.treeValid, h.readFtEntries, h.ftCount, h.cfg, h.ftTotal]; rfl

/-- An entry below FT_COUNT is raised, or one is added at FT_COUNT (41_freq_table.md R120). -/
theorem freqAddBody (hs : s.Inv) (ht : t.Inv) (sym : Half) (inc : Word) :
    Cmd.Alike (Machine.freqAddBody sym inc s) (Machine.freqAddBody sym inc t) := by
  unfold Machine.freqAddBody
  rw [h.freqAddChecks]
  refine .bind fun found hfound => ?_
  obtain ⟨-, hle, rfl, hroom, -⟩ := freqAddChecks_eq_ok.mp hfound
  cases hfind : findSym s.ftEntries sym with
  | some i =>
    obtain ⟨hi, -⟩ := findSym_eq_some hfind
    rw [length_ftEntries] at hi
    have hlt : i < s.cfg.nMax := by omega
    simp only [freqAddEntry, h.readFt hi, readFt_of_lt hlt, h.ftCount, h.ftTotal, writeFt_of_lt hlt,
      writeFt_of_lt (h.cfg ▸ hlt), cmd_bind_ok, cmd_pure]
    exact .ok (h.withTable hs ht i _ _ fun _ => .inr)
  | none =>
    have hlt : s.ftCount.toNat < s.cfg.nMax := lt_of_le_of_ne hle fun he => hroom ⟨hfind, he⟩
    have hmax := nMax_le s.cfg
    have hsucc : (s.ftCount + 1).toNat = s.ftCount.toNat + 1 := toNat_add_of_lt (b := 1) (by simp; omega)
    simp only [freqAddEntry, h.ftCount, h.ftTotal, writeFt_of_lt hlt, writeFt_of_lt (h.cfg ▸ hlt), cmd_bind_ok,
      cmd_pure]
    exact .ok (h.withTable hs ht _ _ _ (by omega))

theorem freqReadBody (idx : Word) : Cmd.Alike (Machine.freqReadBody idx s) (Machine.freqReadBody idx t) := by
  unfold Machine.freqReadBody
  rw [h.ftCount]
  split
  · exact .error _
  · rw [h.readFt (by omega)]
    exact .bind fun e _ => .ok ⟨by rw [h.1], h.2⟩

theorem buildBody (hs : s.Inv) (ht : t.Inv) : Cmd.Alike (Machine.buildBody s) (Machine.buildBody t) := by
  have hle := hs.spec.ftCount_le
  have hmax := nMax_le s.cfg
  have hlen : (buildArena s.ftEntries).length = 2 * s.ftCount.toNat - 1 := by simp
  have hfit : (buildArena s.ftEntries).length ≤ s.cfg.nodeMax := by rw [nodeMax_eq]; omega
  unfold Machine.buildBody
  rw [h.ftCount, h.readFtEntries]
  split
  · exact .error _
  · rw [readFtEntries_of_le hle, cmd_bind_ok, cmd_bind_ok, writeNodes_of_le hfit, writeNodes_of_le (h.cfg ▸ hfit)]
    exact .ok (h.withTree hs ht _ _ (by rw [hlen, toNat_ofNat32]; omega))

theorem nodeReadBody (idx : Word) : Cmd.Alike (Machine.nodeReadBody idx s) (Machine.nodeReadBody idx t) := by
  unfold Machine.nodeReadBody
  rw [h.treeValid, h.nodeCount]
  split
  · exact .error _
  split
  · exact .error _
  · rw [h.readNode (by omega)]
    exact .bind fun n _ => .ok ⟨by rw [h.1], h.2⟩

/-- A character is added at BIN_LEN (43_decoder.md R172). -/
theorem decPushBody (hs : s.Inv) (ht : t.Inv) (ch : Half) :
    Cmd.Alike (Machine.decPushBody ch s) (Machine.decPushBody ch t) := by
  have hle := hs.spec.binLen_le
  have hmax := lMax_le s.cfg
  have hsucc : (s.binLen + 1).toNat = s.binLen.toNat + 1 := toNat_add_of_lt (b := 1) (by simp; omega)
  unfold Machine.decPushBody
  rw [h.binLen, h.cfg]
  split
  · exact .error _
  · have hlt : s.binLen.toNat < s.cfg.lMax := by omega
    simp only [writeBin_of_lt hlt, writeBin_of_lt (h.cfg ▸ hlt), cmd_bind_ok, cmd_pure, h.binLen]
    exact .ok (h.withChar hs ht _ ch (by omega))

/-- The same string is walked over the same tree, and the text written is the whole of the new one. -/
theorem decodeBody (hs : s.Inv) (ht : t.Inv) : Cmd.Alike (Machine.decodeBody s) (Machine.decodeBody t) := by
  unfold Machine.decodeBody
  rw [h.treeValid, h.readBinChars, h.walkStart]
  by_cases hv : s.treeValid = false
  · rw [if_pos hv, if_pos hv]; exact .error _
  · have hv' : s.treeValid = true := by simpa using hv
    rw [if_neg hv, if_neg hv]
    refine .bind fun chars hchars => .bind fun bits hbits => ?_
    rw [h.walkFrom hs hv' bits 0 s.walkStart (hs.root_lt hv')]
    refine .bind fun w hw => ?_
    split
    · exact .error _
    · obtain ⟨-, rfl⟩ := readBinChars_eq_ok.mp hchars
      obtain ⟨hout, hlast⟩ := walkFrom_bounds hw (Nat.le_refl _) (Nat.le_refl _)
      have hlen := length_bits (validateFrom_eq_ok.mp hbits)
      have hle := hs.spec.binLen_le
      have hmax := lMax_le s.cfg
      have hfit : w.out.length ≤ s.cfg.lMax := by omega
      rw [writeSout_of_le hfit, writeSout_of_le (h.cfg ▸ hfit)]
      exact .ok (h.withText hs ht w.out _ (toNat_ofNat32 (by omega)))

theorem decReadBody (idx : Word) : Cmd.Alike (Machine.decReadBody idx s) (Machine.decReadBody idx t) := by
  unfold Machine.decReadBody
  rw [h.soutLen]
  split
  · exact .error _
  · rw [h.readSout (by omega)]
    exact .bind fun x _ => .ok ⟨by rw [h.1], h.2⟩

theorem commandBody (hs : s.Inv) (ht : t.Inv) (i : Instr) :
    Cmd.Alike (Machine.commandBody i s) (Machine.commandBody i t) := by
  cases i with
  | nop => exact .ok h
  | clear => exact .ok h.clearSession
  | freqAdd sym => rw [Machine.commandBody, Machine.commandBody, h.incOperand]; exact h.freqAddBody hs ht sym _
  | freqRead idx => exact h.freqReadBody _
  | build => exact h.buildBody hs ht
  | nodeRead idx => exact h.nodeReadBody _
  | decClear => exact .ok h.clearDecoder
  | decPush ch => exact h.decPushBody hs ht ch
  | decode => exact h.decodeBody hs ht
  | decRead idx => exact h.decReadBody _

/-! ### Each agent -/

theorem performWord (hs : s.Inv) (ht : t.Inv) (w : Word) :
    OutcomesAlike (Machine.performWord w s) (Machine.performWord w t) := by
  unfold Machine.performWord
  cases decodeCmd w with
  | illegal why => exact .next (h.completeWith _ _)
  | command i =>
    simp only [exec_eq_finish]
    exact (h.failBase i).finish (h.commandBody hs ht i)

theorem engineStep (hs : s.Inv) (ht : t.Inv) : OutcomesAlike (Machine.engineStep s) (Machine.engineStep t) := by
  unfold Machine.engineStep
  rw [h.pending]
  cases s.pending with
  | none => exact .next h
  | some p => exact h.performWord hs ht p.word

theorem hostBranch (taken : Bool) (target : Nat) :
    OutcomesAlike (Machine.hostBranch taken target s) (Machine.hostBranch taken target t) := by
  unfold Machine.hostBranch
  rw [h.host]
  cases taken with
  | false => exact .next (h.withHost _)
  | true =>
    simp only [if_true]
    cases s.host.labelPlace target with
    | none => exact .refused _
    | some place => exact .next (h.withHost _)

theorem hostWrite (size : AccessSize) (offset : Nat) (v : Word) :
    OutcomesAlike (Machine.hostWrite size offset v s) (Machine.hostWrite size offset v t) := by
  cases hr : accessRefusal size offset with
  | none =>
    rw [hostWrite_of_access hr, hostWrite_of_access hr, h.host]
    exact .next ((h.writeWord offset v).withHost _)
  | some r =>
    rw [hostWrite_of_refusal hr, hostWrite_of_refusal hr]
    exact .refused r

theorem hostRead (size : AccessSize) (dst : HVar) (offset : Nat) :
    OutcomesAlike (Machine.hostRead size dst offset s) (Machine.hostRead size dst offset t) := by
  cases hr : accessRefusal size offset with
  | none =>
    rw [hostRead_of_access hr, hostRead_of_access hr, h.host, h.readWord]
    exact .next ((h.countDraw offset).withHost _)
  | some r =>
    rw [hostRead_of_refusal hr, hostRead_of_refusal hr]
    exact .refused r

/-- The host sees no memory but through the registers. -/
theorem hostStep : OutcomesAlike (Machine.hostStep s) (Machine.hostStep t) := by
  unfold Machine.hostStep
  rw [h.host]
  cases s.host.current with
  | none => exact .next h
  | some stmt =>
    cases stmt with
    | wr size offset v => exact h.hostWrite size offset v
    | rd size dst offset => exact h.hostRead size dst offset
    | andi dst src imm => exact .next (h.withHost _)
    | bnez src target => exact h.hostBranch _ target
    | beqz src target => exact h.hostBranch _ target
    | label name => exact .next (h.withHost _)
    | halt => exact .next h

theorem step (hs : s.Inv) (ht : t.Inv) : OutcomesAlike (Machine.step s) (Machine.step t) := by
  unfold Machine.step
  rw [h.nextTurn]
  cases s.nextTurn with
  | host => exact h.takeTurn.hostStep
  | engine => exact h.takeTurn.engineStep hs.takeTurn ht.takeTurn
  | reset => exact .next h.takeTurn.hardReset

end State.SameVisible

theorem OutcomesAlike.of_next {x y : Host.Outcome State Fault Refusal} (h : OutcomesAlike x y) {u : State}
    (hx : x = .next u) : ∃ v, y = .next v ∧ u.SameVisible v := by
  cases h with
  | next huv => cases hx; exact ⟨_, rfl, huv⟩
  | fault => cases hx
  | refused => cases hx

theorem OutcomesAlike.of_refused {x y : Host.Outcome State Fault Refusal} (h : OutcomesAlike x y) {r : Refusal}
    (hx : x = .refused r) : y = .refused r := by
  cases h with
  | next => cases hx
  | fault => cases hx
  | refused => exact hx

/-- Settles O58: the steps have alike outcomes, by whose turn it is and, in the engine's, by the command. -/
theorem staleEntriesAreUnobservable : Obligations.StaleEntriesAreUnobservable := by
  intro s t hs ht h
  have hstep := h.step hs ht
  exact ⟨fun _ => hstep.of_next, fun _ => hstep.of_refused⟩

end Sys2Proof.Machine
end

section
/-! PROOFS of 30_encoding.md. The decoder answers a command on that command's own word and on no other: the round trip,
the rows of the opcode map, the illegal words and the examples all follow from this one equivalence. Then the host's
statements, and WAIT as four of them. -/

namespace Sys2Proof.Machine

/-! ### The decoder and the encoder -/

/-- The opcodes of the opcode map (30_encoding.md R85). -/
def listedOpcodes : List Byte := [0x00, 0x01, 0x02, 0x03, 0x10, 0x11, 0x20, 0x21, 0x22, 0x23]

/-- The opcodes of format N, whose operand must be 0 (30_encoding.md R81). -/
def formatNOpcodes : List Byte := [0x00, 0x01, 0x10, 0x20, 0x22]

theorem opcodeOf_mem_listed (i : Instr) : opcodeOf i ∈ listedOpcodes := by
  cases i <;> simp [opcodeOf, listedOpcodes]

theorem operandOf_eq_zero {i : Instr} (h : opcodeOf i ∈ formatNOpcodes) : operandOf i = 0 := by
  cases i with
  | nop | clear | build | decClear | decode => rfl
  | freqAdd | freqRead | nodeRead | decPush | decRead => simp [opcodeOf, formatNOpcodes] at h

theorem decodeOpcode_opcodeOf (i : Instr) : decodeOpcode (opcodeOf i) (operandOf i) = .command i := by
  cases i <;> rfl

theorem decodeOpcode_unlisted {opc : Byte} (h : opc ∉ listedOpcodes) (imm : Half) :
    decodeOpcode opc imm = .illegal .unlistedOpcode := by
  simp only [listedOpcodes, List.mem_cons, List.not_mem_nil, or_false, not_or] at h
  simp only [decodeOpcode, h, if_false]

theorem decodeOpcode_formatN {opc : Byte} (h : opc ∈ formatNOpcodes) {imm : Half} (himm : imm ≠ 0) :
    decodeOpcode opc imm = .illegal .operandOnFormatN := by
  simp only [formatNOpcodes, List.mem_cons, List.not_mem_nil, or_false] at h
  rcases h with rfl | rfl | rfl | rfl | rfl <;> exact if_neg himm

/-- A listed opcode with an operand its format admits is a command's. -/
theorem exists_instr_of_fields {opc : Byte} (h : opc ∈ listedOpcodes) {imm : Half}
    (himm : opc ∈ formatNOpcodes → imm = 0) : ∃ i, opcodeOf i = opc ∧ operandOf i = imm := by
  simp only [listedOpcodes, List.mem_cons, List.not_mem_nil, or_false] at h
  rcases h with rfl | rfl | rfl | rfl | rfl | rfl | rfl | rfl | rfl | rfl
  · exact ⟨.nop, rfl, (himm (by decide)).symm⟩
  · exact ⟨.clear, rfl, (himm (by decide)).symm⟩
  · exact ⟨.freqAdd imm, rfl, rfl⟩
  · exact ⟨.freqRead imm, rfl, rfl⟩
  · exact ⟨.build, rfl, (himm (by decide)).symm⟩
  · exact ⟨.nodeRead imm, rfl, rfl⟩
  · exact ⟨.decClear, rfl, (himm (by decide)).symm⟩
  · exact ⟨.decPush imm, rfl, rfl⟩
  · exact ⟨.decode, rfl, (himm (by decide)).symm⟩
  · exact ⟨.decRead imm, rfl, rfl⟩

theorem eq_encodeCmd_of_fields {w : Word} {i : Instr} (ho : opcodeOf i = opcField w) (hrsv : rsvField w = 0)
    (hi : operandOf i = immField w) : w = encodeCmd i := by
  apply BitVec.eq_of_toNat_eq
  rw [word_of_fields, toNat_encodeCmd, hrsv, ho, hi, toNat_zero_literal, Nat.zero_mul, Nat.add_zero]

/-- Everything the decoder can answer: the command whose word it reads, or illegal in one of the three ways of
30_encoding.md R86. -/
theorem decodeCmd_cases (w : Word) :
    (∃ i, w = encodeCmd i ∧ decodeCmd w = .command i) ∨
    ((opcField w ∉ listedOpcodes ∨ rsvField w ≠ 0 ∨ opcField w ∈ formatNOpcodes ∧ immField w ≠ 0) ∧
      ∃ why, decodeCmd w = .illegal why) := by
  by_cases hrsv : rsvField w = 0
  · have hdec : decodeCmd w = decodeOpcode (opcField w) (immField w) := if_pos hrsv
    by_cases hopc : opcField w ∈ listedOpcodes
    · by_cases himm : opcField w ∈ formatNOpcodes → immField w = 0
      · obtain ⟨i, ho, hi⟩ := exists_instr_of_fields hopc himm
        refine .inl ⟨i, eq_encodeCmd_of_fields ho hrsv hi, ?_⟩
        rw [hdec, ← ho, ← hi, decodeOpcode_opcodeOf]
      · obtain ⟨hN, hne⟩ := Classical.not_imp.mp himm
        exact .inr ⟨.inr (.inr ⟨hN, hne⟩), _, hdec.trans (decodeOpcode_formatN hN hne)⟩
    · exact .inr ⟨.inl hopc, _, hdec.trans (decodeOpcode_unlisted hopc _)⟩
  · exact .inr ⟨.inr (.inl hrsv), _, if_neg hrsv⟩

theorem decodeCmd_encodeCmd (i : Instr) : decodeCmd (encodeCmd i) = .command i := by
  rw [decodeCmd, rsvField_encodeCmd, opcField_encodeCmd, immField_encodeCmd, if_pos rfl, decodeOpcode_opcodeOf]

/-- The decoder answers a command on its word and on no other. -/
theorem decodeCmd_eq_command {w : Word} {i : Instr} : decodeCmd w = .command i ↔ w = encodeCmd i := by
  refine ⟨fun h => ?_, fun h => h ▸ decodeCmd_encodeCmd i⟩
  obtain ⟨j, hw, hj⟩ | ⟨-, why, hwhy⟩ := decodeCmd_cases w
  · cases h.symm.trans hj
    exact hw
  · cases h.symm.trans hwhy

/-! ### The rows of the opcode map -/

/-- A row of format N selects one word. -/
theorem decodeCmd_wholeWord {w c : Word} {i : Instr} (hc : encodeCmd i = c := by decide) :
    decodeCmd w = .command i ↔ w &&& 0xFFFFFFFF = c := by
  rw [decodeCmd_eq_command, and_wholeWord, hc]

/-- A row of format S or I selects the words with its opcode and `RSV` 0, whatever their operand. -/
theorem decodeCmd_upperHalf {w c : Word} {i : Instr}
    (hc : c.toNat = (opcodeOf i).toNat * 16777216 := by simp [opcodeOf]) :
    decodeCmd w = .command i ↔ w &&& 0xFFFF0000 = c ∧ operandOf i = w.extractLsb' 0 16 := by
  have hw := w.isLt
  have hi := (operandOf i).isLt
  rw [decodeCmd_eq_command, ← BitVec.toNat_inj, ← BitVec.toNat_inj, ← BitVec.toNat_inj, toNat_encodeCmd,
    toNat_and_upperHalf, toNat_field, hc]
  omega

theorem encodeLegal (i : Instr) : Laws.EncodeLegal.Statement i := by
  cases i with
  | nop => exact Laws.EncodeLegal.nop
  | clear => exact Laws.EncodeLegal.clear
  | freqAdd sym => exact Laws.EncodeLegal.freqAdd sym
  | freqRead idx => exact Laws.EncodeLegal.freqRead idx
  | build => exact Laws.EncodeLegal.build
  | nodeRead idx => exact Laws.EncodeLegal.nodeRead idx
  | decClear => exact Laws.EncodeLegal.decClear
  | decPush ch => exact Laws.EncodeLegal.decPush ch
  | decode => exact Laws.EncodeLegal.decode
  | decRead idx => exact Laws.EncodeLegal.decRead idx

theorem legalWord_encodeCmd (i : Instr) : legalWord (encodeCmd i) = true := by
  obtain ⟨-, r, hr, -, hsel⟩ := encodeLegal i
  exact List.any_eq_true.mpr ⟨r, hr, hsel⟩

/-- Where a row's mask keeps a field, a word that selects the row has the row's field. -/
theorem field_of_selects {r : OpcodeRow} {w : Word} (h : r.selects w = true) {start len : Nat}
    (hmask : r.mask.extractLsb' start len = BitVec.allOnes len) :
    r.pattern.extractLsb' start len = w.extractLsb' start len := by
  rw [← eq_of_beq h, BitVec.extractLsb'_and, hmask, BitVec.and_allOnes]

/-- Every mask of the opcode map keeps `OPC`, so a selected row has the word's opcode. -/
theorem opcField_of_selects {r : OpcodeRow} (hr : r ∈ opcodeRows) {w : Word} (h : r.selects w = true) :
    opcField r.pattern = opcField w := by
  have hmask : ∀ r ∈ opcodeRows, opcField r.mask = BitVec.allOnes 8 := by decide
  exact field_of_selects h (hmask r hr)

/-- No two rows have the same opcode, so no word selects two (30_encoding.md R85). -/
theorem length_filter_selects_le (w : Word) : (opcodeRows.filter (fun r => r.selects w)).length ≤ 1 := by
  have hnodup : (opcodeRows.map (fun r => opcField r.pattern)).Nodup := by decide
  calc (opcodeRows.filter (fun r => r.selects w)).length
      = opcodeRows.countP (fun r => r.selects w) := List.countP_eq_length_filter.symm
    _ ≤ opcodeRows.countP (fun r => opcField r.pattern == opcField w) :=
        List.countP_mono_left fun r hr h => beq_iff_eq.mpr (opcField_of_selects hr h)
    _ = (opcodeRows.map (fun r => opcField r.pattern)).count (opcField w) := by rw [List.count, List.countP_map]; rfl
    _ ≤ 1 := List.nodup_iff_count_le_one.mp hnodup _

/-- A word that selects a row is illegal in none of the three ways, so it is a command's (30_encoding.md R85). -/
theorem exists_encodeCmd_of_selects {r : OpcodeRow} (hr : r ∈ opcodeRows) {w : Word} (h : r.selects w = true) :
    ∃ i, w = encodeCmd i := by
  have hopc : ∀ r ∈ opcodeRows, opcField r.pattern ∈ listedOpcodes := by decide
  have hrsv : ∀ r ∈ opcodeRows, rsvField r.mask = BitVec.allOnes 8 ∧ rsvField r.pattern = 0 := by decide
  have himm : ∀ r ∈ opcodeRows, opcField r.pattern ∈ formatNOpcodes →
      immField r.mask = BitVec.allOnes 16 ∧ immField r.pattern = 0 := by decide
  obtain ⟨i, hi, -⟩ | ⟨hunlisted | hreserved | ⟨hN, hoperand⟩, -⟩ := decodeCmd_cases w
  · exact ⟨i, hi⟩
  · exact absurd (opcField_of_selects hr h ▸ hopc r hr) hunlisted
  · obtain ⟨hmask, hzero⟩ := hrsv r hr
    exact absurd ((field_of_selects h hmask).symm.trans hzero) hreserved
  · obtain ⟨hmask, hzero⟩ := himm r hr (opcField_of_selects hr h ▸ hN)
    exact absurd ((field_of_selects h hmask).symm.trans hzero) hoperand

/-- The legal words are the commands' words. -/
theorem legalWord_iff {w : Word} : legalWord w = true ↔ ∃ i, w = encodeCmd i := by
  refine ⟨fun h => ?_, fun ⟨i, hi⟩ => hi ▸ legalWord_encodeCmd i⟩
  obtain ⟨r, hr, hsel⟩ := List.any_eq_true.mp h
  exact exists_encodeCmd_of_selects hr hsel

theorem exists_illegal_iff_legalWord {w : Word} : (∃ why, decodeCmd w = .illegal why) ↔ legalWord w = false := by
  rw [← Bool.not_eq_true, legalWord_iff]
  cases h : decodeCmd w with
  | command i => simp [decodeCmd_eq_command.mp h]
  | illegal why => simp [← decodeCmd_eq_command, h]

/-- Settles O3, from the decoder's answer on a command's word and on no other. -/
theorem decodeAndEncodeAreInverse : Obligations.DecodeAndEncodeAreInverse := by
  refine ⟨fun i _ => decodeCmd_encodeCmd i, fun w hw => ?_⟩
  obtain ⟨i, rfl⟩ := legalWord_iff.mp hw
  exact ⟨i, decodeCmd_encodeCmd i, rfl⟩

/-- Settles O2, row by row. -/
theorem opcodeMapIsDecodedRowByRow : Obligations.OpcodeMapIsDecodedRowByRow := fun w =>
  ⟨decodeCmd_wholeWord, decodeCmd_wholeWord, fun _ => decodeCmd_upperHalf, fun _ => decodeCmd_upperHalf,
    decodeCmd_wholeWord, fun _ => decodeCmd_upperHalf, decodeCmd_wholeWord, fun _ => decodeCmd_upperHalf,
    decodeCmd_wholeWord, fun _ => decodeCmd_upperHalf, exists_illegal_iff_legalWord, length_filter_selects_le w⟩

/-- Settles O1: each example word is its command's, and each illegal one has its reason. -/
theorem exampleWordsDecode : Obligations.ExampleWordsDecode := by
  refine ⟨fun p hp => ?_, fun w hw => ?_⟩
  · have hword : encodeCmd p.2 = p.1 := by revert p; decide
    exact ⟨decodeCmd_eq_command.mpr hword.symm, hword⟩
  · simp only [List.mem_cons, List.not_mem_nil, or_false] at hw
    rcases hw with rfl | rfl | rfl | rfl
    · exact ⟨.operandOnFormatN, by decide⟩
    · exact ⟨.reservedBits, by decide⟩
    · exact ⟨.unlistedOpcode, by decide⟩
    · exact ⟨.reservedBits, by decide⟩

/-! ### Illegal words -/

/-- The three cases of 30_encoding.md R86. -/
theorem exists_illegal_iff_fields {w : Word} : (∃ why, decodeCmd w = .illegal why) ↔
    opcField w ∉ listedOpcodes ∨ rsvField w ≠ 0 ∨ opcField w ∈ formatNOpcodes ∧ immField w ≠ 0 := by
  obtain ⟨i, rfl, hi⟩ | ⟨hfields, hwhy⟩ := decodeCmd_cases w
  · simpa [hi, opcodeOf_mem_listed] using operandOf_eq_zero
  · exact iff_of_true hwhy hfields

theorem performWord_illegal {w : Word} {why : IllegalReason} (h : decodeCmd w = .illegal why) (s : State) :
    performWord w s = .next (s.raiseError .illegalCmd w) := by
  rw [performWord, h]

/-- Settles O4: the decoder's three rejections, and what an illegal word does at acceptance and at its end. -/
theorem illegalWordIsAcceptedAndCompletes : Obligations.IllegalWordIsAcceptedAndCompletes := by
  refine fun w => ⟨exists_illegal_iff_fields, fun s ⟨why, h⟩ => ⟨fun hidle => ?_, performWord_illegal h s⟩⟩
  rw [writeWord_cmd, issue_idle hidle]; rfl

/-! ### The host's statements -/

theorem accessRefusal_offset (r : Reg) : accessRefusal .word r.offset = none := by cases r <;> rfl

theorem countDraw_exact (s : State) {r : Reg} (h : r.volatile = false) : s.countDraw r.offset = s := by
  simp [State.countDraw, readIsDraw_offset, h]

/-- A read of a register that is exact while busy puts its value in the host's variable and changes nothing else. -/
theorem hostStep_rdStmt {s : State} {dst : HVar} {r : Reg} (hr : r.volatile = false)
    (hcur : s.host.current = some (rdStmt dst r)) :
    hostStep s = .next (s.withHost { s.host.advance with vars := s.host.vars.set dst (s.regValue r) }) := by
  rw [hostStep_rd hcur, hostRead_of_access (accessRefusal_offset r), countDraw_exact s hr, readWord_exact s hr]

theorem hostStep_andi {s : State} {dst src : HVar} {imm : Word} (h : s.host.current = some (.andi dst src imm)) :
    hostStep s =
      .next (s.withHost { s.host.advance with vars := s.host.vars.set dst (s.host.vars.get src &&& imm) }) := by
  rw [hostStep, h]

theorem hostStep_label {s : State} {name : Nat} (h : s.host.current = some (.label name)) :
    hostStep s = .next (s.withHost s.host.advance) := by
  rw [hostStep, h]

theorem hostStep_ended {s : State} (h : s.host.current = some .halt ∨ s.host.current = none) :
    hostStep s = .next s := by
  rcases h with h | h <;> rw [hostStep, h]

/-- A label's place is where it first stands. -/
theorem labelPlace_eq_some {host : HostAgent} {name place : Nat} (h : host.program[place]? = some (.label name))
    (hfirst : ∀ k < place, host.program[k]? ≠ some (.label name)) : host.labelPlace name = some place := by
  obtain ⟨hlt, hat⟩ := List.getElem?_eq_some_iff.mp h
  refine List.findIdx?_eq_some_iff_getElem.mpr ⟨hlt, beq_iff_eq.mpr hat, fun k hk => ?_⟩
  rw [Bool.not_eq_true, beq_eq_false_iff_ne]
  exact fun heq => hfirst k hk (List.getElem?_eq_some_iff.mpr ⟨_, heq⟩)

theorem hostBranch_of_label {s : State} {name place : Nat} (h : s.host.labelPlace name = some place) (taken : Bool) :
    hostBranch taken name s =
      .next (s.withHost { s.host with place := if taken then place else s.host.place + 1 }) := by
  cases taken with
  | true => simp [hostBranch, h]
  | false => rfl

theorem hostStep_bnez {s : State} {src : HVar} {name place : Nat} (hcur : s.host.current = some (.bnez src name))
    (h : s.host.labelPlace name = some place) :
    hostStep s = .next (s.withHost { s.host with
      place := if s.host.vars.get src = 0 then s.host.place + 1 else place }) := by
  have hstep : hostStep s = hostBranch (s.host.vars.get src != 0) name s := by rw [hostStep, hcur]
  rw [hstep, hostBranch_of_label h]
  by_cases hz : s.host.vars.get src = 0 <;> simp [hz]

theorem hostStep_beqz {s : State} {src : HVar} {name place : Nat} (hcur : s.host.current = some (.beqz src name))
    (h : s.host.labelPlace name = some place) :
    hostStep s = .next (s.withHost { s.host with
      place := if s.host.vars.get src = 0 then place else s.host.place + 1 }) := by
  have hstep : hostStep s = hostBranch (s.host.vars.get src == 0) name s := by rw [hostStep, hcur]
  rw [hstep, hostBranch_of_label h]
  by_cases hz : s.host.vars.get src = 0 <;> simp [hz]

/-- Settles O54, statement by statement. -/
theorem hostStatementsAct : Obligations.HostStatementsAct := by
  refine fun s => ⟨fun dst src imm hcur => ?_, fun src name place hcur hat hfirst => ?_,
    fun src name place hcur hat hfirst => ?_, fun name => hostStep_label, hostStep_ended⟩
  · exact ⟨_, hostStep_andi hcur, rfl, (HostVars.get_set _ dst dst _).trans (if_pos rfl),
      fun h hne => (HostVars.get_set _ dst h _).trans (if_neg hne)⟩
  · exact hostStep_bnez hcur (labelPlace_eq_some hat hfirst)
  · exact hostStep_beqz hcur (labelPlace_eq_some hat hfirst)

/-! ### WAIT -/

/-- The four statements of WAIT, each at its place in the program (30_encoding.md R91). -/
theorem current_in_wait {host : HostAgent} {fresh k : Nat} {before after : List HostStmt}
    (hprog : host.program = before ++ waitStmts fresh ++ after) (hk : k < 4) (hplace : host.place = before.length + k) :
    host.current = (waitStmts fresh)[k]? := by
  have hlen : k < (waitStmts fresh).length := hk
  rw [HostAgent.current, hprog, hplace, List.append_assoc, List.getElem?_append_right (Nat.le_add_right _ _),
    Nat.add_sub_cancel_left, List.getElem?_append_left hlen]

theorem labelPlace_of_wait {host : HostAgent} {fresh : Nat} {before after : List HostStmt}
    (hprog : host.program = before ++ waitStmts fresh ++ after) (hfresh : .label fresh ∉ before) :
    host.labelPlace fresh = some before.length := by
  apply labelPlace_eq_some
  · simp [hprog, waitStmts]
  · intro k hk heq
    rw [hprog, List.append_assoc, List.getElem?_append_left hk] at heq
    exact hfresh (List.mem_of_getElem? heq)

/-- What WAIT's `andi` keeps of `STATUS` is `BUSY` (10_state.md R26). -/
theorem statusWord_and_one (s : State) : s.statusWord &&& 0x1 = if s.busy then 1 else 0 := by
  obtain ⟨hbit, -⟩ := statusWord_fields s
  rw [show (0x1 : Word) = 1#32 from rfl, BitVec.and_one_eq_setWidth_ofBool_getLsbD, hbit]
  cases s.busy <;> rfl

/-- Settles O53, statement by statement; the branch's label is the fresh one. -/
theorem waitPollsBusy : Obligations.WaitPollsBusy := by
  refine fun s fresh before after hprog hfresh => ⟨fun h => ?_, fun h => ?_, fun h => ?_, fun h => ?_,
    statusWord_and_one s⟩
  · rw [hostStep_label (current_in_wait hprog (by decide : 0 < 4) h), HostAgent.advance, h]; rfl
  · rw [hostStep_rdStmt (r := .status) rfl (current_in_wait hprog (by decide : 1 < 4) h), HostAgent.advance, h]; rfl
  · rw [hostStep_andi (current_in_wait hprog (by decide : 2 < 4) h), HostAgent.advance, h]; rfl
  · rw [hostStep_bnez (current_in_wait hprog (by decide : 3 < 4) h) (labelPlace_of_wait hprog hfresh), h]; rfl

end Sys2Proof.Machine
end

section
/-! PROOFS of 40_control.md. Whose turn it is and what that turn's step does; acceptance, the dropped command and
completion; NOP and CLEAR. Then that a pending command completes: from a state that meets the invariant no command
reaches a missing entry, so the engine's step always answers, and a host that makes no refused access only delays it. -/

namespace Sys2Proof.Machine

/-! ### Turns -/

theorem nextTurn_cons {s : State} {u : Turn} {rest : List Turn} (h : s.schedule = u :: rest) : s.nextTurn = u := by
  rw [State.nextTurn, h]

theorem nextTurn_nil {s : State} (h : s.schedule = []) :
    s.nextTurn = if s.pending.isSome then .engine else .host := by
  rw [State.nextTurn, h]

theorem nextTurn_pending {s : State} (h : s.schedule = []) (hp : s.pending ≠ none) : s.nextTurn = .engine := by
  rw [nextTurn_nil h, if_pos (Option.isSome_iff_ne_none.mpr hp)]

theorem nextTurn_idle {s : State} (h : s.schedule = []) (hp : s.pending = none) : s.nextTurn = .host := by
  rw [nextTurn_nil h, hp]; rfl

theorem step_host {s : State} (h : s.nextTurn = .host) : step s = hostStep s.takeTurn := by rw [step, h]

theorem step_engine {s : State} (h : s.nextTurn = .engine) : step s = engineStep s.takeTurn := by rw [step, h]

theorem engineStep_idle {s : State} (h : s.pending = none) : engineStep s = .next s := by rw [engineStep, h]

theorem engineStep_pending {s : State} {p : Pending} (h : s.pending = some p) :
    engineStep s = performWord p.word s := by rw [engineStep, h]

theorem performWord_command {w : Word} {i : Instr} (h : decodeCmd w = .command i) (s : State) :
    performWord w s = exec i s := by rw [performWord, h]

/-- The bits of a 32-bit word are the word (30_encoding.md R80). -/
theorem withFetchWord_toNat (s : State) (w : Word) : s.withFetchWord 32 w.toNat = s.placeCommand w := by
  rw [State.withFetchWord, Nat.mod_eq_of_lt w.isLt, BitVec.ofNat_toNat, BitVec.setWidth_eq]

/-- Settles O5, by what the decoder answers on the pending word. -/
theorem stepPerformsThePendingCommand : Obligations.StepPerformsThePendingCommand := by
  refine fun s hturn => ⟨fun p hp => ?_, fun hp => ?_⟩
  · have hstep : step s = performWord p.word s.takeTurn := (step_engine hturn).trans (engineStep_pending hp)
    exact ⟨fun i h => hstep.trans (performWord_command h _), fun why h => hstep.trans (performWord_illegal h _)⟩
  · exact (step_engine hturn).trans (engineStep_idle hp)

/-- Settles O13: a placed word is an accepted one, with the engine's turn put first. -/
theorem turnsFollowTheSchedule : Obligations.TurnsFollowTheSchedule := by
  refine ⟨fun s u rest => nextTurn_cons, fun s => nextTurn_pending, fun s => nextTurn_idle, fun s => step_host,
    fun s w => ?_⟩
  have hturn : (s.placeCommand w).nextTurn = .engine := nextTurn_cons (State.placeCommand_schedule s w)
  have htaken : (s.placeCommand w).takeTurn = s.accept w := rfl
  rw [withFetchWord_toNat, step_engine hturn, htaken, engineStep_pending (State.accept_pending s w), State.accept]

/-! ### Acceptance and the dropped command -/

/-- Settles O6. -/
theorem acceptanceLatchesWordAndArgument : Obligations.AcceptanceLatchesWordAndArgument := by
  intro s w h
  rw [writeWord_cmd, issue_idle h]; rfl

/-- A host write clears `OVERRUN` only at `STATUS`, by bit 3 (10_state.md R27). -/
theorem writeWord_clears_overrun {s : State} {offset : Nat} {v : Word} (h : s.overrun = true)
    (hw : (s.writeWord offset v).overrun = false) : offset = 0x14 ∧ v.getLsbD 3 = true := by
  obtain ⟨-, he⟩ | ⟨ho, he⟩ | ⟨-, he⟩ | ⟨-, -, he⟩ | ⟨-, -, he⟩ | he := writeWord_cases s offset v <;> rw [he] at hw
  case inr.inl =>
    refine ⟨ho, ?_⟩
    by_contra hbit
    rw [State.writeStatus_overrun, if_neg hbit, h] at hw
    cases hw
  case inr.inr.inr.inr.inl => cases hw
  all_goals cases h.symm.trans hw

/-- Settles O7: of the four things a step can be, only a host write and reset touch `OVERRUN`. -/
theorem busyCommandWriteIsDropped : Obligations.BusyCommandWriteIsDropped := by
  refine ⟨fun s w h => ?_, fun s t hset hstep hclear => ?_⟩
  · rw [writeWord_cmd, issue_busy h]; rfl
  · obtain ⟨hturn, hh⟩ | ⟨-, -, rfl⟩ | ⟨-, p, -, hp⟩ | ⟨hturn, -⟩ := step_next hstep
    · obtain ht | ⟨offset, v, hcur, ht⟩ := hostStep_next hh <;> rw [ht] at hclear
      · cases hset.symm.trans hclear
      · obtain ⟨rfl, hbit⟩ := writeWord_clears_overrun (s := s.takeTurn) hset hclear
        exact .inr ⟨hturn, v, hcur, hbit⟩
    · cases hset.symm.trans hclear
    · rw [performWord_frame hp] at hclear
      cases hset.symm.trans hclear
    · exact .inl hturn

/-! ### Completion -/

/-- Every word that answers a next state completes (40_control.md R102). -/
theorem performWord_completed {w : Word} {s t : State} (h : performWord w s = .next t) : t.Completed := by
  rw [performWord_frame h]; exact ⟨rfl, rfl, rfl⟩

/-- A word succeeds with detail 0, or fails on the state it started in, for DECODE without its text (40_control.md R102,
60_exceptions.md R205, 43_decoder.md R177). -/
theorem performWord_next {w : Word} {s t : State} (h : performWord w s = .next t) :
    (t.errCode = .ok ∧ t.errInfo = 0) ∨
    (t.errCode ≠ .ok ∧
      t = if decodeCmd w = .command .decode then s.withoutText.raiseError t.errCode t.errInfo
        else s.raiseError t.errCode t.errInfo) := by
  cases hdec : decodeCmd w with
  | illegal why =>
    rw [performWord_illegal hdec] at h
    cases h
    exact .inr ⟨by simp, by simp⟩
  | command i =>
    rw [performWord_command hdec] at h
    obtain ⟨u, -, rfl⟩ | ⟨c, x, hc, rfl⟩ := exec_next h
    · exact .inl ⟨rfl, rfl⟩
    · refine .inr ⟨(commandBody_raises hc).1, ?_⟩
      cases i <;> rfl

/-- Settles O8, from the two ends a word can come to. -/
theorem completionFieldsAndAtomicFailure : Obligations.CompletionFieldsAndAtomicFailure := by
  intro w s t h
  obtain ⟨hbusy, hdone, hpending⟩ := performWord_completed h
  refine ⟨hbusy, hdone, hpending, fun hok => ?_, fun hfail => ?_⟩
  · obtain ⟨-, hinfo⟩ | ⟨hne, -⟩ := performWord_next h
    · exact hinfo
    · exact absurd hok hne
  · obtain ⟨hok, -⟩ | ⟨-, ht⟩ := performWord_next h
    · exact absurd hok hfail
    · exact ht

/-! ### NOP and CLEAR -/

/-- A word whose upper half is 0 has opcode and reserved bits 0: it is NOP, or has an operand NOP does not take. -/
theorem decodeCmd_zero_append (x : Half) : decodeCmd ((0 : Half) ++ x) = formatN x .nop := by
  have hw : ((0 : Half) ++ x).toNat = x.toNat := by rw [toNat_concat, toNat_zero_literal, Nat.zero_mul, Nat.zero_add]
  have hx := x.isLt
  have hrsv : rsvField ((0 : Half) ++ x) = 0 := by
    apply BitVec.eq_of_toNat_eq
    rw [rsvField, toNat_field, hw, toNat_zero_literal]; omega
  have hopc : opcField ((0 : Half) ++ x) = 0 := by
    apply BitVec.eq_of_toNat_eq
    rw [opcField, toNat_field, hw, toNat_zero_literal]; omega
  have himm : immField ((0 : Half) ++ x) = x := by
    apply BitVec.eq_of_toNat_eq
    rw [immField, toNat_field, hw]; omega
  rw [decodeCmd, if_pos hrsv, hopc, himm]; rfl

/-- Settles O14. NOP's word is the encoder's, and the words beside it have an operand. -/
theorem nopOnlyCompletes : Obligations.NopOnlyCompletes :=
  ⟨fun s => exec_of_ok (i := .nop) (s := s) rfl, fun _ => decodeCmd_eq_command, decodeCmd_zero_append⟩

/-- No body but CLEAR's takes a tree away (40_control.md R111). -/
theorem commandBody_keeps_treeValid {i : Instr} {s u : State} (hi : i ≠ .clear) (h : commandBody i s = .ok u)
    (hv : s.treeValid = true) : u.treeValid = true := by
  cases i with
  | nop => cases h; exact hv
  | clear => exact absurd rfl hi
  | freqAdd sym => obtain ⟨hlocked, -⟩ := freqAddBody_eq_ok h; cases hv.symm.trans hlocked
  | freqRead idx => obtain ⟨-, -, rfl⟩ := freqReadBody_eq_ok h; exact hv
  | build => obtain ⟨-, -, -, rfl⟩ := buildBody_eq_ok h; rfl
  | nodeRead idx => obtain ⟨-, -, -, rfl⟩ := nodeReadBody_eq_ok h; exact hv
  | decClear => cases h; exact hv
  | decPush ch => obtain ⟨-, rfl⟩ := decPushBody_eq_ok h; exact hv
  | decode => obtain ⟨-, -, _, _, -, -, -, -, rfl⟩ := decodeBody_eq_ok h; exact hv
  | decRead idx => obtain ⟨-, -, rfl⟩ := decReadBody_eq_ok h; exact hv

theorem failBase_treeValid (i : Instr) (s : State) : (failBase i s).treeValid = s.treeValid := by cases i <;> rfl

theorem exec_keeps_treeValid {i : Instr} {s t : State} (hi : i ≠ .clear) (h : exec i s = .next t)
    (hv : s.treeValid = true) : t.treeValid = true := by
  obtain ⟨u, hu, rfl⟩ | ⟨c, x, -, rfl⟩ := exec_next h
  · exact u.complete_treeValid.trans (commandBody_keeps_treeValid hi hu hv)
  · exact (failBase_treeValid i s).trans hv

/-- Settles O15: CLEAR succeeds, and every other command keeps a tree. -/
theorem clearStartsANewSession : Obligations.ClearStartsANewSession :=
  ⟨fun s => exec_of_ok (i := .clear) (s := s) rfl, fun _ => decodeCmd_eq_command, fun _ _ _ => exec_keeps_treeValid⟩

/-! ### No command reaches a missing entry -/

/-- A piece of a command's pseudocode that goes on, or raises an error: it reaches no missing entry. -/
def Cmd.NoFault {α : Type} (x : Cmd α) : Prop := ∀ f, x ≠ .error (.fault f)

theorem Cmd.NoFault.ok {α : Type} (a : α) : Cmd.NoFault (.ok a : Cmd α) := fun _ h => nomatch h

theorem Cmd.NoFault.raise {α : Type} (c : ErrCode) (x : Word) : Cmd.NoFault (Cmd.raise c x : Cmd α) :=
  fun _ h => nomatch h

theorem Cmd.NoFault.bind {α β : Type} {x : Cmd α} {f : α → Cmd β} (hx : Cmd.NoFault x)
    (hf : ∀ a, x = .ok a → Cmd.NoFault (f a)) : Cmd.NoFault (x >>= f) := by
  intro e h
  obtain h | ⟨a, ha, h⟩ := cmd_bind_eq_error.mp h
  · exact hx e h
  · exact hf a ha e h

theorem validateFrom_noFault (j : Nat) (cs : List Half) : Cmd.NoFault (validateFrom j cs) := by
  intro f h
  obtain ⟨k, hk⟩ := validateFrom_raises h
  cases hk

section
variable {s : State} (h : s.Inv)
include h

/-- The valid nodes fit the node memory (20_memory.md R63). -/
theorem State.Inv.nodeCount_le : s.nodeCount.toNat ≤ s.cfg.nodeMax := by
  cases hv : s.treeValid with
  | true =>
    obtain ⟨-, hcount, -⟩ := h.spec.tree_counts hv
    have hle := h.spec.ftCount_le
    rw [nodeMax_eq]; omega
  | false =>
    obtain ⟨hcount, -⟩ := h.spec.no_tree_counts hv
    rw [hcount]; exact Nat.zero_le _

theorem freqAddChecks_noFault (sym : Half) (inc : Word) : Cmd.NoFault (freqAddChecks sym inc s) := by
  unfold freqAddChecks
  rw [readFtEntries_of_le h.spec.ftCount_le, cmd_bind_ok]
  split_ifs
  · exact .raise _ _
  · exact .raise _ _
  · exact .raise _ _
  · exact .ok _

/-- FREQ_ADD writes below FT_COUNT, or at FT_COUNT where the table is not full (41_freq_table.md R120). -/
theorem freqAddBody_noFault (sym : Half) (inc : Word) : Cmd.NoFault (freqAddBody sym inc s) := by
  refine (freqAddChecks_noFault h sym inc).bind fun found hfound => ?_
  obtain ⟨-, hle, hfind, hroom, -⟩ := freqAddChecks_eq_ok.mp hfound
  cases found with
  | some i =>
    obtain ⟨hi, -⟩ := findSym_eq_some hfind.symm
    rw [length_ftEntries] at hi
    have hlt : i < s.cfg.nMax := by omega
    rw [freqAddEntry, readFt_of_lt hlt, cmd_bind_ok, writeFt_of_lt hlt]
    exact .ok _
  | none =>
    have hne : s.ftCount.toNat ≠ s.cfg.nMax := fun heq => hroom ⟨rfl, heq⟩
    rw [freqAddEntry, writeFt_of_lt (by omega)]
    exact .ok _

theorem freqReadBody_noFault (idx : Word) : Cmd.NoFault (freqReadBody idx s) := by
  have hle := h.spec.ftCount_le
  unfold freqReadBody
  split_ifs with hidx
  · exact .raise _ _
  · rw [readFt_of_lt (by omega)]
    exact .ok _

theorem buildBody_noFault : Cmd.NoFault (buildBody s) := by
  by_cases hzero : s.ftCount.toNat = 0
  · rw [buildBody, if_pos hzero]
    exact .raise _ _
  · rw [buildBody_of_pos (Nat.pos_of_ne_zero hzero) h.spec.ftCount_le]
    exact .ok _

theorem nodeReadBody_noFault (idx : Word) : Cmd.NoFault (nodeReadBody idx s) := by
  have hle := h.nodeCount_le
  unfold nodeReadBody
  split_ifs with hv hidx
  · exact .raise _ _
  · exact .raise _ _
  · rw [readNode_of_lt (by omega)]
    exact .ok _

theorem decPushBody_noFault (ch : Half) : Cmd.NoFault (decPushBody ch s) := by
  have hle := h.spec.binLen_le
  unfold decPushBody
  split_ifs with hfull
  · exact .raise _ _
  · rw [writeBin_of_lt (by omega)]
    exact .ok _

theorem decReadBody_noFault (idx : Word) : Cmd.NoFault (decReadBody idx s) := by
  have hle := h.spec.soutLen_le
  unfold decReadBody
  split_ifs with hidx
  · exact .raise _ _
  · rw [readSout_of_lt (by omega)]
    exact .ok _

/-- A bit of the walk reads a valid node and, below an internal one, its child, which is valid too (42_builder.md
R153). -/
theorem walkBit_noFault (hv : s.treeValid = true) (j : Nat) (b : Bool) {w : Walk} (hw : w.cur < s.nodeCount.toNat) :
    Cmd.NoFault (walkBit s j b w) := by
  have hfit := h.nodeCount_le
  unfold walkBit
  rw [readNode_of_lt (by omega), cmd_bind_ok]
  by_cases hleaf : (s.nodeAt w.cur).isLeaf = true
  · rw [if_pos hleaf]
    cases b
    · exact .ok _
    · exact .raise _ _
  · rw [if_neg hleaf]
    have hchild := h.child_lt hv hw (by simpa using hleaf) b
    by_cases hnil : (if b then (s.nodeAt w.cur).right else (s.nodeAt w.cur).left) = NIL
    · rw [if_pos hnil]
      exact .raise _ _
    · rw [if_neg hnil, readNode_of_lt (by omega), cmd_bind_ok]
      split_ifs <;> exact .ok _

theorem walkFrom_noFault (hv : s.treeValid = true) (bits : List Bool) :
    ∀ (j : Nat) {w : Walk}, w.cur < s.nodeCount.toNat → Cmd.NoFault (walkFrom s j bits w) := by
  induction bits with
  | nil => exact fun _ _ _ => .ok _
  | cons b bits ih =>
    exact fun j w hw => (walkBit_noFault h hv j b hw).bind fun w' hw' => ih (j + 1) (walkBit_cur_lt h hv hw hw')

/-- The text of a DECODE is no longer than its bit-string, so it fits `SOUT` (43_decoder.md R174). -/
theorem decodeBody_noFault : Cmd.NoFault (decodeBody s) := by
  have hle := h.spec.binLen_le
  unfold decodeBody
  by_cases hv : s.treeValid = false
  · rw [if_pos hv]
    exact .raise _ _
  · rw [if_neg hv, readBinChars_of_le hle, cmd_bind_ok]
    have hv' : s.treeValid = true := by simpa using hv
    refine (validateFrom_noFault 0 _).bind fun bits hbits => ?_
    refine (walkFrom_noFault h hv' bits 0 (h.root_lt hv')).bind fun w hw => ?_
    split_ifs
    · exact .raise _ _
    · obtain ⟨hout, hlast⟩ := walkFrom_bounds hw (Nat.le_refl _) (Nat.le_refl _)
      have hlen := length_bits (validateFrom_eq_ok.mp hbits)
      rw [writeSout_of_le (by omega)]
      exact .ok _

theorem commandBody_noFault (i : Instr) : Cmd.NoFault (commandBody i s) := by
  cases i with
  | nop => exact .ok _
  | clear => exact .ok _
  | freqAdd sym => exact freqAddBody_noFault h sym _
  | freqRead idx => exact freqReadBody_noFault h _
  | build => exact buildBody_noFault h
  | nodeRead idx => exact nodeReadBody_noFault h _
  | decClear => exact .ok _
  | decPush ch => exact decPushBody_noFault h ch
  | decode => exact decodeBody_noFault h
  | decRead idx => exact decReadBody_noFault h _

/-- Every word completes, legal or not (40_control.md R102, R106). -/
theorem performWord_completes (w : Word) : ∃ t, performWord w s = .next t ∧ t.Completed := by
  have hnext : ∃ t, performWord w s = .next t := by
    cases hdec : decodeCmd w with
    | illegal why => exact ⟨_, performWord_illegal hdec s⟩
    | command i =>
      rw [performWord_command hdec, exec_eq_finish]
      exact finish_of_no_fault _ _ (commandBody_noFault h i)
  obtain ⟨t, ht⟩ := hnext
  exact ⟨t, ht, performWord_completed ht⟩

theorem engineStep_completes (hp : s.pending ≠ none) : ∃ t, engineStep s = .next t ∧ t.Completed := by
  obtain ⟨p, hp⟩ := Option.ne_none_iff_exists'.mp hp
  rw [engineStep_pending hp]
  exact performWord_completes h p.word

end

/-! ### A host step does not disable the engine's -/

/-- A host write while `BUSY = 1` leaves `PENDING` alone (40_control.md R103). -/
theorem writeWord_keeps_pending {s : State} (hb : s.busy = true) (offset : Nat) (v : Word) :
    (s.writeWord offset v).pending = s.pending := by
  obtain ⟨-, hw⟩ | ⟨-, hw⟩ | ⟨-, hw⟩ | ⟨-, hidle, -⟩ | ⟨-, -, hw⟩ | hw := writeWord_cases s offset v
  case inr.inr.inr.inl => cases hb.symm.trans hidle
  all_goals simp [hw]

theorem hostStep_keeps_pending {s t : State} (h : s.Inv) (hp : s.pending ≠ none) (ht : hostStep s = .next t) :
    t.pending = s.pending := by
  obtain ht | ⟨offset, v, -, ht⟩ := hostStep_next ht <;> rw [ht]
  exact writeWord_keeps_pending (h.spec.busy_iff.mpr hp) offset v

theorem accessRefusal_of_wellFormed {size : AccessSize} {offset : Nat} (h : accessWellFormed size offset = true) :
    accessRefusal size offset = none := by
  simp only [accessWellFormed, Bool.and_eq_true, beq_iff_eq, decide_eq_true_eq] at h
  obtain ⟨⟨hsize, halign⟩, hlt⟩ := h
  exact accessRefusal_eq_none.mpr ⟨hsize, halign, hlt⟩

/-- A label the program holds has a place. -/
theorem exists_labelPlace {host : HostAgent} {name : Nat} (h : host.program.contains (.label name) = true) :
    ∃ place, host.labelPlace name = some place := by
  rw [← Option.isSome_iff_exists, HostAgent.labelPlace, List.findIdx?_isSome, List.any_eq_true]
  exact ⟨_, List.contains_iff_mem.mp h, beq_self_eq_true _⟩

/-- A host whose program makes no refused access has a step at every place of it, and keeps its program. -/
theorem hostStep_runs {s : State} (h : hostProgramWellFormed s.host.program = true) :
    ∃ t, hostStep s = .next t ∧ t.host.program = s.host.program := by
  have hwf : ∀ st, s.host.current = some st → st.wellFormed s.host.program = true := fun st hcur =>
    List.all_eq_true.mp h st (List.mem_of_getElem? hcur)
  match hcur : s.host.current with
  | none => exact ⟨_, hostStep_ended (.inr hcur), rfl⟩
  | some .halt => exact ⟨_, hostStep_ended (.inl hcur), rfl⟩
  | some (.label _) => exact ⟨_, hostStep_label hcur, rfl⟩
  | some (.andi ..) => exact ⟨_, hostStep_andi hcur, rfl⟩
  | some (.wr _ _ v) =>
    exact ⟨_, (hostStep_wr hcur).trans (hostWrite_of_access (accessRefusal_of_wellFormed (hwf _ hcur)) v s), rfl⟩
  | some (.rd _ dst _) =>
    exact ⟨_, (hostStep_rd hcur).trans (hostRead_of_access (accessRefusal_of_wellFormed (hwf _ hcur)) dst s), rfl⟩
  | some (.bnez _ _) =>
    obtain ⟨place, hplace⟩ := exists_labelPlace (hwf _ hcur)
    exact ⟨_, hostStep_bnez hcur hplace, rfl⟩
  | some (.beqz _ _) =>
    obtain ⟨place, hplace⟩ := exists_labelPlace (hwf _ hcur)
    exact ⟨_, hostStep_beqz hcur hplace, rfl⟩

/-! ### A pending command completes -/

theorem run_succ {s t : State} (h : step s = .next t) (k : Nat) : core.run (k + 1) s = core.run k t := by
  have hcore : core.step s = .next t := h
  simp only [Host.Core.run, hcore]

/-- A command is pending in a state that meets the invariant, under a host that makes no refused access. -/
structure State.Waiting (s : State) : Prop where
  inv : s.Inv
  pending : s.pending ≠ none
  program : hostProgramWellFormed s.host.program = true

theorem State.Waiting.run_one_completes {s : State} (h : s.Waiting) (hturn : s.nextTurn = .engine) :
    ∃ t, core.run 1 s = .next t ∧ t.Completed := by
  obtain ⟨t, ht, hdone⟩ := engineStep_completes h.inv.takeTurn h.pending
  exact ⟨t, run_succ ((step_engine hturn).trans ht) 0, hdone⟩

/-- On the host's turn the command goes on waiting, with one turn less before the engine's. -/
theorem State.Waiting.step_host_waits {s : State} (h : s.Waiting) (hturn : s.nextTurn = .host) :
    ∃ t, step s = .next t ∧ t.Waiting ∧ t.schedule = s.schedule.tail := by
  obtain ⟨t, ht, hprogram⟩ := hostStep_runs (s := s.takeTurn) h.program
  have hpending := hostStep_keeps_pending h.inv.takeTurn h.pending ht
  refine ⟨t, (step_host hturn).trans ht, ⟨hostStep_keeps_inv h.inv.takeTurn ht, ?_, ?_⟩, ?_⟩
  · rw [hpending]; exact h.pending
  · rw [hprogram]; exact h.program
  · rw [hostStep_frame ht]; rfl

/-- Induction over the schedule: an engine turn, or the schedule's end, completes the command; a host turn leaves it
waiting. -/
theorem State.Waiting.run_completes {s : State} (h : s.Waiting) (hreset : ∀ u ∈ s.schedule, u ≠ .reset) :
    ∃ k, k ≤ s.schedule.length + 1 ∧ ∃ t, core.run k s = .next t ∧ t.Completed := by
  generalize hsched : s.schedule = turns at hreset ⊢
  induction turns generalizing s with
  | nil =>
    exact ⟨1, Nat.le_refl 1, h.run_one_completes (nextTurn_pending hsched h.pending)⟩
  | cons u rest ih =>
    cases u with
    | engine =>
      exact ⟨1, Nat.le_add_left 1 _, h.run_one_completes (nextTurn_cons hsched)⟩
    | host =>
      obtain ⟨t, hstep, hwait, hrest⟩ := h.step_host_waits (nextTurn_cons hsched)
      obtain ⟨k, hk, v, hrun, hdone⟩ := ih hwait (by rw [hrest, hsched]; rfl)
        fun u hu => hreset u (List.mem_cons_of_mem _ hu)
      exact ⟨k + 1, Nat.succ_le_succ hk, v, (run_succ hstep k).trans hrun, hdone⟩
    | reset => exact absurd rfl (hreset .reset List.mem_cons_self)

/-- Settles O11, by induction over the schedule. -/
theorem everyAcceptedCommandCompletes : Obligations.EveryAcceptedCommandCompletes := by
  refine ⟨fun s => engineStep_completes, fun s t => hostStep_keeps_pending, fun s hinv hp hprog hreset => ?_⟩
  obtain ⟨k, hk, t, hrun⟩ := State.Waiting.run_completes ⟨hinv, hp, hprog⟩ hreset
  exact ⟨k, t, hk, hrun⟩

end Sys2Proof.Machine
end

section
/-! PROOFS of 41_freq_table.md. What FREQ_READ and FREQ_ADD answer in each case, on the state the command starts in. Then
the lock, and the table as a mapping: what a run of FREQ_ADDs has made of the table is an invariant of the run. -/

namespace Sys2Proof.Machine

/-! ### FREQ_READ -/

theorem decodeCmd_eq_freqRead {w : Word} {idx : Half} :
    decodeCmd w = .command (.freqRead idx) ↔ w = (0x0300 : Half) ++ idx := by
  rw [decodeCmd_eq_command, ← append_eq_encodeCmd (.freqRead idx) (c := 0x0300) (by simp [opcodeOf]), operandOf]

/-- FREQ_READ at or past FT_COUNT. -/
theorem exec_freqRead_past {s : State} {idx : Half} (h : s.ftCount.toNat ≤ idx.toNat) :
    exec (.freqRead idx) s = .next (s.raiseError .badIndex (idxOperand idx)) := by
  refine exec_of_raise ?_
  rw [commandBody, freqReadBody, toNat_idxOperand, if_pos h, raise_def]

/-- FREQ_READ of an entry. -/
theorem exec_freqRead_entry {s : State} {idx : Half} (hcount : idx.toNat < s.ftCount.toNat)
    (hsize : idx.toNat < s.cfg.nMax) :
    exec (.freqRead idx) s =
      .next { s with res0 := zextHalf (s.ftAt idx.toNat).sym, res1 := (s.ftAt idx.toNat).freq }.complete := by
  refine exec_of_ok ?_
  rw [commandBody, freqReadBody, toNat_idxOperand, if_neg (by omega), readFt_of_lt hsize, cmd_bind_ok, cmd_pure]

/-- Settles O19: below FT_COUNT the entry exists, by the invariant. -/
theorem freqReadReturnsTheEntry : Obligations.FreqReadReturnsTheEntry := fun _ _ h =>
  ⟨fun _ => decodeCmd_eq_freqRead, exec_freqRead_past,
    fun hidx => exec_freqRead_entry hidx (Nat.lt_of_lt_of_le hidx h.spec.ftCount_le)⟩

/-! ### The table's symbols and sums -/

theorem findSym_ftEntries_eq_none {s : State} {sym : Half} :
    findSym s.ftEntries sym = none ↔ ∀ i < s.ftCount.toNat, (s.ftAt i).sym ≠ sym :=
  findSym_eq_none.trans forall_ftEntries

/-- The symbols of the table, index by index. -/
theorem map_sym_ftEntries (s : State) :
    s.ftEntries.map (fun e => e.sym) = (List.range s.ftCount.toNat).map (fun i => (s.ftAt i).sym) := by
  simp [State.ftEntries, Memory.slice, State.ftAt]

/-- A total that passes FREQ_ADD's check is the sum of the naturals (41_freq_table.md R122). -/
theorem toNat_ftTotal_add {s : State} {inc : Word} (hfit : s.ftTotal.toNat + inc.toNat ≤ maxFreq) :
    (s.ftTotal + inc).toNat = s.ftTotal.toNat + inc.toNat :=
  toNat_add_of_lt (Nat.lt_succ_of_le hfit)

theorem toNat_ftCount_succ {s : State} (hroom : s.ftCount.toNat < s.cfg.nMax) :
    (s.ftCount + 1).toNat = s.ftCount.toNat + 1 :=
  toNat_add_of_lt (b := 1) (by have := nMax_le s.cfg; simp; omega)

section
variable {s : State} (h : s.Inv)
include h

/-- At most one entry holds a symbol (10_state.md R46). -/
theorem State.Inv.ftAt_sym_inj {i j : Nat} (hi : i < s.ftCount.toNat) (hj : j < s.ftCount.toNat)
    (hsym : (s.ftAt i).sym = (s.ftAt j).sym) : i = j := by
  have hnodup := h.spec.syms_distinct
  rw [map_sym_ftEntries] at hnodup
  exact List.inj_on_of_nodup_map hnodup (List.mem_range.mpr hi) (List.mem_range.mpr hj) hsym

theorem State.Inv.findSym_eq_some {sym : Half} {i : Nat} (hi : i < s.ftCount.toNat) (hsym : (s.ftAt i).sym = sym) :
    findSym s.ftEntries sym = some i := by
  cases hfind : findSym s.ftEntries sym with
  | none => exact absurd hsym (findSym_ftEntries_eq_none.mp hfind i hi)
  | some j =>
    obtain ⟨hj, hsymj, -⟩ := Machine.findSym_eq_some hfind
    rw [getElem_ftEntries] at hsymj
    rw [h.ftAt_sym_inj hi (by simpa using hj) (hsym.trans hsymj.symm)]

/-- No entry overflows where the total does not (41_freq_table.md R122). -/
theorem State.Inv.toNat_freq_add {i : Nat} (hi : i < s.ftCount.toNat) {inc : Word}
    (hfit : s.ftTotal.toNat + inc.toNat ≤ maxFreq) :
    ((s.ftAt i).freq + inc).toNat = (s.ftAt i).freq.toNat + inc.toNat := by
  have hmem : (s.ftAt i).freq.toNat ∈ s.ftEntries.map (fun e => e.freq.toNat) :=
    List.mem_map_of_mem (forall_ftEntries.mp (fun _ he => he) i hi)
  have hle : (s.ftAt i).freq.toNat ≤ s.ftTotal.toNat := h.spec.ftTotal_eq ▸ List.single_le_sum (by simp) _ hmem
  exact toNat_add_of_lt (Nat.lt_succ_of_le (Nat.le_trans (Nat.add_le_add_right hle _) hfit))

end

/-! ### FREQ_ADD -/

theorem decodeCmd_eq_freqAdd {w : Word} {sym : Half} :
    decodeCmd w = .command (.freqAdd sym) ↔ w = (0x0200 : Half) ++ sym := by
  rw [decodeCmd_eq_command, ← append_eq_encodeCmd (.freqAdd sym) (c := 0x0200) (by simp [opcodeOf]), operandOf]

/-- A locked table (41_freq_table.md R121). -/
theorem exec_freqAdd_locked {s : State} (sym : Half) (hv : s.treeValid = true) :
    exec (.freqAdd sym) s = .next (s.raiseError .tableLocked 0) := by
  refine exec_of_raise ?_
  rw [commandBody, freqAddBody, freqAddChecks, if_pos hv, raise_def, cmd_bind_error]

section
variable {s : State} {sym : Half} {p : Pending} (hp : s.pending = some p) (hl : s.treeValid = false)
  (hle : s.ftCount.toNat ≤ s.cfg.nMax)
include hl hle

/-- The checks of an unlocked table: room for the symbol, then the total (60_exceptions.md R203). -/
theorem freqAddChecks_unlocked (inc : Word) : freqAddChecks sym inc s =
    if findSym s.ftEntries sym = none ∧ s.ftCount.toNat = s.cfg.nMax then Cmd.raise .tableFull (zextHalf sym)
    else if maxFreq < s.ftTotal.toNat + inc.toNat then Cmd.raise .freqOverflow (zextHalf sym)
    else .ok (findSym s.ftEntries sym) := by
  rw [freqAddChecks, if_neg (by simp [hl]), readFtEntries_of_le hle, cmd_bind_ok, cmd_pure]

/-- A new symbol in a full table (41_freq_table.md R123). -/
theorem exec_freqAdd_full (hnew : findSym s.ftEntries sym = none) (hfull : s.ftCount.toNat = s.cfg.nMax) :
    exec (.freqAdd sym) s = .next (s.raiseError .tableFull (zextHalf sym)) := by
  refine exec_of_raise ?_
  rw [commandBody, freqAddBody, freqAddChecks_unlocked hl hle, if_pos ⟨hnew, hfull⟩, raise_def, cmd_bind_error]

include hp

/-- A total that would pass the largest word (41_freq_table.md R122). -/
theorem exec_freqAdd_overflow (hroom : ¬ (findSym s.ftEntries sym = none ∧ s.ftCount.toNat = s.cfg.nMax))
    (hover : maxFreq < s.ftTotal.toNat + p.arg.toNat) :
    exec (.freqAdd sym) s = .next (s.raiseError .freqOverflow (zextHalf sym)) := by
  refine exec_of_raise ?_
  rw [commandBody, freqAddBody, incOperand_some hp, freqAddChecks_unlocked hl hle, if_neg hroom, if_pos hover, raise_def,
    cmd_bind_error]

/-- A symbol of the table: its entry is raised. -/
theorem exec_freqAdd_found {i : Nat} (hi : i < s.ftCount.toNat) (hfind : findSym s.ftEntries sym = some i)
    (hfit : s.ftTotal.toNat + p.arg.toNat ≤ maxFreq) :
    exec (.freqAdd sym) s = .next
      { s with
        ft := Memory.set FtEntry.blank s.ft i { s.ftAt i with freq := (s.ftAt i).freq + p.arg },
        ftTotal := s.ftTotal + p.arg }.complete := by
  have hlt : i < s.cfg.nMax := Nat.lt_of_lt_of_le hi hle
  refine exec_of_ok ?_
  rw [commandBody, freqAddBody, incOperand_some hp, freqAddChecks_unlocked hl hle, if_neg (by simp [hfind]),
    if_neg (Nat.not_lt.mpr hfit), hfind, cmd_bind_ok, freqAddEntry, readFt_of_lt hlt, cmd_bind_ok, writeFt_of_lt hlt]
  rfl

/-- A new symbol where there is room: it gets the entry at FT_COUNT. -/
theorem exec_freqAdd_new (hnew : findSym s.ftEntries sym = none) (hroom : s.ftCount.toNat < s.cfg.nMax)
    (hfit : s.ftTotal.toNat + p.arg.toNat ≤ maxFreq) :
    exec (.freqAdd sym) s = .next
      { s with
        ft := Memory.set FtEntry.blank s.ft s.ftCount.toNat { sym := sym, freq := p.arg },
        ftCount := s.ftCount + 1, ftTotal := s.ftTotal + p.arg }.complete := by
  refine exec_of_ok ?_
  rw [commandBody, freqAddBody, incOperand_some hp, freqAddChecks_unlocked hl hle,
    if_neg fun hfull => Nat.ne_of_lt hroom hfull.2, if_neg (Nat.not_lt.mpr hfit), hnew, cmd_bind_ok, freqAddEntry,
    writeFt_of_lt hroom]
  rfl

end

/-- Settles O16: the five cases of the pseudocode; the invariant makes the symbol's entry the only one, and keeps the sums
within a word. -/
theorem freqAddAddsTheLatchedIncrement : Obligations.FreqAddAddsTheLatchedIncrement := by
  intro s sym p h hp
  have hle := h.spec.ftCount_le
  have hwf := h.memories.ft_wf
  refine ⟨fun _ => decodeCmd_eq_freqAdd, exec_freqAdd_locked sym,
    fun hl hnew => exec_freqAdd_full hl hle (findSym_ftEntries_eq_none.mpr hnew), fun hl hroom => ?overflow,
    fun hl hfit i hi hsym => ?found, fun hl hfit hnew hroom => ?new⟩
  case overflow =>
    refine exec_freqAdd_overflow hp hl hle fun ⟨hnone, hfull⟩ => ?_
    obtain ⟨i, hi, hsym⟩ | hne := hroom
    · exact findSym_ftEntries_eq_none.mp hnone i hi hsym
    · exact hne hfull
  case found =>
    refine ⟨_, exec_freqAdd_found hp hl hle hi (h.findSym_eq_some hi hsym) hfit, rfl, toNat_ftTotal_add hfit, ?_, ?_,
      fun j hj => Memory.get_set_other _ hj _ _⟩
    · rw [State.ftAt, State.complete_ft, Memory.get_set_same hwf, hsym]
    · rw [State.ftAt, State.complete_ft, Memory.get_set_same hwf, h.toNat_freq_add hi hfit]
  case new =>
    exact ⟨_, exec_freqAdd_new hp hl hle (findSym_ftEntries_eq_none.mpr hnew) hroom hfit, rfl, toNat_ftTotal_add hfit,
      toNat_ftCount_succ hroom, Memory.get_set_same hwf _ _, fun j hj => Memory.get_set_other _ hj _ _⟩

/-! ### The lock -/

/-- Of the command words only CLEAR's takes a tree away (40_control.md R111). -/
theorem performWord_keeps_treeValid {w : Word} {s t : State} (hw : decodeCmd w ≠ .command .clear)
    (h : performWord w s = .next t) (hv : s.treeValid = true) : t.treeValid = true := by
  cases hdec : decodeCmd w with
  | illegal why =>
    rw [performWord_illegal hdec] at h
    cases h
    exact hv
  | command i =>
    rw [performWord_command hdec] at h
    exact exec_keeps_treeValid (fun hi => hw (hi ▸ hdec)) h hv

/-- A BUILD that succeeds leaves a tree (42_builder.md R150). -/
theorem exec_build_treeValid {s t : State} (h : exec .build s = .next t) (hok : t.errCode = .ok) :
    t.treeValid = true := by
  obtain ⟨u, hu, rfl⟩ | ⟨c, x, hc, rfl⟩ := exec_next h
  · obtain ⟨-, -, -, rfl⟩ := buildBody_eq_ok hu
    rfl
  · exact absurd hok (commandBody_raises hc).1

theorem exec_build_empty {s : State} (h : s.ftCount = 0) : exec .build s = .next (s.raiseError .emptyAlphabet 0) := by
  refine exec_of_raise ?_
  rw [commandBody, buildBody, if_pos (by rw [h]; rfl), raise_def]

/-- A tree goes only by CLEAR and by reset. -/
theorem step_clears_treeValid {s t : State} (hv : s.treeValid = true) (h : step s = .next t)
    (hclear : t.treeValid = false) :
    s.nextTurn = .reset ∨
    (s.nextTurn = .engine ∧ ∃ p, s.pending = some p ∧ decodeCmd p.word = .command .clear) := by
  obtain ⟨-, hh⟩ | ⟨-, -, rfl⟩ | ⟨hturn, p, hpend, hp⟩ | ⟨hturn, -⟩ := step_next h
  · rw [hostStep_frame hh] at hclear
    cases hv.symm.trans hclear
  · cases hv.symm.trans hclear
  · refine .inr ⟨hturn, p, hpend, ?_⟩
    by_contra hw
    cases (performWord_keeps_treeValid hw hp hv).symm.trans hclear
  · exact .inl hturn

/-- FREQ_READ does the same with and without a tree. -/
theorem exec_freqRead_withTreeValid {s t : State} {idx : Half} (b : Bool) (h : exec (.freqRead idx) s = .next t) :
    exec (.freqRead idx) { s with treeValid := b } = .next { t with treeValid := b } := by
  obtain ⟨u, hu, rfl⟩ | ⟨c, x, hc, rfl⟩ := exec_next h
  · obtain ⟨hcount, hsize, rfl⟩ := freqReadBody_eq_ok hu
    rw [toNat_idxOperand] at hcount hsize ⊢
    exact exec_freqRead_entry (s := { s with treeValid := b }) hcount hsize
  · obtain ⟨hcount, rfl, rfl⟩ := freqReadBody_raises hc
    rw [toNat_idxOperand] at hcount
    exact exec_freqRead_past (s := { s with treeValid := b }) hcount

/-- Settles O17. An empty table has no tree, by the invariant. -/
theorem tableIsLockedWhileATreeExists : Obligations.TableIsLockedWhileATreeExists := by
  refine ⟨fun _ _ => exec_build_treeValid, fun _ _ => step_clears_treeValid, fun _ => exec_freqAdd_locked,
    fun s h hempty => ⟨_, exec_build_empty hempty, rfl, ?_⟩, fun _ _ _ => exec_freqRead_withTreeValid⟩
  by_contra hv
  obtain ⟨hpos, -⟩ := h.spec.tree_counts (by simpa using hv)
  rw [hempty] at hpos
  cases hpos

/-! ### First-seen order and sums of a list of increments -/

theorem firstSeen_concat (xs : List Half) (x : Half) :
    firstSeen (xs ++ [x]) = if x ∈ firstSeen xs then firstSeen xs else firstSeen xs ++ [x] := by
  rw [firstSeen, List.foldl_append]; rfl

theorem mem_firstSeen {xs : List Half} {y : Half} : y ∈ firstSeen xs ↔ y ∈ xs := by
  induction xs using List.reverseRecOn with
  | nil => rfl
  | append_singleton xs x ih =>
    rw [firstSeen_concat]
    split_ifs with hx
    · rw [List.mem_append, List.mem_singleton, ih]
      exact ⟨.inl, fun h => h.elim id fun hy => hy ▸ ih.mp (hy ▸ hx)⟩
    · rw [List.mem_append, List.mem_append, ih]

theorem countIn_concat (pairs : List (Half × Word)) (x y : Half) (inc : Word) :
    countIn (pairs ++ [(x, inc)]) y = countIn pairs y + if x = y then inc.toNat else 0 := by
  by_cases h : x = y <;> simp [countIn, h]

theorem countIn_of_unseen {pairs : List (Half × Word)} {y : Half} (h : y ∉ firstSeen (pairs.map (fun q => q.1))) :
    countIn pairs y = 0 := by
  have hnone : pairs.filter (fun q => q.1 == y) = [] := by
    rw [List.filter_eq_nil_iff]
    intro q hq heq
    exact h (mem_firstSeen.mpr (List.mem_map.mpr ⟨q, hq, by simpa using heq⟩))
  rw [countIn, hnone]; rfl

/-! ### The table as a mapping -/

/-- An unlocked table that a list of increments has made (41_freq_table.md R124). -/
structure State.HoldsSums (s : State) (adds : List (Half × Word)) : Prop where
  inv : s.Inv
  unlocked : s.treeValid = false
  syms : s.ftEntries.map (fun e => e.sym) = firstSeen (adds.map (fun q => q.1))
  sums : ∀ e ∈ s.ftEntries, e.freq.toNat = countIn adds e.sym

theorem State.Inv.holdsSums_nil {s : State} (h : s.Inv) (hcount : s.ftCount = 0) (hl : s.treeValid = false) :
    s.HoldsSums [] := by
  have hempty : s.ftEntries = [] := List.length_eq_zero_iff.mp (by rw [length_ftEntries, hcount]; rfl)
  exact ⟨h, hl, by rw [hempty]; rfl, by simp [hempty]⟩

namespace State.HoldsSums

variable {s : State} {adds : List (Half × Word)} (h : s.HoldsSums adds)
include h

theorem mem_firstSeen_iff {sym : Half} :
    sym ∈ firstSeen (adds.map (fun q => q.1)) ↔ ∃ i < s.ftCount.toNat, (s.ftAt i).sym = sym := by
  rw [← h.syms, map_sym_ftEntries]
  simp

/-- Completion looks at nothing of the table. -/
theorem completeWith {c : ErrCode} (hc : c ≠ .unknownSymbol ∧ c ≠ .emptyInput) (x : Word) :
    (s.completeWith c x).HoldsSums adds :=
  ⟨h.inv.completeWith hc x, h.unlocked, h.syms, h.sums⟩

/-- Adding to a symbol of the table: its sum grows, no other does, and the order stays. -/
theorem raise {sym : Half} {i : Nat} (hi : i < s.ftCount.toNat) (hsym : (s.ftAt i).sym = sym) {inc : Word}
    (hfit : s.ftTotal.toNat + inc.toNat ≤ maxFreq) :
    ({ s with
      ft := Memory.set FtEntry.blank s.ft i { s.ftAt i with freq := (s.ftAt i).freq + inc },
      ftTotal := s.ftTotal + inc } : State).HoldsSums (adds ++ [(sym, inc)]) := by
  set u : State := { s with
    ft := Memory.set FtEntry.blank s.ft i { s.ftAt i with freq := (s.ftAt i).freq + inc },
    ftTotal := s.ftTotal + inc }
  have hsame : u.ftAt i = { s.ftAt i with freq := (s.ftAt i).freq + inc } := Memory.get_set_same h.inv.memories.ft_wf i _
  have hother : ∀ j, j ≠ i → u.ftAt j = s.ftAt j := fun j hj => Memory.get_set_other _ hj _ _
  have hsums := forall_ftEntries.mp h.sums
  refine ⟨h.inv.withRaisedEntry h.unlocked hi hfit, h.unlocked, ?_, forall_ftEntries.mpr fun j hj => ?_⟩
  · have hsyms : ∀ j, (u.ftAt j).sym = (s.ftAt j).sym := fun j => by
      by_cases hji : j = i
      · rw [hji, hsame]
      · rw [hother j hji]
    rw [map_sym_ftEntries, List.map_append, List.map_singleton, firstSeen_concat,
      if_pos (h.mem_firstSeen_iff.mpr ⟨i, hi, hsym⟩), ← h.syms, map_sym_ftEntries]
    simp only [hsyms]
    rfl
  · rw [countIn_concat]
    by_cases hji : j = i
    · rw [hji, hsame, if_pos hsym.symm, h.inv.toNat_freq_add hi hfit, hsums i hi]
    · have hne : sym ≠ (s.ftAt j).sym := fun heq => hji (h.inv.ftAt_sym_inj hj hi (heq.symm.trans hsym.symm))
      rw [hother j hji, if_neg hne, hsums j hj, Nat.add_zero]

/-- Adding a new symbol: it comes last, with its first increment as its sum. -/
theorem append {sym : Half} (hnew : findSym s.ftEntries sym = none) (hroom : s.ftCount.toNat < s.cfg.nMax) {inc : Word}
    (hfit : s.ftTotal.toNat + inc.toNat ≤ maxFreq) :
    ({ s with
      ft := Memory.set FtEntry.blank s.ft s.ftCount.toNat { sym := sym, freq := inc },
      ftCount := s.ftCount + 1, ftTotal := s.ftTotal + inc } : State).HoldsSums (adds ++ [(sym, inc)]) := by
  set u : State := { s with
    ft := Memory.set FtEntry.blank s.ft s.ftCount.toNat { sym := sym, freq := inc },
    ftCount := s.ftCount + 1, ftTotal := s.ftTotal + inc }
  have hentries : u.ftEntries = s.ftEntries ++ [{ sym := sym, freq := inc }] := by
    rw [State.ftEntries, show u.ftCount.toNat = s.ftCount.toNat + 1 from toNat_ftCount_succ hroom]
    exact Memory.slice_set_succ h.inv.memories.ft_wf _ _
  have hnone := findSym_eq_none.mp hnew
  have hunseen : sym ∉ firstSeen (adds.map (fun q => q.1)) := by
    rw [← h.syms, List.mem_map]
    exact fun ⟨e, he, hsym⟩ => hnone e he hsym
  refine ⟨h.inv.withNewEntry h.unlocked hnew hroom hfit, h.unlocked, ?_, fun e he => ?_⟩
  · rw [hentries, List.map_append, List.map_append, List.map_singleton, List.map_singleton, firstSeen_concat,
      if_neg hunseen, h.syms]
  · rw [hentries, List.mem_append, List.mem_singleton] at he
    rw [countIn_concat]
    obtain he | rfl := he
    · rw [if_neg fun hsym => hnone e he hsym.symm, h.sums e he, Nat.add_zero]
    · rw [if_pos rfl, countIn_of_unseen hunseen, Nat.zero_add]

/-- A latched FREQ_ADD that succeeds adds its increment; one that fails changes no sum. -/
theorem exec_freqAdd {t : State} {sym : Half} {word inc : Word}
    (ht : exec (.freqAdd sym) { s with pending := some { word := word, arg := inc } } = .next t) :
    t.HoldsSums (if t.errCode = .ok then adds ++ [(sym, inc)] else adds) := by
  obtain ⟨u, hu, rfl⟩ | ⟨c, x, hc, rfl⟩ := exec_next ht
  · rw [if_pos u.complete_errCode]
    obtain ⟨-, -, hfit, ⟨i, -, hi, hsym, rfl⟩ | ⟨hnew, hroom, rfl⟩⟩ := freqAddBody_eq_ok hu
    · exact (h.raise hi hsym hfit).completeWith (by decide) 0
    · exact (h.append hnew hroom hfit).completeWith (by decide) 0
  · obtain ⟨hne, hraised⟩ := commandBody_raises hc
    rw [State.raiseError_errCode, if_neg hne]
    exact h.completeWith hraised x

end State.HoldsSums

/-- A run of FREQ_ADDs adds the increments of those that succeed. -/
theorem State.HoldsSums.runAdds {pairs adds : List (Half × Word)} {s : State} (h : s.HoldsSums adds) :
    (Machine.runAdds pairs s).2.HoldsSums (adds ++ (Machine.runAdds pairs s).1) := by
  induction pairs generalizing adds s with
  | nil => simpa [Machine.runAdds] using h
  | cons pair rest ih =>
    obtain ⟨sym, inc⟩ := pair
    rw [Machine.runAdds]
    split
    next t ht =>
      have hstep := h.exec_freqAdd ht
      split_ifs at hstep ⊢ with hok
      · simpa using ih hstep
      · exact ih hstep
    next => exact ih h
    next => exact ih h

/-- Settles O18: from the empty table the run has made the table. -/
theorem tableHoldsTheSumsInFirstSeenOrder : Obligations.TableHoldsTheSumsInFirstSeenOrder := by
  intro s pairs h hcount hl
  have hrun := (h.holdsSums_nil hcount hl).runAdds (pairs := pairs)
  exact ⟨hrun.syms, hrun.sums⟩

end Sys2Proof.Machine
end

section
/-! PROOFS of 42_builder.md. The state BUILD leaves, said once. Then the laws of the tree, from the run of merges that made
it: a law about sums goes by induction over the merges, from one collection to the next, and a law about depths or codes
follows the one path to a node. -/

namespace Sys2Proof.Machine

/-! ### What BUILD leaves -/

/-- The state BUILD's pseudocode makes where the table is not empty (42_builder.md R144). -/
def State.afterBuild (s : State) : State :=
  { s with
    node := Memory.setAll Node.blank s.node 0 (buildArena s.ftEntries)
    root := BitVec.ofNat 32 (2 * s.ftCount.toNat - 2)
    nodeCount := BitVec.ofNat 32 (2 * s.ftCount.toNat - 1)
    treeValid := true }

/-- A BUILD that succeeds had a table that is not empty, and leaves its tree. -/
theorem exec_build_ok {s t : State} (h : exec .build s = .next t) (hok : t.errCode = .ok) :
    0 < s.ftCount.toNat ∧ s.ftCount.toNat ≤ s.cfg.nMax ∧ t = s.afterBuild.complete := by
  obtain ⟨u, hu, rfl⟩ | ⟨c, x, hc, rfl⟩ := exec_next h
  · obtain ⟨hpos, hle, -, rfl⟩ := buildBody_eq_ok hu
    exact ⟨hpos, hle, rfl⟩
  · exact absurd hok (commandBody_raises hc).1

theorem ftCount_pos {s : State} (h : s.ftCount ≠ 0) : 0 < s.ftCount.toNat :=
  Nat.pos_of_ne_zero fun hz => h (BitVec.eq_of_toNat_eq hz)

section
variable {s : State} (hle : s.ftCount.toNat ≤ s.cfg.nMax)
include hle

theorem toNat_root_afterBuild : s.afterBuild.root.toNat = 2 * s.ftCount.toNat - 2 :=
  toNat_ofNat32 (by have := nMax_le s.cfg; omega)

theorem toNat_nodeCount_afterBuild : s.afterBuild.nodeCount.toNat = 2 * s.ftCount.toNat - 1 :=
  toNat_ofNat32 (by have := nMax_le s.cfg; omega)

theorem nodeAt_afterBuild (hwf : Memory.wf Node.blank s.node = true) {n : Nat} (hn : n < s.afterBuild.nodeCount.toNat) :
    s.afterBuild.nodeAt n = arenaAt (buildArena s.ftEntries) n :=
  get_built hwf (by rw [length_buildArena, length_ftEntries, ← toNat_nodeCount_afterBuild hle]; exact hn)

end

/-- The nodes from the new NODE_COUNT on stay (log 23). -/
theorem nodeAt_afterBuild_above {s : State} {n : Nat} (hn : 2 * s.ftCount.toNat - 1 ≤ n) :
    s.afterBuild.nodeAt n = s.nodeAt n :=
  get_built_other (by rw [length_buildArena, length_ftEntries]; exact hn)

section
variable {s : State} (h : s.Inv)
include h

theorem State.Inv.buildBody_eq (hpos : 0 < s.ftCount.toNat) : buildBody s = .ok s.afterBuild :=
  buildBody_of_pos hpos h.spec.ftCount_le

theorem State.Inv.exec_build (hpos : 0 < s.ftCount.toNat) : exec .build s = .next s.afterBuild.complete :=
  exec_of_ok (h.buildBody_eq hpos)

theorem State.Inv.afterBuild (hpos : 0 < s.ftCount.toNat) : s.afterBuild.Inv :=
  buildBody_keeps_inv h (h.buildBody_eq hpos)

theorem State.Inv.built_afterBuild (hpos : 0 < s.ftCount.toNat) :
    ∃ Q e1 e2, s.afterBuild.Built s.ftCount.toNat Q e1 e2 :=
  (h.afterBuild hpos).built rfl

/-- With a tree, BUILD writes what is there (42_builder.md R149). -/
theorem State.Inv.afterBuild_eq_self (hv : s.treeValid = true) : s.afterBuild = s := by
  obtain ⟨-, hcount, hroot⟩ := h.spec.tree_counts hv
  have hle := h.spec.ftCount_le
  have hwf := h.memories.node_wf
  have hcount' : s.afterBuild.nodeCount = s.nodeCount :=
    BitVec.eq_of_toNat_eq ((toNat_nodeCount_afterBuild hle).trans hcount.symm)
  have hroot' : s.afterBuild.root = s.root := BitVec.eq_of_toNat_eq ((toNat_root_afterBuild hle).trans hroot.symm)
  have hnode : s.afterBuild.node = s.node := by
    refine Memory.ext_of_wf (Memory.wf_setAll _ _ hwf) hwf fun n => ?_
    by_cases hn : n < s.nodeCount.toNat
    · exact (nodeAt_afterBuild hle hwf (hcount' ▸ hn)).trans (h.tree hv ▸ arenaAt_nodes s hn)
    · exact nodeAt_afterBuild_above (by omega)
  calc s.afterBuild = { s with node := s.afterBuild.node, root := s.afterBuild.root,
                               nodeCount := s.afterBuild.nodeCount, treeValid := true } := rfl
    _ = s := by rw [hnode, hroot', hcount', ← hv]

end

/-! ### The merges -/

/-- The second component of the key puts an internal node before a leaf (42_builder.md R143). -/
theorem kinds_of_kindKey_lt : ∀ {a b : Bool}, (if a then 1 else 0) < (if b then 1 else 0) → a = false ∧ b = true := by
  decide

theorem kind_eq_of_kindKey_eq : ∀ {a b : Bool}, (if a then 1 else 0) = (if b then 1 else 0) → a = b := by decide

namespace State.Built

variable {s : State} {N : Nat} {Q : Nat → List Nat} {e1 e2 : Nat → Nat} (h : s.Built N Q e1 e2)
include h

/-- The key order of R143, on the node memory. -/
theorem precedes {m n : Nat} (hm : m < 2 * N - 1) (hn : n < 2 * N - 1)
    (hlt : keyLt (keyOf s.nodes m) (keyOf s.nodes n) = true) : s.precedes m n := by
  simp only [keyLt_iff, keyOf, h.node m hm, h.node n hn] at hlt
  obtain hfreq | ⟨hfreq, hkey⟩ := hlt
  · exact .inl hfreq
  · exact .inr ⟨BitVec.eq_of_toNat_eq hfreq, hkey.imp kinds_of_kindKey_lt (And.imp_left kind_eq_of_kindKey_eq)⟩

section
variable {k : Nat} (hk : k < N - 1)
include hk

theorem nodeAt_merge : s.nodeAt (N + k) = mergeNode s.nodes (e1 k) (e2 k) := by
  rw [← h.node _ (by omega), h.run.parent k hk]

theorem left_merge : (s.nodeAt (N + k)).left.toNat = e2 k := by
  rw [← h.node _ (by omega), h.run.left_internal hk]

theorem right_merge : (s.nodeAt (N + k)).right.toNat = e1 k := by
  rw [← h.node _ (by omega), h.run.right_internal hk]

theorem freq_merge : (s.nodeAt (N + k)).freq.toNat = (s.nodeAt (e1 k)).freq.toNat + (s.nodeAt (e2 k)).freq.toNat := by
  have h1 := h.run.lt1 hk
  have h2 := h.run.lt2 hk
  rw [← h.node _ (by omega), ← h.node _ (by omega), ← h.node _ (by omega)]
  exact h.run.freq_internal h.total_lt hk

end

/-- An internal node of the memory is the result of one merge. -/
theorem of_internal {n : Nat} (hn : n < 2 * N - 1) (hl : (s.nodeAt n).isLeaf = false) : ∃ k < N - 1, n = N + k :=
  h.run.of_internal hn (by rw [h.node n hn]; exact hl)

end State.Built

/-- Settles O20: the run of merges that BUILD makes, its collections as sets. -/
theorem buildMergesTheTwoLeastNodes : Obligations.BuildMergesTheTwoLeastNodes := by
  intro s h
  refine ⟨fun _ => decodeCmd_eq_command, exec_build_empty, fun hne => ?_⟩
  have hpos := ftCount_pos hne
  have hle := h.spec.ftCount_le
  obtain ⟨Q, e1, e2, hb⟩ := h.built_afterBuild hpos
  refine ⟨_, h.exec_build hpos, rfl, toNat_root_afterBuild hle, toNat_nodeCount_afterBuild hle, hb.leaf,
    fun k => (Q k).toFinset, ?start, ?finish, fun k hk => ?_⟩
  case start => exact (congrArg List.toFinset hb.run.start).trans (List.toFinset_range _)
  case finish => exact congrArg List.toFinset hb.run.last
  have hlt : ∀ n ∈ Q k, n < 2 * s.ftCount.toNat - 1 := fun n hn =>
    (hb.run.bound k (Nat.le_of_lt hk) n hn).trans_le (by omega)
  have hm1 := hb.run.mem1 k hk
  have hm2 := hb.run.mem2 k hk
  refine ⟨e1 k, e2 k, List.mem_toFinset.mpr hm1, List.mem_toFinset.mpr hm2, hb.run.ne k hk, fun n hn h1 => ?_,
    fun n hn h1 h2 => ?_, hb.freq_merge hk, ?_, ?_, hb.left_merge hk, hb.right_merge hk, ?_⟩
  · have hn := List.mem_toFinset.mp hn
    exact hb.precedes (hlt _ hm1) (hlt n hn) (hb.run.least1 k hk n hn h1)
  · have hn := List.mem_toFinset.mp hn
    exact hb.precedes (hlt _ hm2) (hlt n hn) (hb.run.least2 k hk n hn h1 h2)
  · exact congrArg Node.isLeaf (hb.nodeAt_merge hk)
  · exact congrArg Node.sym (hb.nodeAt_merge hk)
  · ext n
    rw [List.mem_toFinset, hb.run.mem_next hk, Finset.mem_insert, Finset.mem_erase, Finset.mem_erase, List.mem_toFinset]
    tauto

/-! ### What BUILD changes -/

/-- While a tree exists no command changes the node memory: BUILD writes what is there, and no other command writes
nodes (42_builder.md R150). -/
theorem exec_keeps_node {i : Instr} {s t : State} (h : s.Inv) (hv : s.treeValid = true) (ht : exec i s = .next t) :
    t.node = s.node := by
  obtain ⟨u, hu, rfl⟩ | ⟨c, x, -, rfl⟩ := exec_next ht
  · rw [State.complete_node]
    cases i with
    | nop => cases hu; rfl
    | clear => cases hu; rfl
    | freqAdd sym => obtain ⟨-, -, -, ⟨_, -, -, -, rfl⟩ | ⟨-, -, rfl⟩⟩ := freqAddBody_eq_ok hu <;> rfl
    | freqRead idx => obtain ⟨-, -, rfl⟩ := freqReadBody_eq_ok hu; rfl
    | build =>
      obtain ⟨-, -, -, rfl⟩ := buildBody_eq_ok hu
      exact congrArg State.node (h.afterBuild_eq_self hv)
    | nodeRead idx => obtain ⟨-, -, -, rfl⟩ := nodeReadBody_eq_ok hu; rfl
    | decClear => cases hu; rfl
    | decPush ch => obtain ⟨-, rfl⟩ := decPushBody_eq_ok hu; rfl
    | decode => obtain ⟨-, -, _, _, -, -, -, -, rfl⟩ := decodeBody_eq_ok hu; rfl
    | decRead idx => obtain ⟨-, -, rfl⟩ := decReadBody_eq_ok hu; rfl
  · cases i <;> rfl

/-- Settles O21. -/
theorem buildWritesOnlyTheTreeAndItStays : Obligations.BuildWritesOnlyTheTreeAndItStays := by
  refine ⟨fun s t h ht hok => ?_, fun i s t => exec_keeps_node⟩
  obtain ⟨hpos, hle, rfl⟩ := exec_build_ok ht hok
  exact ⟨rfl, toNat_root_afterBuild hle, toNat_nodeCount_afterBuild hle, (h.afterBuild hpos).tree rfl,
    fun i hi => nodeAt_afterBuild_above (by omega)⟩

/-- An empty table has no tree, and a table with a tree is not empty (10_state.md R46). -/
theorem State.Inv.treeValid_of_empty {s : State} (h : s.Inv) (hempty : s.ftCount = 0) : s.treeValid = false := by
  by_contra hv
  obtain ⟨hpos, -⟩ := h.spec.tree_counts (by simpa using hv)
  rw [hempty] at hpos
  cases hpos

/-- Settles O22: with a tree the state BUILD makes is the state there is. -/
theorem emptyAndRepeatedBuildChangeNothing : Obligations.EmptyAndRepeatedBuildChangeNothing := by
  refine ⟨fun s h hempty => ?_, fun s h hv => ?_⟩
  · have hv := h.treeValid_of_empty hempty
    obtain ⟨hcount, hroot⟩ := h.spec.no_tree_counts hv
    exact ⟨exec_build_empty hempty, hv, hroot, hcount⟩
  · obtain ⟨hpos, -⟩ := h.spec.tree_counts hv
    rw [h.exec_build hpos, h.afterBuild_eq_self hv]
    rfl

/-- Settles O34: the nodes and the counts BUILD leaves are functions of the table's entries. -/
theorem treeIsAFunctionOfTheTable : Obligations.TreeIsAFunctionOfTheTable := by
  intro s s' t t' hw hw' hentries ht ht' hok hok'
  obtain ⟨-, hle, rfl⟩ := exec_build_ok ht hok
  obtain ⟨-, hle', rfl⟩ := exec_build_ok ht' hok'
  have hcount : s.ftCount.toNat = s'.ftCount.toNat := by
    rw [← length_ftEntries, hentries, length_ftEntries]
  have hnodes : s.afterBuild.nodeCount = s'.afterBuild.nodeCount := by
    rw [State.afterBuild, State.afterBuild, hcount]
  refine ⟨by simp [State.afterBuild, hcount], hnodes, fun n hn => ?_⟩
  exact (nodeAt_afterBuild hle hw.node_wf hn).trans
    (hentries ▸ (nodeAt_afterBuild hle' hw'.node_wf (hnodes ▸ hn)).symm)

theorem IsRun.codeOfLeaf_one {arena : List Node} {Q : Nat → List Nat} {e1 e2 : Nat → Nat}
    (h : IsRun arena 1 Q e1 e2) (root leaf : Nat) : codeOfLeaf arena root leaf = some [false] :=
  if_pos h.length

/-- Settles O23: the run of no merges. -/
theorem oneSymbolGivesAOneLeafTree : Obligations.OneSymbolGivesAOneLeafTree := by
  intro s h hone
  have hN : s.ftCount.toNat = 1 := by rw [hone]; rfl
  obtain ⟨Q, e1, e2, hb⟩ := h.built_afterBuild (by omega)
  rw [hN] at hb
  exact ⟨_, h.exec_build (by omega), rfl, BitVec.eq_of_toNat_eq hb.root, BitVec.eq_of_toNat_eq hb.nodeCount, rfl,
    hb.leaf 0 (by omega), fun i hi => nodeAt_afterBuild_above (by omega), hb.run.codeOfLeaf_one 0 0⟩

/-- Settles O24, by evaluation. -/
theorem workedExampleTree : Obligations.WorkedExampleTree := by
  unfold Obligations.WorkedExampleTree
  decide

/-! ### The shape of the tree -/

namespace State.Built

variable {s : State} {N : Nat} {Q : Nat → List Nat} {e1 e2 : Nat → Nat} (h : s.Built N Q e1 e2)
include h

theorem left_ne_right {n : Nat} (hn : n < 2 * N - 1) (hl : (s.nodeAt n).isLeaf = false) :
    (s.nodeAt n).left ≠ (s.nodeAt n).right := by
  obtain ⟨k, hk, rfl⟩ := h.of_internal hn hl
  intro heq
  exact h.run.ne k hk (by rw [← h.left_merge hk, ← h.right_merge hk, heq])

theorem children_lt {n : Nat} (hn : n < 2 * N - 1) (hl : (s.nodeAt n).isLeaf = false) :
    (s.nodeAt n).left.toNat < n ∧ (s.nodeAt n).right.toNat < n := by
  obtain ⟨k, hk, rfl⟩ := h.of_internal hn hl
  rw [h.left_merge hk, h.right_merge hk]
  exact ⟨h.run.lt2 hk, h.run.lt1 hk⟩

/-- The parents of a node are the results of the merges that extract it. -/
theorem isParentOf_iff {n c : Nat} (hn : n < 2 * N - 1) :
    (s.nodeAt n).isParentOf c ↔ ∃ k < N - 1, n = N + k ∧ (c = e1 k ∨ c = e2 k) := by
  constructor
  · rintro ⟨hl, hc⟩
    obtain ⟨k, hk, rfl⟩ := h.of_internal hn hl
    rw [h.left_merge hk, h.right_merge hk] at hc
    exact ⟨k, hk, rfl, hc.symm.imp Eq.symm Eq.symm⟩
  · rintro ⟨k, hk, rfl, hc⟩
    rw [Node.isParentOf, h.left_merge hk, h.right_merge hk]
    exact ⟨congrArg Node.isLeaf (h.nodeAt_merge hk), hc.symm.imp Eq.symm Eq.symm⟩

theorem exists_one_parent {c : Nat} (hc : c < 2 * N - 1) (hr : c ≠ 2 * N - 2) :
    ∃ n < 2 * N - 1, (s.nodeAt n).isParentOf c ∧ ∀ m < 2 * N - 1, (s.nodeAt m).isParentOf c → m = n := by
  obtain ⟨k, hk, -, hextract⟩ := h.run.exists_merge hc hr
  refine ⟨N + k, by omega, (h.isParentOf_iff (by omega)).mpr ⟨k, hk, rfl, hextract⟩, fun m hm hparent => ?_⟩
  obtain ⟨j, hj, rfl, hj'⟩ := (h.isParentOf_iff hm).mp hparent
  rw [h.run.merge_unique hj hk hj' hextract]

/-- A parent lies above its children, and nothing above the root. -/
theorem not_isParentOf_root {n : Nat} (hn : n < 2 * N - 1) : ¬ (s.nodeAt n).isParentOf (2 * N - 2) := by
  rintro ⟨hl, hc⟩
  obtain ⟨hleft, hright⟩ := h.children_lt hn hl
  omega

end State.Built

/-- Settles O26: each node but the root is extracted by exactly one merge. -/
theorem treeIsStrictlyBinary : Obligations.TreeIsStrictlyBinary := by
  intro s h hv
  obtain ⟨Q, e1, e2, hb⟩ := h.built hv
  have hpos := hb.run.pos
  rw [hb.nodeCount, hb.root]
  refine ⟨⟨hpos, by omega⟩, fun n hn => (hb.isLeaf_iff (by omega)).mpr hn, fun n hle hn => ?_,
    fun n hn hl => ⟨hb.left_ne_right hn hl, hb.children_lt hn hl⟩, fun c => hb.exists_one_parent,
    fun n => hb.not_isParentOf_root⟩
  rw [← Bool.not_eq_true, hb.isLeaf_iff hn]
  omega

/-! ### NODE_READ -/

theorem decodeCmd_eq_nodeRead {w : Word} {idx : Half} :
    decodeCmd w = .command (.nodeRead idx) ↔ w = (0x1100 : Half) ++ idx := by
  rw [decodeCmd_eq_command, ← append_eq_encodeCmd (.nodeRead idx) (c := 0x1100) (by simp [opcodeOf]), operandOf]

theorem exec_nodeRead_noTree {s : State} (idx : Half) (hv : s.treeValid = false) :
    exec (.nodeRead idx) s = .next (s.raiseError .noTree 0) := by
  refine exec_of_raise ?_
  rw [commandBody, nodeReadBody, if_pos hv, raise_def]

section
variable {s : State} {idx : Half} (hv : s.treeValid = true)
include hv

/-- NODE_READ at or past NODE_COUNT. -/
theorem exec_nodeRead_past (hidx : s.nodeCount.toNat ≤ idx.toNat) :
    exec (.nodeRead idx) s = .next (s.raiseError .badIndex (idxOperand idx)) := by
  refine exec_of_raise ?_
  rw [commandBody, nodeReadBody, toNat_idxOperand, if_neg (by simp [hv]), if_pos hidx, raise_def]

/-- NODE_READ of a node. -/
theorem exec_nodeRead_node (hidx : idx.toNat < s.nodeCount.toNat) (hsize : idx.toNat < s.cfg.nodeMax) :
    exec (.nodeRead idx) s = .next { s with
      res0 := (s.nodeAt idx.toNat).freq, res1 := (s.nodeAt idx.toNat).kindWord,
      res2 := (s.nodeAt idx.toNat).childrenWord }.complete := by
  refine exec_of_ok ?_
  rw [commandBody, nodeReadBody, toNat_idxOperand, if_neg (by simp [hv]), if_neg (by omega), readNode_of_lt hsize,
    cmd_bind_ok, cmd_pure]

end

/-- The kind word of a leaf has bit 31 set over the symbol (42_builder.md R152). -/
theorem kindWord_leafOf (e : FtEntry) : (leafOf e).kindWord = 0x80000000 ||| zextHalf e.sym := by
  have hsym := e.sym.isLt
  apply BitVec.eq_of_toNat_eq
  rw [toNat_kindWord, BitVec.toNat_or, toNat_zextHalf]
  exact Nat.two_pow_add_eq_or_of_lt (i := 31) (by omega) 1

theorem childrenWord_leafOf (e : FtEntry) : (leafOf e).childrenWord = 0xFFFFFFFF := by
  have hnil : NIL ++ NIL = (0xFFFFFFFF : Word) := by decide
  exact hnil

theorem kindWord_mergeNode (arena : List Node) (e1 e2 : Nat) : (mergeNode arena e1 e2).kindWord = 0 := by
  apply BitVec.eq_of_toNat_eq
  rw [toNat_kindWord]
  rfl

/-- Settles O25: a node is the leaf of an entry or the result of a merge. -/
theorem nodeReadReturnsTheNode : Obligations.NodeReadReturnsTheNode := by
  intro s idx h
  refine ⟨fun _ => decodeCmd_eq_nodeRead, exec_nodeRead_noTree idx, exec_nodeRead_past, fun hv hidx => ?_⟩
  obtain ⟨Q, e1, e2, hb⟩ := h.built hv
  have hn := hb.nodeCount ▸ hidx
  refine ⟨_, exec_nodeRead_node hv hidx (hidx.trans_le h.nodeCount_le), rfl, rfl, rfl, rfl, fun hl => ?_, fun hl => ?_⟩
  · have hleaf := hb.leaf _ ((hb.isLeaf_iff hn).mp hl)
    rw [State.complete_res1, State.complete_res2, hleaf]
    exact ⟨kindWord_leafOf _, childrenWord_leafOf _⟩
  · refine ⟨?_, hb.children_lt hn hl⟩
    obtain ⟨k, hk, hidx⟩ := hb.of_internal hn hl
    rw [State.complete_res1, hidx, hb.nodeAt_merge hk]
    exact kindWord_mergeNode _ _ _

/-! ### Frequencies -/

/-- With fuel for its depth, the search below a node adds up to the node's frequency (42_builder.md R155). -/
theorem IsRun.subtreeFreq_eq {arena : List Node} {N : Nat} {Q : Nat → List Nat} {e1 e2 : Nat → Nat}
    (h : IsRun arena N Q e1 e2) (ht : ((List.range N).map (freq arena)).sum < 2 ^ 32) :
    ∀ {fuel n : Nat}, n < fuel → n < 2 * N - 1 → subtreeFreq arena fuel n = freq arena n
  | fuel + 1, n, hfuel, hn => by
    rw [subtreeFreq]
    by_cases hl : (arenaAt arena n).isLeaf = true
    · rw [if_pos hl]
    · obtain ⟨k, hk, rfl⟩ := h.of_internal hn (by simpa using hl)
      have h1 := h.lt1 hk
      have h2 := h.lt2 hk
      rw [if_neg hl, h.childOf_false hk, h.childOf_true hk, h.subtreeFreq_eq ht (by omega) (by omega),
        h.subtreeFreq_eq ht (by omega) (by omega), h.freq_internal ht hk, Nat.add_comm]

/-- Settles O27: a merge adds two frequencies without a wrap, and a subtree lies below its node. -/
theorem nodeFrequenciesAreSubtreeSums : Obligations.NodeFrequenciesAreSubtreeSums := by
  intro s h hv n hn
  obtain ⟨Q, e1, e2, hb⟩ := h.built hv
  have hn' := hb.nodeCount ▸ hn
  refine ⟨fun hl => ?_, ?_⟩
  · obtain ⟨k, hk, rfl⟩ := hb.of_internal hn' hl
    rw [hb.left_merge hk, hb.right_merge hk, hb.freq_merge hk, Nat.add_comm]
  · rw [hb.run.subtreeFreq_eq hb.total_lt hn hn', ← hb.node n hn']

theorem State.Inv.freq_root {s : State} (h : s.Inv) (hv : s.treeValid = true) :
    (s.nodeAt s.root.toNat).freq = s.ftTotal := by
  obtain ⟨Q, e1, e2, hb⟩ := h.built hv
  apply BitVec.eq_of_toNat_eq
  rw [hb.root, hb.total, ← hb.run.freq_root hb.total_lt, ← hb.node _ hb.run.root_lt]

/-- Settles O28: every collection has the table's total, so the root alone has it. -/
theorem rootFrequencyIsTheTotal : Obligations.RootFrequencyIsTheTotal := by
  refine ⟨fun _ => State.Inv.freq_root, fun s t h ht hok => ?_⟩
  obtain ⟨hpos, -, rfl⟩ := exec_build_ok ht hok
  exact (h.afterBuild hpos).freq_root rfl

/-! ### The weighted path length -/

/-- The sum of frequency times depth over some nodes of a tree. -/
def pathLengthOf (arena : List Node) (root : Nat) (q : List Nat) : Nat :=
  (q.map (fun n => IsRun.freq arena n * depthOf arena root n)).sum

/-- The sum of the frequencies of m nodes from node n on. -/
def mergedSum (arena : List Node) (n m : Nat) : Nat := ((List.range' n m).map (IsRun.freq arena)).sum

theorem mergedSum_succ (arena : List Node) (n m : Nat) :
    mergedSum arena n (m + 1) = IsRun.freq arena n + mergedSum arena (n + 1) m := by
  rw [mergedSum, List.range'_succ, List.map_cons, List.sum_cons, mergedSum]

namespace IsRun

variable {arena : List Node} {N : Nat} {Q : Nat → List Nat} {e1 e2 : Nat → Nat} (h : IsRun arena N Q e1 e2)
  (ht : ((List.range N).map (freq arena)).sum < 2 ^ 32)
include h ht

/-- A merge brings two nodes up by one level, which takes its own frequency off the path length. -/
theorem pathLengthOf_merge {j : Nat} (hj : j < N - 1) :
    pathLengthOf arena (2 * N - 2) (Q j) = freq arena (N + j) + pathLengthOf arena (2 * N - 2) (Q (j + 1)) := by
  obtain ⟨hd1, hd2⟩ := h.depthOf_child hj
  rw [pathLengthOf, pathLengthOf, h.sum_split hj, h.sum_next hj, hd1, hd2, h.freq_internal ht hj]
  ring

theorem pathLengthOf_collection {m j : Nat} (hj : j + m = N - 1) :
    pathLengthOf arena (2 * N - 2) (Q j) = mergedSum arena (N + j) m := by
  induction m generalizing j with
  | zero =>
    obtain rfl : j = N - 1 := hj
    simp [h.last, pathLengthOf, mergedSum, h.depthOf_root]
  | succ m ih => rw [h.pathLengthOf_merge ht (by omega), ih (by omega), mergedSum_succ, Nat.add_assoc]

theorem weightedPathLength_eq : weightedPathLength arena (2 * N - 2) N = mergedSum arena N (N - 1) := by
  have hsum := h.pathLengthOf_collection ht (Nat.zero_add _)
  rwa [h.start] at hsum

/-- A tree over a collection: its two least leaves can be merged, and the rest is a tree over the next collection. -/
theorem exists_merged_tree {j : Nat} (hj : j < N - 1) {t : FreqTree} (hperm : t.leaves.Perm ((Q j).map (freq arena))) :
    ∃ u : FreqTree, u.leaves.Perm ((Q (j + 1)).map (freq arena)) ∧ u.costAt 0 + freq arena (N + j) ≤ t.costAt 0 := by
  have hnodup := h.nodup j (by omega)
  have hm2 : e2 j ∈ (Q j).erase (e1 j) := hnodup.mem_erase_iff.mpr ⟨(h.ne j hj).symm, h.mem2 j hj⟩
  have hsplit : (Q j).Perm (e1 j :: e2 j :: ((Q j).erase (e1 j)).erase (e2 j)) :=
    (List.perm_cons_erase (h.mem1 j hj)).trans ((List.perm_cons_erase hm2).cons _)
  have hrest : ∀ w ∈ (((Q j).erase (e1 j)).erase (e2 j)).map (freq arena), freq arena (e2 j) ≤ w := by
    intro w hw
    obtain ⟨n, hn, rfl⟩ := List.mem_map.mp hw
    obtain ⟨hn2, hn⟩ := (hnodup.erase _).mem_erase_iff.mp hn
    obtain ⟨hn1, hn⟩ := hnodup.mem_erase_iff.mp hn
    exact (h.le_of_stays hj hn hn1 hn2).2
  obtain ⟨u, hu, hcost⟩ := FreqTree.exists_merge (hperm.trans (hsplit.map _)) (h.le_of_first hj) hrest
  rw [h.next j hj, List.map_append, List.map_singleton, h.freq_internal ht hj]
  exact ⟨u, hu.trans (List.perm_append_singleton _ _).symm, hcost⟩

/-- No tree over a collection costs less than the merges still to come (42_builder.md R157). -/
theorem mergedSum_le_cost {m j : Nat} (hj : j + m = N - 1) {t : FreqTree}
    (hperm : t.leaves.Perm ((Q j).map (freq arena))) : mergedSum arena (N + j) m ≤ t.costAt 0 := by
  induction m generalizing j t with
  | zero => exact Nat.zero_le _
  | succ m ih =>
    obtain ⟨u, hu, hcost⟩ := h.exists_merged_tree ht (by omega) hperm
    have hrest := ih (by omega) hu
    rw [mergedSum_succ, Nat.add_assoc]
    omega

end IsRun

/-- Settles O30: the merges take the whole weighted path length off, node by node. -/
theorem pathLengthIsTheSumOfInternalNodes : Obligations.PathLengthIsTheSumOfInternalNodes := by
  intro s h hv
  obtain ⟨Q, e1, e2, hb⟩ := h.built hv
  rw [hb.root, hb.run.weightedPathLength_eq hb.total_lt]
  refine congrArg List.sum (List.map_congr_left fun n hn => ?_)
  rw [← hb.node n (by rw [List.mem_range'_1] at hn; omega)]

/-- The leaves carry the table's frequencies, in table order (42_builder.md R141). -/
theorem State.Built.map_freq_leaves {s : State} {N : Nat} {Q : Nat → List Nat} {e1 e2 : Nat → Nat}
    (h : s.Built N Q e1 e2) : (List.range N).map (IsRun.freq s.nodes) = s.ftEntries.map (fun e => e.freq.toNat) := by
  rw [State.ftEntries_eq_map, List.map_map, h.ftCount]
  refine List.map_congr_left fun i hi => ?_
  have hi := List.mem_range.mp hi
  rw [IsRun.freq, h.node i (by omega), h.leaf i hi]
  rfl

/-- Settles O29: the path length is the sum of the merges, and no tree over the leaves costs less. -/
theorem treeMinimisesWeightedPathLength : Obligations.TreeMinimisesWeightedPathLength := by
  intro s h hv other hperm
  obtain ⟨Q, e1, e2, hb⟩ := h.built hv
  rw [hb.root, hb.run.weightedPathLength_eq hb.total_lt]
  refine hb.run.mergedSum_le_cost hb.total_lt (Nat.zero_add _) ?_
  rw [hb.run.start, hb.map_freq_leaves]
  exact hperm

/-! ### Depths -/

namespace IsRun

variable {arena : List Node} {N : Nat} {Q : Nat → List Nat} {e1 e2 : Nat → Nat} (h : IsRun arena N Q e1 e2)
  (ht : ((List.range N).map (freq arena)).sum < 2 ^ 32)
include h

theorem depthOf_extracted {c k : Nat} (hk : k < N - 1) (hc : c = e1 k ∨ c = e2 k) :
    depthOf arena (2 * N - 2) c = depthOf arena (2 * N - 2) (N + k) + 1 := by
  obtain ⟨h1, h2⟩ := h.depthOf_child hk
  rcases hc with rfl | rfl
  · exact h1
  · exact h2

include ht

theorem keyLt_of_made_later {j k : Nat} (hjk : j < k) (hk : k < N - 1) :
    keyLt (keyOf arena (N + j)) (keyOf arena (N + k)) = true := by
  induction k, hjk using Nat.le_induction with
  | base => exact h.keyLt_internal ht hk
  | succ k _ ih => exact keyLt_trans (ih (by omega)) (h.keyLt_internal ht hk)

/-- A node made later does not lie deeper: it is extracted by the same merge or a later one, and so the parents, of which
the same holds, come in the same order. -/
theorem depthOf_antitone {j k : Nat} (hjk : j ≤ k) (hk : k < N - 1) :
    depthOf arena (2 * N - 2) (N + k) ≤ depthOf arena (2 * N - 2) (N + j) := by
  induction hd : N - 1 - j using Nat.strongRecOn generalizing j k with
  | _ d ih =>
    obtain rfl | hlt := hjk.eq_or_lt
    · exact le_rfl
    by_cases hr : N + k = 2 * N - 2
    · rw [hr, h.depthOf_root]
      exact Nat.zero_le _
    · obtain ⟨j', hj', hjj', hextj⟩ := h.exists_merge (c := N + j) (by omega) (by omega)
      obtain ⟨k', hk', hkk', hextk⟩ := h.exists_merge (c := N + k) (by omega) hr
      have horder : j' ≤ k' := by
        by_contra hc
        exact keyLt_asymm (h.keyLt_of_made_later ht hlt hk)
          (h.keyLt_of_later hj' hextk hextj (by omega) (by omega))
      have hparents := ih (N - 1 - j') (by omega) horder hk' rfl
      rw [h.depthOf_extracted hj' hextj, h.depthOf_extracted hk' hextk]
      omega

/-- A less frequent leaf is extracted first, and lies no higher (42_builder.md R159). -/
theorem depthOf_le_of_freq_lt {i j : Nat} (hi : i < N) (hj : j < N) (hlt : freq arena i < freq arena j) :
    depthOf arena (2 * N - 2) j ≤ depthOf arena (2 * N - 2) i := by
  have hne : i ≠ j := fun hc => Nat.ne_of_lt hlt (hc ▸ rfl)
  obtain ⟨a, ha, -, hexti⟩ := h.exists_merge (c := i) (by omega) (by omega)
  obtain ⟨b, hb, -, hextj⟩ := h.exists_merge (c := j) (by omega) (by omega)
  have horder : a ≤ b := by
    by_contra hc
    have hkey := keyLt_iff.mp (h.keyLt_of_later ha hextj hexti (by omega) (by omega))
    simp only [keyOf, freq] at hkey hlt
    omega
  rw [h.depthOf_extracted ha hexti, h.depthOf_extracted hb hextj]
  exact Nat.succ_le_succ (h.depthOf_antitone ht horder hb)

end IsRun

/-- Settles O31: merges take the least nodes, so they go from the deepest level up. -/
theorem codeLengthsAreMonotone : Obligations.CodeLengthsAreMonotone := by
  intro s h hv i hi j hj hlt
  obtain ⟨Q, e1, e2, hb⟩ := h.built hv
  have hfreq : ∀ l < s.ftCount.toNat, IsRun.freq s.nodes l = (s.ftAt l).freq.toNat := fun l hl => by
    rw [IsRun.freq, hb.node l (by omega), hb.leaf l hl]
    rfl
  rw [hb.root]
  exact hb.run.depthOf_le_of_freq_lt hb.total_lt hi hj (by rw [hfreq i hi, hfreq j hj]; exact hlt)

/-! ### Codes -/

namespace State.Built

variable {s : State} {N : Nat} {Q : Nat → List Nat} {e1 e2 : Nat → Nat} (h : s.Built N Q e1 e2)
include h

/-- The symbol of a leaf is the table's (42_builder.md R141). -/
theorem sym_leaf {l : Nat} (hl : l < N) : (arenaAt s.nodes l).sym = (s.ftAt l).sym := by
  rw [h.node l (by omega), h.leaf l hl]
  rfl

theorem codeOfSym_leaf (root : Nat) {l : Nat} (hl : l < N) :
    codeOfSym s.nodes root (s.ftAt l).sym = codeOfLeaf s.nodes root l := by
  rw [codeOfSym, ← h.sym_leaf hl, h.run.leafOfSym_eq h.distinct hl]

theorem codeOfSym_none (root : Nat) {sym : Half} (hs : ∀ l < N, (s.ftAt l).sym ≠ sym) :
    codeOfSym s.nodes root sym = none := by
  rw [codeOfSym, h.run.leafOfSym_none fun l hl => h.sym_leaf hl ▸ hs l hl]

end State.Built

/-- Settles O32: with one leaf the code is fixed, and with more it is the one path. -/
theorem everyLeafHasItsCode : Obligations.EveryLeafHasItsCode := by
  intro s h hv
  obtain ⟨Q, e1, e2, hb⟩ := h.built hv
  refine ⟨fun l hl => ?_, fun sym hs => hb.codeOfSym_none _ hs⟩
  have hone : s.nodeCount = 1 ↔ s.ftCount.toNat = 1 := by
    rw [← BitVec.toNat_inj, hb.nodeCount, show (1 : Word).toNat = 1 from rfl]
    omega
  rw [hb.codeOfSym_leaf _ hl, hb.root]
  by_cases hN : s.ftCount.toNat = 1
  · rw [hN] at hb
    exact ⟨[false], hb.run.codeOfLeaf_one _ _, by simp, hb.run.codeOfLeaf_one _ _, fun _ => rfl,
      fun hc => absurd (hone.mpr hN) hc⟩
  · have h2 : 2 ≤ s.ftCount.toNat := by omega
    obtain ⟨p, hp⟩ := hb.run.exists_path (c := l) (by omega)
    have hcode := (hb.run.codeOfLeaf_eq h2).mpr hp
    exact ⟨p, hcode, hb.run.path_ne_nil h2 hl hp, hcode, fun hc => absurd (hone.mp hc) hN,
      fun _ => ⟨hp, (hb.run.depthOf_eq hp).symm, fun q hq => hb.run.path_unique hq hp⟩⟩

/-- Settles O33: a code that goes on from another leaf's would go on past that leaf. -/
theorem codesArePrefixFree : Obligations.CodesArePrefixFree := by
  intro s h hv l hl m hm hne c d hc hd hcd
  obtain ⟨Q, e1, e2, hb⟩ := h.built hv
  have h2 : 2 ≤ s.ftCount.toNat := by omega
  rw [hb.root, hb.run.codeOfLeaf_eq h2] at hc hd
  obtain ⟨q, rfl⟩ := hcd
  obtain rfl : q = [] := follow_past_leaf hc (hb.run.leaf l hl) hd
  rw [List.append_nil, hc] at hd
  exact hne (Option.some.inj hd)

end Sys2Proof.Machine
end

section
/-! PROOFS of 43_decoder.md. The buffer commands, each case on the state the command starts in. Then DECODE: its outcome
follows from what the walk answers, so each law of DECODE is a law of the walk over a built tree. -/

namespace Sys2Proof.Machine

/-! ### DEC_CLEAR, DEC_PUSH and DEC_READ -/

/-- Settles O35: DEC_CLEAR has no check to fail, and its word is the encoder's. -/
theorem decClearEmptiesTheBuffers : Obligations.DecClearEmptiesTheBuffers :=
  ⟨fun s => exec_of_ok (i := .decClear) (s := s) rfl, fun _ => decodeCmd_eq_command⟩

theorem decodeCmd_eq_decPush {w : Word} {ch : Half} :
    decodeCmd w = .command (.decPush ch) ↔ w = (0x2100 : Half) ++ ch := by
  rw [decodeCmd_eq_command, ← append_eq_encodeCmd (.decPush ch) (c := 0x2100) (by simp [opcodeOf]), operandOf]

/-- DEC_PUSH onto a full bit-string. -/
theorem exec_decPush_full {s : State} {ch : Half} (h : s.binLen.toNat = s.cfg.lMax) :
    exec (.decPush ch) s = .next (s.raiseError .bufferFull (zextHalf ch)) := by
  refine exec_of_raise ?_
  rw [commandBody, decPushBody, if_pos h, raise_def]

/-- DEC_PUSH where there is room. -/
theorem exec_decPush_room {s : State} {ch : Half} (h : s.binLen.toNat < s.cfg.lMax) :
    exec (.decPush ch) s = .next { s with
      bin := Memory.set blankHalf s.bin s.binLen.toNat ch, binLen := s.binLen + 1 }.complete := by
  refine exec_of_ok ?_
  rw [commandBody, decPushBody, if_neg (by omega), writeBin_of_lt h, cmd_bind_ok, cmd_pure]

/-- Settles O36: by the invariant a bit-string that is not full has room. -/
theorem decPushAppendsTheCharacter : Obligations.DecPushAppendsTheCharacter := by
  refine fun s ch h => ⟨fun _ => decodeCmd_eq_decPush, exec_decPush_full, fun hne => ?_⟩
  have hroom : s.binLen.toNat < s.cfg.lMax := Nat.lt_of_le_of_ne h.spec.binLen_le hne
  have hmax := lMax_le s.cfg
  exact ⟨_, exec_decPush_room hroom, rfl, toNat_add_of_lt (b := 1) (by simp; omega),
    Memory.get_set_same h.memories.bin_wf _ _, fun j hj => Memory.get_set_other _ hj _ _⟩

theorem decodeCmd_eq_decRead {w : Word} {idx : Half} :
    decodeCmd w = .command (.decRead idx) ↔ w = (0x2300 : Half) ++ idx := by
  rw [decodeCmd_eq_command, ← append_eq_encodeCmd (.decRead idx) (c := 0x2300) (by simp [opcodeOf]), operandOf]

/-- DEC_READ at or past SOUT_LEN. -/
theorem exec_decRead_past {s : State} {idx : Half} (h : s.soutLen.toNat ≤ idx.toNat) :
    exec (.decRead idx) s = .next (s.raiseError .badIndex (idxOperand idx)) := by
  refine exec_of_raise ?_
  rw [commandBody, decReadBody, toNat_idxOperand, if_pos h, raise_def]

/-- DEC_READ of a symbol. -/
theorem exec_decRead_symbol {s : State} {idx : Half} (hidx : idx.toNat < s.soutLen.toNat)
    (hsize : idx.toNat < s.cfg.lMax) :
    exec (.decRead idx) s = .next { s with res0 := zextHalf (s.soutAt idx.toNat) }.complete := by
  refine exec_of_ok ?_
  rw [commandBody, decReadBody, toNat_idxOperand, if_neg (by omega), readSout_of_lt hsize, cmd_bind_ok, cmd_pure]

/-- Settles O43: below SOUT_LEN the symbol exists, by the invariant. -/
theorem decReadReturnsTheSymbol : Obligations.DecReadReturnsTheSymbol := fun _ _ h =>
  ⟨fun _ => decodeCmd_eq_decRead, exec_decRead_past,
    fun hidx => exec_decRead_symbol hidx (Nat.lt_of_lt_of_le hidx h.spec.soutLen_le)⟩

/-! ### The text DECODE leaves -/

/-- A text in `SOUT`, with a number of trailing bits: what a DECODE that succeeds leaves (43_decoder.md R174). -/
def State.withText (s : State) (text : List Half) (trail : Nat) : State :=
  { s with
    sout := Memory.setAll blankHalf s.sout 0 text
    soutLen := BitVec.ofNat 32 text.length
    decTrail := BitVec.ofNat 32 trail }

theorem soutSyms_complete (s : State) : s.complete.soutSyms = s.soutSyms := rfl

section
variable {s : State} {text : List Half} (trail : Nat)

theorem toNat_soutLen_withText (hfit : text.length ≤ s.cfg.lMax) :
    (s.withText text trail).soutLen.toNat = text.length :=
  toNat_ofNat32 (by have := lMax_le s.cfg; omega)

theorem soutSyms_withText (hwf : Memory.wf blankHalf s.sout = true) (hfit : text.length ≤ s.cfg.lMax) :
    (s.withText text trail).soutSyms = text := by
  rw [State.soutSyms, toNat_soutLen_withText trail hfit]
  exact Memory.slice_setAll text hwf

theorem soutAt_withText {j : Nat} (hj : text.length ≤ j) : (s.withText text trail).soutAt j = s.soutAt j :=
  Memory.get_setAll_other _ _ _ 0 j (.inr (by omega))

end

/-! ### DECODE by what its walk answers -/

theorem exec_decode_noTree {s : State} (hv : s.treeValid = false) :
    exec .decode s = .next (s.withoutText.raiseError .noTree 0) := by
  refine exec_of_raise (i := .decode) ?_
  rw [commandBody, decodeBody, if_pos hv, raise_def]

/-- A walk that emits a text, or that has no bits to read. -/
theorem decodeBody_of_walk {s : State} {bits : List Bool} {w : Walk} (hl : s.binLen.toNat ≤ s.cfg.lMax)
    (hv : s.treeValid = true) (hbits : s.binChars = bits.map charOfBit)
    (hwalk : walkFrom s 0 bits s.walkStart = .ok w) (hne : ¬ (0 < bits.length ∧ w.out.length = 0))
    (hfit : w.out.length ≤ s.cfg.lMax) : decodeBody s = .ok (s.withText w.out (bits.length - w.last)) := by
  rw [decodeBody_of_bits hl hv hbits, hwalk, cmd_bind_ok, if_neg hne, writeSout_of_le hfit, cmd_bind_ok, cmd_pure]
  rfl

section
variable {s : State} {bits : List Bool} (h : s.Inv) (hv : s.treeValid = true)
  (hbits : s.binChars = bits.map charOfBit)
include h hbits

/-- The text is no longer than the bit-string, so it fits `SOUT`. -/
theorem length_out_le {w : Walk} (hwalk : walkFrom s 0 bits s.walkStart = .ok w) : w.out.length ≤ s.cfg.lMax := by
  obtain ⟨hout, hlast⟩ := walkFrom_bounds hwalk (Nat.le_refl _) (Nat.le_refl _)
  have hlen := length_bits hbits
  have hle := h.spec.binLen_le
  omega

include hv

theorem exec_decode_text {w : Walk} {trail : Nat} (hwalk : walkFrom s 0 bits s.walkStart = .ok w)
    (hne : ¬ (bits ≠ [] ∧ w.out = [])) (htrail : bits.length - w.last = trail) :
    exec .decode s = .next (s.withText w.out trail).complete :=
  htrail ▸ exec_of_ok (decodeBody_of_walk h.spec.binLen_le hv hbits hwalk
    (by rwa [List.length_pos_iff, List.length_eq_zero_iff]) (length_out_le h hbits hwalk))

theorem exec_decode_noSymbol {w : Walk} (hwalk : walkFrom s 0 bits s.walkStart = .ok w) (hne : bits ≠ [])
    (hout : w.out = []) : exec .decode s = .next (s.withoutText.raiseError .undecodableSequence s.binLen) := by
  refine exec_of_raise (i := .decode) ?_
  rw [commandBody, decodeBody_of_bits h.spec.binLen_le hv hbits, hwalk, cmd_bind_ok,
    if_pos ⟨List.length_pos_iff.mpr hne, List.length_eq_zero_iff.mpr hout⟩, raise_def, length_bits hbits,
    BitVec.ofNat_toNat, BitVec.setWidth_eq]

theorem exec_decode_walkStops {c : ErrCode} {x : Word} (hwalk : walkFrom s 0 bits s.walkStart = .error (.error c x)) :
    exec .decode s = .next (s.withoutText.raiseError c x) := by
  refine exec_of_raise (i := .decode) ?_
  rw [commandBody, decodeBody_of_bits h.spec.binLen_le hv hbits, hwalk, cmd_bind_error]

end

/-! ### Failures -/

theorem exec_decode_malformed {s : State} (h : s.Inv) (hv : s.treeValid = true) {j : Nat} (hj : j < s.binLen.toNat)
    (hbad : bitval (s.binAt j) = none) (hgood : ∀ k < j, bitval (s.binAt k) ≠ none) :
    exec .decode s = .next (s.withoutText.raiseError .malformedBitstring (BitVec.ofNat 32 j)) :=
  exec_of_raise (i := .decode) (decodeBody_of_malformed h.spec.binLen_le hv hj hbad hgood)

/-- Settles O37: the whole bit-string is validated before the walk. -/
theorem decodeChecksTreeThenCharacters : Obligations.DecodeChecksTreeThenCharacters := by
  refine fun s h => ⟨fun _ => decodeCmd_eq_command, exec_decode_noTree, fun hv j hj hzero hone hgood => ?_⟩
  refine exec_decode_malformed h hv hj (bitval_eq_none.mpr ⟨hzero, hone⟩) fun k hk hnone => ?_
  obtain ⟨hzero, hone⟩ := bitval_eq_none.mp hnone
  exact (hgood k hk).elim hzero hone

/-- Settles O40: a failure completes the state without its text. -/
theorem failedDecodeReturnsNoText : Obligations.FailedDecodeReturnsNoText := by
  intro s t ht hfail
  obtain ⟨u, -, rfl⟩ | ⟨c, x, -, rfl⟩ := exec_next ht
  · exact absurd rfl hfail
  · rfl

/-! ### Two leaves or more -/

/-- Settles O38, from the walk over a tree of two leaves or more. -/
theorem decodeReadsWholeCodes : Obligations.DecodeReadsWholeCodes := by
  intro s bits h hv h2 hbits
  obtain ⟨Q, e1, e2, hb⟩ := h.built hv
  obtain ⟨w, _, codes, rest, hwalk, hsplit, hcodes, hrest, hcur, hleaf, rfl, hlast⟩ := hb.walk_root h2 bits
  rw [hb.node _ hcur] at hleaf
  rw [← hb.root] at hcodes hrest
  refine ⟨w.out, codes, rest, w.cur, hsplit, hcodes, hrest, hleaf,
    fun ⟨hne, hout⟩ => exec_decode_noSymbol h hv hbits hwalk hne hout, fun hne => ?_⟩
  have hfit := length_out_le h hbits hwalk
  have htrail : bits.length - w.last = rest.length := by rw [hlast, hsplit, List.length_append]; omega
  have hlen := length_bits hbits
  have hword := s.binLen.isLt
  exact ⟨_, exec_decode_text h hv hbits hwalk hne htrail, rfl, toNat_soutLen_withText rest.length hfit,
    soutSyms_withText rest.length h.memories.sout_wf hfit,
    toNat_ofNat32 (by omega), fun j hj => soutAt_withText rest.length hj⟩

/-! ### The one-leaf tree -/

theorem eq_replicate_false {bits : List Bool} (h : true ∉ bits) : bits = List.replicate bits.length false :=
  List.eq_replicate_iff.mpr ⟨rfl, fun b hb => by cases b with | false => rfl | true => exact absurd hb h⟩

section
variable {s : State} (h : s.Inv) (hv : s.treeValid = true) (hone : s.ftCount = 1)
include h hv hone

theorem State.Inv.built_one : ∃ Q e1 e2, s.Built 1 Q e1 e2 := by
  have hN : s.ftCount.toNat = 1 := by rw [hone]; rfl
  exact hN ▸ h.built hv

theorem exec_decode_zeros {bits : List Bool} (hbits : s.binChars = bits.map charOfBit) (hzero : true ∉ bits) :
    exec .decode s = .next (s.withText (List.replicate bits.length (s.ftAt 0).sym) 0).complete := by
  obtain ⟨Q, e1, e2, hb⟩ := h.built_one hv hone
  have hwalk := hb.walk_zeros bits.length 0 s.walkStart hb.root
  rw [← eq_replicate_false hzero, hb.leaf 0 Nat.one_pos] at hwalk
  exact exec_decode_text h hv hbits hwalk (by simp [State.walkStart]) (by simp only; split <;> omega)

theorem exec_decode_firstOne {zeros rest : List Bool} (hbits : s.binChars = (zeros ++ true :: rest).map charOfBit)
    (hzero : true ∉ zeros) :
    exec .decode s = .next (s.withoutText.raiseError .undecodableSequence (BitVec.ofNat 32 zeros.length)) := by
  obtain ⟨Q, e1, e2, hb⟩ := h.built_one hv hone
  have hwalk := hb.walk_one rest zeros.length 0 s.walkStart hb.root
  rw [← eq_replicate_false hzero, Nat.zero_add] at hwalk
  exact exec_decode_walkStops h hv hbits hwalk

end

/-- Settles O39: the walk in the one-leaf tree, without a '1' and up to the first one. -/
theorem oneLeafTreeDecodesZeros : Obligations.OneLeafTreeDecodesZeros := by
  refine fun s bits h hv hone hbits => ⟨fun hzero => ?_, fun j hj hbit hbefore => ?_⟩
  · have hlen := length_bits hbits
    have hle := h.spec.binLen_le
    have hfit : (List.replicate bits.length (s.ftAt 0).sym).length ≤ s.cfg.lMax := by simp; omega
    refine ⟨_, exec_decode_zeros h hv hone hbits hzero, rfl, ?_, soutSyms_withText 0 h.memories.sout_wf hfit,
      fun j hj => soutAt_withText 0 (by simpa using hj)⟩
    apply BitVec.eq_of_toNat_eq
    rw [State.complete_soutLen, toNat_soutLen_withText 0 hfit, List.length_replicate, hlen]
  · have hsplit : bits = bits.take j ++ true :: bits.drop (j + 1) := by
      rw [List.getElem?_eq_getElem hj, Option.some.injEq] at hbit
      rw [← hbit, List.getElem_cons_drop, List.take_append_drop]
    have hzero : true ∉ bits.take j := by
      intro hmem
      obtain ⟨k, hk, htrue⟩ := List.mem_take_iff_getElem.mp hmem
      have hfalse := hbefore k (by omega)
      rw [List.getElem?_eq_getElem (by omega), htrue] at hfalse
      cases hfalse
    have hexec := exec_decode_firstOne h hv hone (hsplit ▸ hbits) hzero
    rwa [List.length_take_of_le (Nat.le_of_lt hj)] at hexec

/-! ### Decoding the encoding -/

theorem walkFrom_append (s : State) (p q : List Bool) :
    ∀ (j : Nat) (w : Walk), walkFrom s j (p ++ q) w = walkFrom s j p w >>= walkFrom s (j + p.length) q := by
  induction p with
  | nil => exact fun _ _ => rfl
  | cons b p ih =>
    intro j w
    rw [List.cons_append, walkFrom, walkFrom]
    cases walkBit s j b w with
    | error e => rfl
    | ok w' => rw [cmd_bind_ok, cmd_bind_ok, ih, List.length_cons, Nat.add_right_comm, Nat.add_assoc]

namespace State.Built

variable {s : State} {N : Nat} {Q : Nat → List Nat} {e1 e2 : Nat → Nat} (h : s.Built N Q e1 e2)
include h

/-- A path down to a leaf emits the leaf's symbol at its last bit, and leads back to the root (43_decoder.md R175). -/
theorem walk_path {l : Nat} (hl : l < N) {p : List Bool} {cur : Nat} (j : Nat) (out : List Half) (last : Nat)
    (hne : p ≠ []) (hcur : cur < 2 * N - 1) (hp : follow s.nodes cur p = some l) :
    walkFrom s j p ⟨cur, out, last⟩ = .ok ⟨2 * N - 2, out ++ [(arenaAt s.nodes l).sym], j + p.length⟩ := by
  induction p generalizing cur j with
  | nil => exact absurd rfl hne
  | cons b p ih =>
    obtain ⟨hi, hp⟩ := follow_cons.mp hp
    have hlt := h.run.child_lt hcur hi b
    rw [walkFrom, h.walkBit_internal j b hcur hi, cmd_bind_ok]
    by_cases hc : childOf s.nodes cur b < N
    · obtain rfl : p = [] := follow_past_leaf (p := []) rfl (h.run.leaf _ hc) hp
      obtain rfl : childOf s.nodes cur b = l := Option.some.inj hp
      rw [if_pos hc]
      rfl
    · have hne : p ≠ [] := by
        rintro rfl
        obtain rfl : childOf s.nodes cur b = l := Option.some.inj hp
        exact hc hl
      rw [if_neg hc, ih (j + 1) hne (by omega) hp, List.length_cons, Nat.add_right_comm, Nat.add_assoc]

/-- A leaf's code, read from the root, emits the leaf's symbol and leads back to the root, with one leaf and with
more. -/
theorem walk_code {l : Nat} (hl : l < N) {c : List Bool} (hc : codeOfLeaf s.nodes (2 * N - 2) l = some c) (j : Nat)
    (out : List Half) (last : Nat) :
    walkFrom s j c ⟨2 * N - 2, out, last⟩ = .ok ⟨2 * N - 2, out ++ [(s.ftAt l).sym], j + c.length⟩ := by
  by_cases hN : N = 1
  · subst hN
    obtain rfl : l = 0 := by omega
    obtain rfl : [false] = c := Option.some.inj ((h.run.codeOfLeaf_one _ _).symm.trans hc)
    have hzero := h.walk_zeros 1 j ⟨0, out, last⟩ rfl
    rw [h.leaf 0 hl] at hzero
    exact hzero
  · have h2 : 2 ≤ N := by omega
    have hp := (h.run.codeOfLeaf_eq h2).mp hc
    rw [← h.sym_leaf hl]
    exact h.walk_path hl j out last (h.run.path_ne_nil h2 hl hp) h.run.root_lt hp

end State.Built

/-- A text over the table's symbols has an encoding, and the walk over it emits the text and leaves no bit over
(42_builder.md R161, 43_decoder.md R179). -/
theorem State.Inv.exists_encoding {s : State} (h : s.Inv) (hv : s.treeValid = true) {text : List Half}
    (htext : ∀ x ∈ text, ∃ i < s.ftCount.toNat, (s.ftAt i).sym = x) :
    ∃ bits, encodeSyms s.nodes s.root.toNat text = some bits ∧ ∀ (j : Nat) (out : List Half),
      walkFrom s j bits ⟨s.root.toNat, out, j⟩ = .ok ⟨s.root.toNat, out ++ text, j + bits.length⟩ := by
  induction text with
  | nil => exact ⟨[], rfl, fun j out => by rw [List.append_nil]; rfl⟩
  | cons x xs ih =>
    obtain ⟨l, hl, rfl⟩ := htext _ List.mem_cons_self
    obtain ⟨r, hr, hwalk⟩ := ih fun y hy => htext y (List.mem_cons_of_mem _ hy)
    obtain ⟨hcodes, -⟩ := everyLeafHasItsCode s h hv
    obtain ⟨c, hc, -, hsym, -⟩ := hcodes l hl
    obtain ⟨Q, e1, e2, hb⟩ := h.built hv
    refine ⟨c ++ r, by rw [encodeSyms, hsym, hr], fun j out => ?_⟩
    have hcode := hb.walk_code hl (hb.root ▸ hc) j out j
    rw [← hb.root] at hcode
    rw [walkFrom_append, hcode, cmd_bind_ok, hwalk, List.append_assoc, List.singleton_append, List.length_append,
      Nat.add_assoc]

/-- Settles O41: the walk over the encoding emits the text, and the text is empty only where the encoding is. -/
theorem decodeInvertsTheEncoding : Obligations.DecodeInvertsTheEncoding := by
  intro s text h hv htext
  obtain ⟨bits, henc, hwalk⟩ := h.exists_encoding hv htext
  refine ⟨bits, henc, fun hbits => ?_⟩
  have hstart : walkFrom s 0 bits s.walkStart = .ok ⟨s.root.toNat, text, bits.length⟩ := by
    rw [State.walkStart, hwalk, List.nil_append, Nat.zero_add]
  have hne : ¬ (bits ≠ [] ∧ text = []) := by
    rintro ⟨hne, rfl⟩
    exact hne (Option.some.inj henc).symm
  have hfit : text.length ≤ s.cfg.lMax := length_out_le h hbits hstart
  exact ⟨_, exec_decode_text h hv hbits hstart hne (Nat.sub_self _), rfl, toNat_soutLen_withText 0 hfit,
    soutSyms_withText 0 h.memories.sout_wf hfit, rfl⟩

/-! ### The causes of UNDECODABLE_SEQUENCE -/

theorem walkBit_missingChild {s : State} (j : Nat) {b : Bool} {w : Walk} (hcur : w.cur < s.cfg.nodeMax)
    (hi : (s.nodeAt w.cur).isLeaf = false)
    (hnil : (if b then (s.nodeAt w.cur).right else (s.nodeAt w.cur).left) = NIL) :
    walkBit s j b w = .error (.error .undecodableSequence (BitVec.ofNat 32 j)) := by
  rw [walkBit, readNode_of_lt hcur, cmd_bind_ok, if_neg (by simp [hi])]
  exact if_pos hnil

theorem charOfBit_injective : Function.Injective charOfBit := by
  intro b c hbc
  have hval := congrArg bitval hbc
  rwa [bitval_charOfBit, bitval_charOfBit, Option.some.injEq] at hval

/-- A DECODE with a tree that fails with UNDECODABLE_SEQUENCE has passed validation. -/
theorem exists_bits_of_undecodable {s t : State} (h : s.Inv) (hv : s.treeValid = true) (ht : exec .decode s = .next t)
    (hcode : t.errCode = .undecodableSequence) : ∃ bits : List Bool, s.binChars = bits.map charOfBit := by
  by_contra hbits
  obtain ⟨j, hj, hbad, hgood⟩ := exists_first_malformed hbits
  rw [getElem_binChars] at hbad
  have hgood' : ∀ k < j, bitval (s.binAt k) ≠ none := fun k hk => getElem_binChars s k (by omega) ▸ hgood k hk
  cases ht.symm.trans (exec_decode_malformed h hv (length_binChars s ▸ hj) hbad hgood')
  cases hcode

theorem binAt_of_bits {s : State} {bits : List Bool} (hbits : s.binChars = bits.map charOfBit) {k : Nat} {b : Bool}
    (hk : bits[k]? = some b) : s.binAt k = charOfBit b := by
  have hget : s.binChars[k]? = some (charOfBit b) := by rw [hbits, List.getElem?_map, hk]; rfl
  obtain ⟨hlt, hget⟩ := List.getElem?_eq_some_iff.mp hget
  exact (getElem_binChars s k hlt).symm.trans hget

section
variable {s t : State} {bits : List Bool} (h : s.Inv) (hv : s.treeValid = true)
  (hbits : s.binChars = bits.map charOfBit) (ht : exec .decode s = .next t) (hcode : t.errCode = .undecodableSequence)
include h hv hbits ht hcode

/-- In the one-leaf tree the cause is the first '1' (43_decoder.md R180, cause 2). -/
theorem undecodable_of_one_leaf (hone : s.ftCount = 1) :
    t.errInfo.toNat < s.binLen.toNat ∧ s.binAt t.errInfo.toNat = 0x0031 ∧
      ∀ k < t.errInfo.toNat, s.binAt k = 0x0030 := by
  by_cases hmem : true ∈ bits
  · obtain ⟨zeros, rest, rfl, hzero⟩ := List.eq_append_cons_of_mem hmem
    cases ht.symm.trans (exec_decode_firstOne h hv hone hbits hzero)
    have hlen := length_bits hbits
    have hword := s.binLen.isLt
    rw [List.length_append, List.length_cons] at hlen
    have hinfo : (BitVec.ofNat 32 zeros.length).toNat = zeros.length := toNat_ofNat32 (by omega)
    rw [State.raiseError_errInfo, hinfo]
    refine ⟨by omega, binAt_of_bits (b := true) hbits (by simp), fun k hk => binAt_of_bits (b := false) hbits ?_⟩
    rw [List.getElem?_append_left hk, eq_replicate_false hzero, List.getElem?_replicate_of_lt hk]
  · cases ht.symm.trans (exec_decode_zeros h hv hone hbits hmem)
    cases hcode

/-- With two leaves or more the cause is that no part of the bit-string, read from its start, leads to a leaf
(43_decoder.md R180, cause 3). -/
theorem undecodable_of_more_leaves (h2 : 2 ≤ s.ftCount.toNat) :
    bits ≠ [] ∧ t.errInfo = s.binLen ∧ ∀ (used rest : List Bool), bits = used ++ rest →
      ∀ n, follow s.nodes s.root.toNat used = some n → (s.nodeAt n).isLeaf = false := by
  obtain ⟨syms, codes, path, m, hsplit, hcodes, hpath, hm, hfail, hok⟩ := decodeReadsWholeCodes s bits h hv h2 hbits
  by_cases hne : bits ≠ [] ∧ syms = []
  · cases ht.symm.trans (hfail hne)
    obtain ⟨hne, rfl⟩ := hne
    obtain rfl : [] = codes := Option.some.inj hcodes
    refine ⟨hne, rfl, fun used rest hused n hn => ?_⟩
    rw [← Bool.not_eq_true]
    intro hl
    obtain ⟨Q, e1, e2, hb⟩ := h.built hv
    have hle := hb.run.follow_le hb.run.root_lt (hb.root ▸ hn)
    have hlt := hb.run.root_lt
    obtain rfl : path = used ++ rest := hsplit.symm.trans hused
    obtain rfl : rest = [] := follow_past_leaf hn (by rw [hb.node n (by omega)]; exact hl) hpath
    obtain rfl : m = n := Option.some.inj (hpath.symm.trans (by rw [List.append_nil]; exact hn))
    cases hm.symm.trans hl
  · obtain ⟨u, hu, hdone, -⟩ := hok hne
    cases ht.symm.trans hu
    rw [hdone] at hcode
    cases hcode

end

/-- Settles O42: the guard, and then what DECODE answers by the number of leaves. -/
theorem undecodableSequenceHasThreeCauses : Obligations.UndecodableSequenceHasThreeCauses := by
  refine ⟨fun s j b w => walkBit_missingChild j, fun s t h hv ht hcode => ?_⟩
  obtain ⟨bits, hbits⟩ := exists_bits_of_undecodable h hv ht hcode
  obtain ⟨hpos, -⟩ := h.spec.tree_counts hv
  by_cases hone : s.ftCount = 1
  · exact .inl ⟨hone, undecodable_of_one_leaf h hv hbits ht hcode hone⟩
  · have h2 : 2 ≤ s.ftCount.toNat := by
      have hN : s.ftCount.toNat ≠ 1 := fun hN => hone (BitVec.eq_of_toNat_eq hN)
      omega
    obtain ⟨hne, hinfo, hinner⟩ := undecodable_of_more_leaves h hv hbits ht hcode h2
    refine .inr ⟨h2, fun hzero => hne ?_, hinfo, fun bits' used rest hbits' hsplit n hn => ?_⟩
    · rw [← List.length_eq_zero_iff, length_bits hbits, hzero]; rfl
    · obtain rfl : bits = bits' := List.map_injective_iff.mpr charOfBit_injective (hbits.symm.trans hbits')
      exact hinner used rest hsplit n hn

/-! ### The bit-string -/

/-- No command's body writes the bit-string but those of DEC_CLEAR, CLEAR and DEC_PUSH. -/
theorem commandBody_keeps_bin {i : Instr} {s u : State}
    (hi : ¬ (i = .decClear ∨ i = .clear ∨ ∃ ch, i = .decPush ch)) (h : commandBody i s = .ok u) :
    u.binLen = s.binLen ∧ u.bin = s.bin := by
  cases i with
  | nop => cases h; exact ⟨rfl, rfl⟩
  | clear => exact absurd (.inr (.inl rfl)) hi
  | freqAdd sym => obtain ⟨-, -, -, ⟨_, -, -, -, rfl⟩ | ⟨-, -, rfl⟩⟩ := freqAddBody_eq_ok h <;> exact ⟨rfl, rfl⟩
  | freqRead idx => obtain ⟨-, -, rfl⟩ := freqReadBody_eq_ok h; exact ⟨rfl, rfl⟩
  | build => obtain ⟨-, -, -, rfl⟩ := buildBody_eq_ok h; exact ⟨rfl, rfl⟩
  | nodeRead idx => obtain ⟨-, -, -, rfl⟩ := nodeReadBody_eq_ok h; exact ⟨rfl, rfl⟩
  | decClear => exact absurd (.inl rfl) hi
  | decPush ch => exact absurd (.inr (.inr ⟨ch, rfl⟩)) hi
  | decode => obtain ⟨-, -, _, _, -, -, -, -, rfl⟩ := decodeBody_eq_ok h; exact ⟨rfl, rfl⟩
  | decRead idx => obtain ⟨-, -, rfl⟩ := decReadBody_eq_ok h; exact ⟨rfl, rfl⟩

/-- The words of the commands that write the bit-string. -/
def WritesBin (w : Word) : Prop :=
  decodeCmd w = .command .decClear ∨ decodeCmd w = .command .clear ∨ ∃ ch, decodeCmd w = .command (.decPush ch)

/-- No other word writes it, legal or not. -/
theorem performWord_keeps_bin {w : Word} {s t : State} (hw : ¬ WritesBin w) (h : performWord w s = .next t) :
    t.binLen = s.binLen ∧ t.bin = s.bin := by
  cases hdec : decodeCmd w with
  | illegal why =>
    rw [performWord_illegal hdec] at h
    cases h
    exact ⟨rfl, rfl⟩
  | command i =>
    rw [performWord_command hdec] at h
    have hi : ¬ (i = .decClear ∨ i = .clear ∨ ∃ ch, i = .decPush ch) := by simpa [WritesBin, hdec] using hw
    obtain ⟨u, hu, rfl⟩ | ⟨c, x, -, rfl⟩ := exec_next h
    · exact commandBody_keeps_bin (u := u) hi hu
    · cases i <;> exact ⟨rfl, rfl⟩

/-- The bit-string changes only by its commands and by reset. -/
theorem step_changes_bin {s t : State} (h : step s = .next t) (hne : t.binLen ≠ s.binLen ∨ t.bin ≠ s.bin) :
    s.nextTurn = .reset ∨ (s.nextTurn = .engine ∧ ∃ p, s.pending = some p ∧ WritesBin p.word) := by
  have hchanged : ¬ (t.binLen = s.binLen ∧ t.bin = s.bin) := not_and_or.mpr hne
  obtain ⟨-, hh⟩ | ⟨-, -, rfl⟩ | ⟨hturn, p, hpend, hp⟩ | ⟨hturn, -⟩ := step_next h
  · exact absurd (by rw [hostStep_frame hh]; exact ⟨rfl, rfl⟩) hchanged
  · exact absurd ⟨rfl, rfl⟩ hchanged
  · refine .inr ⟨hturn, p, hpend, ?_⟩
    by_contra hw
    exact hchanged (performWord_keeps_bin (s := s.takeTurn) hw hp)
  · exact .inl hturn

/-- Two states that agree in what DECODE reads: the sizes, the tree and the bit-string (43_decoder.md R174). -/
structure State.SameInput (s t : State) : Prop where
  cfg : t.cfg = s.cfg
  treeValid : t.treeValid = s.treeValid
  node : t.node = s.node
  root : t.root = s.root
  bin : t.bin = s.bin
  binLen : t.binLen = s.binLen

/-- After a common first part it is enough that the rest stops in the same way. -/
theorem cmd_bind_error_mono {α β : Type} {x : Cmd α} {f g : α → Cmd β} {e : Stop}
    (hfg : ∀ a, f a = .error e → g a = .error e) (h : x >>= f = .error e) : x >>= g = .error e :=
  cmd_bind_eq_error.mpr ((cmd_bind_eq_error.mp h).imp_right fun ⟨a, ha, hf⟩ => ⟨a, ha, hfg a hf⟩)

namespace State.SameInput

variable {s t : State} (h : s.SameInput t)
include h

theorem binChars : t.binChars = s.binChars := by rw [State.binChars, h.bin, h.binLen, State.binChars]

theorem readBinChars : Machine.readBinChars t = Machine.readBinChars s := by
  rw [Machine.readBinChars, h.cfg, h.binLen, h.binChars]; rfl

theorem walk (bits : List Bool) : walkFrom t 0 bits t.walkStart = walkFrom s 0 bits s.walkStart := by
  rw [walkFrom_congr h.cfg h.node h.root, State.walkStart, h.root]; rfl

/-- DECODE fails in both, and in the same way. -/
theorem decodeBody_error {e : Stop} (he : decodeBody s = .error e) : decodeBody t = .error e := by
  unfold decodeBody at he ⊢
  rw [h.treeValid, h.readBinChars]
  by_cases hv : s.treeValid = false
  · rw [if_pos hv] at he ⊢
    exact he
  · rw [if_neg hv] at he ⊢
    refine cmd_bind_error_mono (fun chars => cmd_bind_error_mono fun bits he => ?_) he
    rw [h.walk]
    refine cmd_bind_error_mono (fun w he => ?_) he
    by_cases hnone : 0 < bits.length ∧ w.out.length = 0
    · rw [if_pos hnone] at he ⊢
      exact he
    · rw [if_neg hnone] at he ⊢
      by_cases hfit : w.out.length ≤ s.cfg.lMax
      · rw [writeSout_of_le hfit] at he
        cases he
      · rw [writeSout, Cmd.needPrefix, if_neg hfit] at he
        rw [writeSout, h.cfg, Cmd.needPrefix, if_neg hfit]
        exact he

/-- DECODE succeeds in both, and with the same text. -/
theorem decodeBody_ok {u : State} (hu : decodeBody s = .ok u) :
    ∃ text trail, text.length ≤ s.cfg.lMax ∧ u = s.withText text trail ∧
      decodeBody t = .ok (t.withText text trail) := by
  obtain ⟨hv, hlen, bits, w, hbits, hwalk, hne, hfit, rfl⟩ := decodeBody_eq_ok hu
  exact ⟨w.out, bits.length - w.last, hfit, rfl, decodeBody_of_walk (by rw [h.cfg, h.binLen]; exact hlen)
    (h.treeValid.trans hv) (h.binChars.trans (validateFrom_eq_ok.mp hbits)) ((h.walk bits).trans hwalk) hne
    (h.cfg ▸ hfit)⟩

end State.SameInput

/-- A DECODE changes nothing that a DECODE reads (43_decoder.md R181). -/
theorem exec_decode_sameInput {s t : State} (h : exec .decode s = .next t) : s.SameInput t := by
  obtain ⟨u, hu, rfl⟩ | ⟨c, x, -, rfl⟩ := exec_next h
  · obtain ⟨-, -, _, _, -, -, -, -, rfl⟩ := decodeBody_eq_ok hu
    exact ⟨rfl, rfl, rfl, rfl, rfl, rfl⟩
  · exact ⟨rfl, rfl, rfl, rfl, rfl, rfl⟩

/-- Settles O44: the second DECODE reads what the first one read. -/
theorem bitStringPersists : Obligations.BitStringPersists := by
  refine ⟨fun s t => step_changes_bin, fun s t h ht => ?_⟩
  have hsame : s.SameInput { t with pending := s.pending, busy := s.busy } := { exec_decode_sameInput ht with }
  obtain ⟨u, hu, rfl⟩ | ⟨c, x, he, rfl⟩ := exec_next ht
  · obtain ⟨text, trail, hfit, rfl, hagain⟩ := hsame.decodeBody_ok hu
    have hwf := h.memories.sout_wf
    refine ⟨_, exec_of_ok (i := .decode) hagain, rfl, rfl, rfl, ?_, rfl⟩
    rw [soutSyms_complete, soutSyms_complete, soutSyms_withText trail hwf hfit]
    exact soutSyms_withText trail (Memory.wf_setAll text 0 hwf) hfit
  · exact ⟨_, exec_of_raise (i := .decode) (hsame.decodeBody_error he), rfl, rfl, rfl, rfl, rfl⟩

end Sys2Proof.Machine
end

section
/-! PROOFS of 60_exceptions.md. The code and detail of each command, read off the check its body stopped at or passed;
how long the report stays, from what each turn of a step writes; and that no turn faults. -/

namespace Sys2Proof.Machine

/-! ### The first failing check -/

/-- What a command reports: success with detail 0, or the code and detail its body stopped with. -/
theorem exec_report {i : Instr} {s t : State} (h : exec i s = .next t) :
    ((∃ u, commandBody i s = .ok u) ∧ (t.errCode, t.errInfo) = (.ok, 0)) ∨
      commandBody i s = .error (.error t.errCode t.errInfo) := by
  obtain ⟨u, hu, rfl⟩ | ⟨c, x, hc, rfl⟩ := exec_next h
  · exact .inl ⟨⟨u, hu⟩, rfl⟩
  · exact .inr hc

section
variable {s t : State}

theorem exec_freqAdd_report {sym : Half} {p : Pending} (hp : s.pending = some p)
    (h : exec (.freqAdd sym) s = .next t) :
    (t.errCode, t.errInfo) =
      if s.treeValid = true then (ErrCode.tableLocked, (0 : Word))
      else if findSym s.ftEntries sym = none ∧ s.ftCount.toNat = s.cfg.nMax then (.tableFull, zextHalf sym)
      else if maxFreq < s.ftTotal.toNat + p.arg.toNat then (.freqOverflow, zextHalf sym)
      else (.ok, 0) := by
  obtain ⟨⟨u, hu⟩, hok⟩ | hc := exec_report h
  · obtain ⟨hl, -, hfit, hroom⟩ := freqAddBody_eq_ok hu
    have hroom : ¬ (findSym s.ftEntries sym = none ∧ s.ftCount.toNat = s.cfg.nMax) := by
      rintro ⟨hnone, hfull⟩
      obtain ⟨i, hsome, -⟩ | ⟨-, hlt, -⟩ := hroom
      · cases hnone.symm.trans hsome
      · exact Nat.ne_of_lt hlt hfull
    rw [incOperand_some hp] at hfit
    rw [hok, if_neg (by simp [hl]), if_neg hroom, if_neg (Nat.not_lt.mpr hfit)]
  · obtain ⟨hv, hcode, hinfo⟩ | ⟨hl, hnone, hfull, hcode, hinfo⟩ | ⟨hl, hroom, hover, hcode, hinfo⟩ :=
      freqAddBody_raises hc
    · rw [hcode, hinfo, if_pos hv]
    · rw [hcode, hinfo, if_neg (by simp [hl]), if_pos ⟨hnone, hfull⟩]
    · rw [incOperand_some hp] at hover
      rw [hcode, hinfo, if_neg (by simp [hl]), if_neg hroom, if_pos hover]

theorem exec_freqRead_report {idx : Half} (h : exec (.freqRead idx) s = .next t) :
    (t.errCode, t.errInfo) =
      if s.ftCount.toNat ≤ idx.toNat then (ErrCode.badIndex, idxOperand idx) else (.ok, 0) := by
  rw [← toNat_idxOperand idx]
  obtain ⟨⟨u, hu⟩, hok⟩ | hc := exec_report h
  · obtain ⟨hidx, -⟩ := freqReadBody_eq_ok hu
    rw [hok, if_neg (Nat.not_le.mpr hidx)]
  · obtain ⟨hidx, hcode, hinfo⟩ := freqReadBody_raises hc
    rw [hcode, hinfo, if_pos hidx]

theorem exec_build_report (h : exec .build s = .next t) :
    (t.errCode, t.errInfo) = if s.ftCount = 0 then (ErrCode.emptyAlphabet, 0) else (.ok, 0) := by
  obtain ⟨⟨u, hu⟩, hok⟩ | hc := exec_report h
  · obtain ⟨hpos, -⟩ := buildBody_eq_ok hu
    rw [hok, if_neg fun hz => Nat.ne_of_gt hpos (congrArg BitVec.toNat hz)]
  · obtain ⟨hzero, hcode, hinfo⟩ := buildBody_raises hc
    rw [hcode, hinfo, if_pos (BitVec.eq_of_toNat_eq hzero)]

theorem exec_nodeRead_report {idx : Half} (h : exec (.nodeRead idx) s = .next t) :
    (t.errCode, t.errInfo) =
      if s.treeValid = false then (ErrCode.noTree, (0 : Word))
      else if s.nodeCount.toNat ≤ idx.toNat then (.badIndex, idxOperand idx) else (.ok, 0) := by
  rw [← toNat_idxOperand idx]
  obtain ⟨⟨u, hu⟩, hok⟩ | hc := exec_report h
  · obtain ⟨hv, hidx, -⟩ := nodeReadBody_eq_ok hu
    rw [hok, if_neg (by simp [hv]), if_neg (Nat.not_le.mpr hidx)]
  · obtain ⟨hv, hcode, hinfo⟩ | ⟨hv, hidx, hcode, hinfo⟩ := nodeReadBody_raises hc
    · rw [hcode, hinfo, if_pos hv]
    · rw [hcode, hinfo, if_neg (by simp [hv]), if_pos hidx]

theorem exec_decPush_report {ch : Half} (h : exec (.decPush ch) s = .next t) :
    (t.errCode, t.errInfo) =
      if s.binLen.toNat = s.cfg.lMax then (ErrCode.bufferFull, zextHalf ch) else (.ok, 0) := by
  obtain ⟨⟨u, hu⟩, hok⟩ | hc := exec_report h
  · obtain ⟨hroom, -⟩ := decPushBody_eq_ok hu
    rw [hok, if_neg (Nat.ne_of_lt hroom)]
  · obtain ⟨hfull, hcode, hinfo⟩ := decPushBody_raises hc
    rw [hcode, hinfo, if_pos hfull]

theorem exec_decRead_report {idx : Half} (h : exec (.decRead idx) s = .next t) :
    (t.errCode, t.errInfo) =
      if s.soutLen.toNat ≤ idx.toNat then (ErrCode.badIndex, idxOperand idx) else (.ok, 0) := by
  rw [← toNat_idxOperand idx]
  obtain ⟨⟨u, hu⟩, hok⟩ | hc := exec_report h
  · obtain ⟨hidx, -⟩ := decReadBody_eq_ok hu
    rw [hok, if_neg (Nat.not_le.mpr hidx)]
  · obtain ⟨hidx, hcode, hinfo⟩ := decReadBody_raises hc
    rw [hcode, hinfo, if_pos hidx]

/-- A bit-string without a malformed character is a list of bits. -/
theorem exists_bits_of_wellFormed (hgood : ¬ ∃ j < s.binLen.toNat, bitval (s.binAt j) = none) :
    ∃ bits : List Bool, s.binChars = bits.map charOfBit := by
  by_contra hbits
  obtain ⟨j, hj, hbad, -⟩ := exists_first_malformed hbits
  rw [getElem_binChars] at hbad
  exact hgood ⟨j, length_binChars s ▸ hj, hbad⟩

section
variable (h : s.Inv) (hv : s.treeValid = true) (ht : exec .decode s = .next t)
include h hv ht

/-- A malformed bit-string: the detail is the least index of a malformed character. -/
theorem exec_decode_report_malformed (hbad : ∃ j < s.binLen.toNat, bitval (s.binAt j) = none) :
    t.errCode = .malformedBitstring ∧ t.errInfo.toNat < s.binLen.toNat ∧
      bitval (s.binAt t.errInfo.toNat) = none ∧ ∀ k < t.errInfo.toNat, bitval (s.binAt k) ≠ none := by
  obtain ⟨hj, hnone⟩ := Nat.find_spec hbad
  have hgood : ∀ k < Nat.find hbad, bitval (s.binAt k) ≠ none := fun k hk hk0 =>
    Nat.find_min hbad hk ⟨hk.trans hj, hk0⟩
  cases ht.symm.trans (exec_decode_malformed h hv hj hnone hgood)
  have hinfo : (BitVec.ofNat 32 (Nat.find hbad)).toNat = Nat.find hbad := toNat_ofNat32 (hj.trans s.binLen.isLt)
  rw [State.raiseError_errInfo, hinfo]
  exact ⟨rfl, hj, hnone, hgood⟩

/-- Past validation only the walk and the emitted text are left to check. -/
theorem exec_decode_report_wellFormed {bits : List Bool} (hbits : s.binChars = bits.map charOfBit) :
    t.errCode = .ok ∨ t.errCode = .undecodableSequence := by
  match hwalk : walkFrom s 0 bits s.walkStart with
  | .ok w =>
    by_cases hnone : bits ≠ [] ∧ w.out = []
    · cases ht.symm.trans (exec_decode_noSymbol h hv hbits hwalk hnone.1 hnone.2)
      exact .inr rfl
    · cases ht.symm.trans (exec_decode_text h hv hbits hwalk hnone rfl)
      exact .inl rfl
  | .error (.error c x) =>
    cases ht.symm.trans (exec_decode_walkStops h hv hbits hwalk)
    exact .inr (walkFrom_raises hwalk).1
  | .error (.fault f) => exact absurd hwalk (walkFrom_noFault h hv bits 0 (h.root_lt hv) f)

end

theorem exec_decode_report (h : s.Inv) (ht : exec .decode s = .next t) :
    if s.treeValid = false then t.errCode = .noTree ∧ t.errInfo = 0
    else if ∃ j < s.binLen.toNat, bitval (s.binAt j) = none then
      t.errCode = .malformedBitstring ∧ t.errInfo.toNat < s.binLen.toNat ∧
        bitval (s.binAt t.errInfo.toNat) = none ∧ ∀ k < t.errInfo.toNat, bitval (s.binAt k) ≠ none
    else t.errCode = .ok ∨ t.errCode = .undecodableSequence := by
  split_ifs with hv hbad
  · cases ht.symm.trans (exec_decode_noTree hv)
    exact ⟨rfl, rfl⟩
  · exact exec_decode_report_malformed h (by simpa using hv) ht hbad
  · obtain ⟨bits, hbits⟩ := exists_bits_of_wellFormed hbad
    exact exec_decode_report_wellFormed h (by simpa using hv) ht hbits

/-- The three commands without a check succeed. -/
theorem exec_report_unchecked {i : Instr} (hi : i = .nop ∨ i = .clear ∨ i = .decClear) (h : exec i s = .next t) :
    t.errCode = .ok := by
  obtain ⟨-, hok⟩ | hc := exec_report h
  · exact congrArg Prod.fst hok
  · obtain rfl | rfl | rfl := hi <;> cases hc

theorem performWord_illegal_report {w : Word} {why : IllegalReason} (hw : decodeCmd w = .illegal why)
    (h : performWord w s = .next t) : t.errCode = .illegalCmd ∧ t.errInfo = w := by
  cases (performWord_illegal hw s).symm.trans h
  exact ⟨rfl, rfl⟩

end

/-- Settles O10, command by command. -/
theorem firstFailingCheckIsReported : Obligations.FirstFailingCheckIsReported := by
  refine fun s t h => ⟨fun w why => performWord_illegal_report, fun i => exec_report_unchecked,
    fun sym p hp ht => ?_, fun idx => exec_freqRead_report, exec_build_report, fun idx => exec_nodeRead_report,
    fun ch => exec_decPush_report, exec_decode_report h, fun idx => exec_decRead_report⟩
  simp only [← findSym_eq_none]
  exact exec_freqAdd_report hp ht

/-! ### How long the report stays -/

/-- No host step writes the report (40_control.md R104). -/
theorem hostStep_keeps_report {s t : State} (h : hostStep s = .next t) :
    t.errCode = s.errCode ∧ t.errInfo = s.errInfo := by
  rw [hostStep_frame h]
  exact ⟨rfl, rfl⟩

/-- The report is written by a completion, or by reset. -/
theorem step_changes_report {s t : State} (h : step s = .next t)
    (hne : t.errCode ≠ s.errCode ∨ t.errInfo ≠ s.errInfo) :
    s.nextTurn = .reset ∨ (s.nextTurn = .engine ∧ s.pending ≠ none ∧ t.Completed) := by
  have hchanged : ¬ (t.errCode = s.errCode ∧ t.errInfo = s.errInfo) := not_and_or.mpr hne
  obtain ⟨-, hh⟩ | ⟨-, -, rfl⟩ | ⟨hturn, p, hpend, hp⟩ | ⟨hturn, -⟩ := step_next h
  · exact absurd (hostStep_keeps_report hh) hchanged
  · exact absurd ⟨rfl, rfl⟩ hchanged
  · exact .inr ⟨hturn, Option.ne_none_iff_exists'.mpr ⟨p, hpend⟩, performWord_completed hp⟩
  · exact .inl hturn

/-- A host write clears `DONE` at `STATUS`, by bit 1, or as an accepted command (10_state.md R27, 40_control.md
R100). -/
theorem writeWord_clears_done {s : State} {offset : Nat} {v : Word} (h : s.done = true)
    (hw : (s.writeWord offset v).done = false) :
    (offset = 0x14 ∧ v.getLsbD 1 = true) ∨ (offset = 0x1C ∧ s.busy = false) := by
  obtain ⟨-, he⟩ | ⟨ho, he⟩ | ⟨-, he⟩ | ⟨ho, hb, -⟩ | ⟨-, -, he⟩ | he := writeWord_cases s offset v
  case inr.inl =>
    refine .inl ⟨ho, ?_⟩
    by_contra hbit
    rw [he, State.writeStatus_done, if_neg hbit, h] at hw
    cases hw
  case inr.inr.inr.inl => exact .inr ⟨ho, hb⟩
  all_goals
    rw [he] at hw
    cases h.symm.trans hw

/-- `DONE` falls by one of these two writes, or by reset. -/
theorem step_clears_done {s t : State} (hset : s.done = true) (h : step s = .next t) (hclear : t.done = false) :
    s.nextTurn = .reset ∨
    (s.nextTurn = .host ∧ ∃ v : Word,
      (s.host.current = some (.wr .word 0x14 v) ∧ v.getLsbD 1 = true) ∨
      (s.host.current = some (.wr .word 0x1C v) ∧ s.busy = false)) := by
  obtain ⟨hturn, hh⟩ | ⟨-, -, rfl⟩ | ⟨-, p, -, hp⟩ | ⟨hturn, -⟩ := step_next h
  · obtain ht | ⟨offset, v, hcur, ht⟩ := hostStep_next hh <;> rw [ht] at hclear
    · cases hset.symm.trans hclear
    · refine .inr ⟨hturn, v, ?_⟩
      obtain ⟨rfl, hbit⟩ | ⟨rfl, hidle⟩ := writeWord_clears_done (s := s.takeTurn) hset hclear
      · exact .inl ⟨hcur, hbit⟩
      · exact .inr ⟨hcur, hidle⟩
  · cases hset.symm.trans hclear
  · obtain ⟨-, hdone, -⟩ := performWord_completed hp
    cases hdone.symm.trans hclear
  · exact .inl hturn

/-- Settles O12, by the four things a step can be. -/
theorem errorReportLastsUntilTheNextCompletion : Obligations.ErrorReportLastsUntilTheNextCompletion :=
  ⟨fun _ _ => step_changes_report, fun _ _ => step_clears_done⟩

/-! ### No step faults -/

theorem hostWrite_not_fault (size : AccessSize) (offset : Nat) (v : Word) (s : State) (f : Fault) :
    hostWrite size offset v s ≠ .fault f := by
  cases hr : accessRefusal size offset with
  | none => rw [hostWrite_of_access hr]; nofun
  | some r => rw [hostWrite_of_refusal hr]; nofun

theorem hostRead_not_fault (size : AccessSize) (dst : HVar) (offset : Nat) (s : State) (f : Fault) :
    hostRead size dst offset s ≠ .fault f := by
  cases hr : accessRefusal size offset with
  | none => rw [hostRead_of_access hr]; nofun
  | some r => rw [hostRead_of_refusal hr]; nofun

theorem hostBranch_not_fault (taken : Bool) (target : Nat) (s : State) (f : Fault) :
    hostBranch taken target s ≠ .fault f := by
  unfold hostBranch
  cases taken with
  | false => nofun
  | true => cases s.host.labelPlace target <;> nofun

/-- A host step may be refused, but reaches no memory (20_memory.md R66). -/
theorem hostStep_not_fault (s : State) (f : Fault) : hostStep s ≠ .fault f := by
  unfold hostStep
  cases s.host.current with
  | none => nofun
  | some stmt =>
    cases stmt with
    | wr size offset v => exact hostWrite_not_fault size offset v s f
    | rd size dst offset => exact hostRead_not_fault size dst offset s f
    | andi dst src imm => nofun
    | bnez src target => exact hostBranch_not_fault _ target s f
    | beqz src target => exact hostBranch_not_fault _ target s f
    | label name => nofun
    | halt => nofun

/-- The engine is idle, or completes its word. -/
theorem engineStep_not_fault {s : State} (h : s.Inv) (f : Fault) : engineStep s ≠ .fault f := by
  intro hf
  by_cases hp : s.pending = none
  · cases (engineStep_idle hp).symm.trans hf
  · obtain ⟨t, ht, -⟩ := engineStep_completes h hp
    cases ht.symm.trans hf

theorem step_not_fault {s : State} (h : s.Inv) (f : Fault) : step s ≠ .fault f := by
  unfold step
  cases s.nextTurn with
  | host => exact hostStep_not_fault _ f
  | engine => exact engineStep_not_fault h.takeTurn f
  | reset => nofun

/-- After a completion, with success or failure, HUFF is idle and takes the next command (60_exceptions.md R209). -/
theorem engineStep_then_accepts {s t : State} (h : engineStep s = .next t) (hp : s.pending ≠ none) (w : Word) :
    t.writeWord 0x1C w = { t with pending := some { word := w, arg := t.arg0 }, busy := true, done := false } := by
  obtain ⟨hidle, -⟩ | ⟨p, -, hw⟩ := engineStep_next h
  · exact absurd hidle hp
  · obtain ⟨hbusy, -⟩ := performWord_completed hw
    exact acceptanceLatchesWordAndArgument t w hbusy

/-- Settles O59, by whose turn it is. -/
theorem noStepFaults : Obligations.NoStepFaults :=
  ⟨fun _ => step_not_fault, fun _ _ w _ h hp => engineStep_then_accepts h hp w⟩

end Sys2Proof.Machine
end

section
/-! PROOFS of 70_reset_and_hazards.md. What the reset turn leaves in the registers. The machine right after reset is one
that the reset input does not change, so its registers hold the same values for the same reason. -/

namespace Sys2Proof.Machine

/-- The reset turn runs neither agent. -/
theorem step_reset {s : State} (h : s.nextTurn = .reset) : step s = .next s.takeTurn.hardReset := by rw [step, h]

@[simp] theorem State.hardReset_errFlag (s : State) : s.hardReset.errFlag = false := rfl

/-- `STATUS` is put together from fields that are all 0. -/
@[simp] theorem State.hardReset_statusWord (s : State) : s.hardReset.statusWord = 0x00000000 :=
  BitVec.eq_of_toNat_eq (by simp [toNat_statusWord, ErrCode.number])

@[simp] theorem State.hardReset_ctrlWord (s : State) : s.hardReset.ctrlWord = 0x00000000 :=
  BitVec.eq_of_toNat_eq (by simp [toNat_ctrlWord])

@[simp] theorem State.hardReset_irq (s : State) : s.hardReset.irq = false := rfl

theorem State.hardReset_reset : State.reset.hardReset = State.reset := rfl

/-- Settles O55: both states are left by the reset input, whose registers are read off one by one. -/
theorem resetGivesEveryRegisterItsValue : Obligations.ResetGivesEveryRegisterItsValue := by
  refine ⟨fun s h => ⟨s.takeTurn.hardReset, step_reset h, ?_⟩, ?_⟩
  · simp
  · rw [← State.hardReset_reset]
    simp

end Sys2Proof.Machine
end
